-- ==== Sys2Proof/Word.lean ====
section
/-! DEFINITION. The words LCDENC handles: bytes, the two kinds of byte, and the request word with its byte stream. -/

namespace Sys2Proof

/-- An 8-bit value: a byte on the bus, a register, a character code. -/
abbrev Byte := BitVec 8

/-- The request word REQ, 52 bits (30_encoding.md R60). -/
abbrev ReqWord := BitVec 52

/-- The 10-bit bus frame `RS RW DB7 .. DB0` (30_encoding.md R64). -/
abbrev BusWord := BitVec 10

/-- The 6-bit nibble frame `RS RW D3 .. D0` (30_encoding.md R64). -/
abbrev NibbleWord := BitVec 6

/-- The two kinds of byte: to the controller's command register or to its data register
(42_bus_transmitter.md R117). -/
inductive Kind where
  | command
  | data
deriving DecidableEq, Repr

/-- The interface width `W`: four or eight data lines (10_state.md R13). -/
inductive Width where
  | four
  | eight
deriving DecidableEq, Repr

/-- One request as the host presents it: the 52-bit word and, for PUTS and DEFCHAR, the byte stream of the
side port (30_encoding.md R60). -/
structure Request where
  word   : ReqWord
  stream : List Byte
deriving DecidableEq, Repr

end Sys2Proof
end

