-- ==== Sys2Proof/Syntax.lean ====
section
/-! DEFINITION. The instructions: one constructor per row of spec/opcode_table.json. -/

namespace Sys2Proof

/-- The rows of spec/opcode_table.json: sixteen requests of the host (30_encoding.md R61), eleven bus frames and
four nibble frames LCDENC puts on the bus (R64, R65), and three internal procedures (42_bus_transmitter.md,
43_busy_poller.md). -/
inductive Instr where
  /-- CREATE (R90): the `config` byte, control-pin list given, data-pin list given. -/
  | create (config : Byte) (controlGiven dataGiven : Bool)
  /-- DESTROY (R94). -/
  | destroy
  /-- CLEAR (R136). -/
  | clear
  /-- HOME (R137). -/
  | home
  /-- DISPLAY (R140): 1 on, 0 off. -/
  | display (s : Bool)
  /-- CURSOR (R141): 1 shown, 0 hidden. -/
  | cursor (s : Bool)
  /-- BLINK (R142): 1 on, 0 off. -/
  | blink (s : Bool)
  /-- DIRECTION (R143): 1 left to right, 0 right to left. -/
  | direction (d : Bool)
  /-- AUTOSCROLL (R144): 1 on, 0 off. -/
  | autoscroll (s : Bool)
  /-- GOTO (R150). -/
  | goto (line : BitVec 2) (col : Byte)
  /-- SCROLL (R153): 1 right, 0 left. -/
  | scroll (d : Bool)
  /-- DEFCHAR (R155): the index and the byte stream. -/
  | defchar (idx : Byte) (stream : List Byte)
  /-- PUTC (R160). -/
  | putc (c : Byte)
  /-- PUTS (R162): the byte stream. -/
  | puts (stream : List Byte)
  /-- PUTI (R165): two's complement. -/
  | puti (n : BitVec 32)
  /-- The reserved selector 0xF (R68). -/
  | reserved
  /-- `cmd.clear` (R136). -/
  | cmdClear
  /-- `cmd.home` (R137). -/
  | cmdHome
  /-- `cmd.entry_mode` (R139): the flags ID and S. -/
  | cmdEntryMode (leftToRight shift : Bool)
  /-- `cmd.display_control` (R139): the flags D, C and B. -/
  | cmdDisplayControl (on cursor blink : Bool)
  /-- `cmd.display_shift` (R153): 1 right. -/
  | cmdDisplayShift (right : Bool)
  /-- `cmd.function_set` (R105): DL, N and F. -/
  | cmdFunctionSet (dl n f : Bool)
  /-- `cmd.set_cgram` (R155): the character index. -/
  | cmdSetCgram (i : BitVec 3)
  /-- `cmd.set_ddram` (R150): the address. -/
  | cmdSetDdram (a : BitVec 7)
  /-- `cmd.reset_byte8` (R104): N and F; DL is 1. -/
  | cmdResetByte8 (n f : Bool)
  /-- `data.write` (R117). -/
  | dataWrite (d : Byte)
  /-- `busy.read` (R130): the level the controller drives on DB7, and the seven levels not sampled. -/
  | busyRead (b : Bool) (x : BitVec 7)
  /-- `reset.nibble3` (R103). -/
  | resetNibble3
  /-- `reset.nibble2` (R103). -/
  | resetNibble2
  /-- `byte.high_nibble` (R117): the level of RS and the nibble. -/
  | byteHighNibble (rs : Bool) (h : BitVec 4)
  /-- `byte.low_nibble` (R117): the level of RS and the nibble. -/
  | byteLowNibble (rs : Bool) (l : BitVec 4)
  /-- `WriteValue(v)` (R115): only the low `W` bits of `v` are used. -/
  | writeValue (v : Nat)
  /-- `Send(v, kind)` (R117). -/
  | send (v : Byte) (kind : Kind)
  /-- `BusyWait()` (R130). -/
  | busyWait
deriving DecidableEq, Repr

end Sys2Proof
end

