-- ==== Sys2Proof/Config.lean ====
section
/-! DEFINITION. The parameters of one LCDENC (00_scope.md R5), their reference values, the pin identifiers
(10_state.md R19) and the one free value of the model. -/

namespace Sys2Proof

/-- A GPIO identifier, an opaque (port, pin) pair (10_state.md R19). -/
structure PinId where
  port : Nat
  pin  : Nat
deriving DecidableEq, Repr

/-- Which procedure sends the three bytes of the 8-bit reset dance: the parameter `INIT8_VIA`
(41_init_sequence.md R104, 92_eei_decisions.md D9). -/
inductive InitVia where
  | send
  | writeValue
deriving DecidableEq, Repr

/-- The parameters of 00_scope.md R5 and the pin lists of 10_state.md R19. Fixed for the machine: the state
carries the record and no instruction writes it. Times are in microseconds. -/
structure Config where
  /-- `BUSY_POLL`: busy-flag polling present; then the RW line exists too (D27). -/
  busyPoll      : Bool
  /-- `MAX_DEVICES`: registry capacity. -/
  maxDevices    : Nat
  /-- `T_POWERUP` -/
  tPowerup      : Nat
  /-- `T_INIT1` -/
  tInit1        : Nat
  /-- `T_INIT2` -/
  tInit2        : Nat
  /-- `T_INIT3` -/
  tInit3        : Nat
  /-- `T_EN` -/
  tEn           : Nat
  /-- `T_SEND` -/
  tSend         : Nat
  /-- `T_SLOW` -/
  tSlow         : Nat
  /-- `F_CLK_HZ`, the clock of the hardware rendering (D2). -/
  fClkHz        : Nat
  /-- `INIT8_OR_OPCODE` (D9). -/
  init8OrOpcode : Bool
  /-- `INIT8_VIA` (D9). -/
  init8Via      : InitVia
  /-- Identifier of the RS line. -/
  rsPin         : PinId
  /-- Identifier of the EN line. -/
  enPin         : PinId
  /-- Identifier of the RW line, used only when `BUSY_POLL`. -/
  rwPin         : PinId
  /-- Identifiers of the data lines, in list order; one list for both widths, DESIGN CHOICE, unsafe (log 28). -/
  dataPins      : List PinId
deriving DecidableEq, Repr

namespace Config

/-- The reference values of 00_scope.md R5. DESIGN CHOICE, unsafe (log 4): the spec gives no value for
`BUSY_POLL`, `MAX_DEVICES`, `F_CLK_HZ` and the pin identifiers; these are false, 1, 1 MHz and made-up pairs. -/
def reference : Config where
  busyPoll      := false
  maxDevices    := 1
  tPowerup      := 50000
  tInit1        := 4500
  tInit2        := 150
  tInit3        := 150
  tEn           := 1
  tSend         := 50
  tSlow         := 2000
  fClkHz        := 1000000
  init8OrOpcode := false
  init8Via      := .send
  rsPin         := ⟨0, 0⟩
  enPin         := ⟨0, 1⟩
  rwPin         := ⟨0, 2⟩
  dataPins      := [⟨1, 0⟩, ⟨1, 1⟩, ⟨1, 2⟩, ⟨1, 3⟩, ⟨1, 4⟩, ⟨1, 5⟩, ⟨1, 6⟩, ⟨1, 7⟩]

/-- The busy answers the environment has not fixed yet, by number of the sample: a free value. The controller
answers each `PinGet(MSB)` with 0 or 1, "under no law" (43_busy_poller.md R129; 93 U11; log 3). -/
opaque busyAnswer : Nat → Bool

/-- `INT_WIDTH`, the width of the PUTI operand (00_scope.md R5, D12). -/
abbrev intWidth : Nat := 32

/-- `PUTI_BUF`, the digit buffer entries of PUTI (00_scope.md R5, D13). -/
abbrev putiBuf : Nat := 10

end Config

end Sys2Proof
end

