-- ==== Sys2Proof/Machine/Operands.lean ====
section
/-! DEFINITION. The operand forms: what the fields of a request select and how the emitted bytes are assembled
from them (30_encoding.md R66, R67). Nothing here reads the state. -/

namespace Sys2Proof.Machine

/-- The number of data lines. -/
def lineCount : Width → Nat
  | .four => 4
  | .eight => 8

/-- `FUNCTION_SET`, the function-set opcode (93 G3). PRESUMED (log 11). -/
def functionSetOpcode : Byte := 0x20

/-- `DL`: 1 selects the 8-bit interface (30_encoding.md R66; 93 G3). PRESUMED (log 11). -/
def configDL : Byte := 0x10

/-- `N`: 1 selects two lines (30_encoding.md R66; 93 G3). PRESUMED (log 11). -/
def configN : Byte := 0x08

/-- `F`: 1 selects the 5x10 cell (30_encoding.md R66; 93 G3). PRESUMED (log 11). -/
def configF : Byte := 0x04

/-- The display-shift command without its direction bit, `0x10 | 0x08` (45_codec_address.md R153). -/
def displayShiftOpcode : Byte := 0x10 ||| 0x08

/-- `SHIFT_RIGHT`, the direction bit (93 G4). PRESUMED (log 11). -/
def shiftRight : Byte := 0x04

/-- The clear-display command (44_codec_commands.md R136). -/
def clearCommand : Byte := 0x01

/-- The return-home command (44_codec_commands.md R137). -/
def homeCommand : Byte := 0x02

/-- A flag bit or nothing: `s ? BIT : 0` of 30_encoding.md R67. -/
def bitIf (s : Bool) (bit : Byte) : Byte :=
  if s then bit else 0

/-- The eight legal values of `config`: no bit set but DL, N and F (30_encoding.md R66). -/
def legalConfig (config : Byte) : Bool :=
  config &&& ~~~(configDL ||| configN ||| configF) == 0

/-- `W` is 8 when the DL bit of `config` is set, else 4 (40_registry_lifecycle.md R90). -/
def configWidth (config : Byte) : Width :=
  if config &&& configDL == 0 then .four else .eight

/-- The function-set byte `0x20 | config` (41_init_sequence.md R105). -/
def functionSetByte (config : Byte) : Byte :=
  config ||| functionSetOpcode

/-- A `config` byte from its three fields (30_encoding.md R66). -/
def configOf (dl n f : Bool) : Byte :=
  bitIf dl configDL ||| bitIf n configN ||| bitIf f configF

/-- The byte of the 8-bit reset dance: `config` itself, or `config | 0x20` under `INIT8_OR_OPCODE`
(41_init_sequence.md R104). -/
def danceByte (orOpcode : Bool) (config : Byte) : Byte :=
  if orOpcode then functionSetByte config else config

/-- The DDRAM address of each line's first column: `0x00, 0x40, 0x10, 0x50` (20_memory.md R41). -/
def lineOffset (line : BitVec 2) : Nat :=
  if line = 0 then 0x00 else if line = 1 then 0x40 else if line = 2 then 0x10 else 0x50

/-- `offset[line] + col` (45_codec_address.md R150), before any wrap. -/
def gotoAddress (line : BitVec 2) (col : Byte) : Nat :=
  lineOffset line + col.toNat

/-- GOTO is defined when the address fits the 7-bit field (45_codec_address.md R151). -/
def gotoInRange (line : BitVec 2) (col : Byte) : Bool :=
  decide (gotoAddress line col ≤ 0x7F)

/-- The set-DDRAM-address byte `0x80 | address` (30_encoding.md R65). -/
def setDdramByte (addr : Nat) : Byte :=
  0x80 ||| BitVec.ofNat 8 addr

/-- The set-CGRAM-address byte `0x40 | ((idx & 7) << 3)` (45_codec_address.md R155). -/
def setCgramByte (idx : Byte) : Byte :=
  0x40 ||| ((idx &&& 0x07) <<< 3)

/-- The display-shift byte: `0x1C` right, `0x18` left (45_codec_address.md R153). -/
def displayShiftByte (right : Bool) : Byte :=
  displayShiftOpcode ||| bitIf right shiftRight

/-- The eight bitmap bytes of a stream, or fewer when it ends early (45_codec_address.md R155). -/
def bitmapBytes (stream : List Byte) : List Byte :=
  stream.take 8

/-- A stream with exactly the eight bitmap bytes of DEFCHAR (45_codec_address.md R155). -/
def bitmapComplete (stream : List Byte) : Bool :=
  stream.length == 8

/-- The longest prefix of a stream that holds no `0x00` (46_codec_print.md R163). -/
def stringBytes (stream : List Byte) : List Byte :=
  stream.takeWhile (fun c => c != 0x00)

/-- A stream that holds the terminator of PUTS (46_codec_print.md R163). -/
def terminated (stream : List Byte) : Bool :=
  stream.contains 0x00

/-- The character `'-'` (00_scope.md R8). PRESUMED: ASCII (log 11). -/
def minusSign : Byte := 0x2D

/-- The character of a decimal digit, `0x30 + digit` (46_codec_print.md R165). PRESUMED: ASCII (log 11). -/
def digitChar (d : Fin 10) : Byte :=
  0x30 + BitVec.ofNat 8 d.val

/-- The magnitude of the PUTI operand, read as unsigned: `trunc_32(0 - n)` when bit 31 is set, else `n`
(46_codec_print.md R165, R166). -/
def magnitude (n : BitVec 32) : BitVec 32 :=
  if n.msb then 0 - n else n

end Sys2Proof.Machine
end

