-- ==== Sys2Proof/WellFormed.lean ====
section
/-! DEFINITION. Which instructions the spec gives a meaning by their form alone. -/

namespace Sys2Proof

open Sys2Proof.Machine

/-- The form the spec asks of an instruction. CREATE: a legal `config` (R66). GOTO: an address within 7 bits
(R151). DEFCHAR: eight bitmap bytes (R155). PUTS: a terminated string (R163). The selector 0xF is never well
formed (R68). Every other form is. -/
def Instr.wellFormed : Instr → Bool
  | .create config _ _ => legalConfig config
  | .destroy => true
  | .clear => true
  | .home => true
  | .display _ => true
  | .cursor _ => true
  | .blink _ => true
  | .direction _ => true
  | .autoscroll _ => true
  | .goto line col => gotoInRange line col
  | .scroll _ => true
  | .defchar _ stream => bitmapComplete stream
  | .putc _ => true
  | .puts stream => terminated stream
  | .puti _ => true
  | .reserved => false
  | .cmdClear => true
  | .cmdHome => true
  | .cmdEntryMode _ _ => true
  | .cmdDisplayControl _ _ _ => true
  | .cmdDisplayShift _ => true
  | .cmdFunctionSet _ _ _ => true
  | .cmdSetCgram _ => true
  | .cmdSetDdram _ => true
  | .cmdResetByte8 _ _ => true
  | .dataWrite _ => true
  | .busyRead _ _ => true
  | .resetNibble3 => true
  | .resetNibble2 => true
  | .byteHighNibble _ _ => true
  | .byteLowNibble _ _ => true
  | .writeValue _ => true
  | .send _ _ => true
  | .busyWait => true

end Sys2Proof
end

