-- ==== Sys2Proof/Decode.lean ====
section
/-! DEFINITION. The decoder, total on every word of the three formats, and after it the encoder
(30_encoding.md R60, R61, R64, R65; spec/opcode_table.json). -/

namespace Sys2Proof

/-- Where in a sequence a bus frame stands. The frame's bits alone do not tell a reset-dance byte `0x18`, `0x1C`
from a display shift (30_encoding.md R65, R68); the sequencer's position does (log 10). -/
inductive BusPhase where
  /-- Among the three transfers of the 8-bit reset dance (41_init_sequence.md R104). -/
  | resetDance
  /-- Anywhere else. -/
  | ordinary
deriving DecidableEq, Repr

/-- Where in a sequence a nibble frame stands; the bits alone do not tell (log 10). -/
inductive NibblePhase where
  /-- Among the four lone nibbles of the 4-bit reset dance (41_init_sequence.md R103). -/
  | resetDance
  /-- The first transfer of a `Send` (42_bus_transmitter.md R117). -/
  | high
  /-- The second transfer of a `Send`. -/
  | low
deriving DecidableEq, Repr

/-- An encoded row of the opcode table: a request word with its stream, a bus frame or a nibble frame. -/
inductive Encoded where
  | req (word : ReqWord) (stream : List Byte)
  | bus (phase : BusPhase) (word : BusWord)
  | nibble (phase : NibblePhase) (word : NibbleWord)
deriving DecidableEq, Repr

/-- Why a frame is no row of the opcode table. -/
inductive DecodeError where
  /-- A read of the data register, `RS = 1`, `RW = 1`: never emitted (30_encoding.md R68). -/
  | dataRead
  /-- A command byte outside the patterns of 30_encoding.md R65. -/
  | notEmitted (value : Byte)
  /-- A nibble frame with `RW = 1`: every nibble transfer is a write (30_encoding.md R64). -/
  | nibbleRead
  /-- A lone nibble of the reset dance other than 0x3 or 0x2 with `RS = 0` (41_init_sequence.md R103). -/
  | notDanceNibble (rs : Bool) (value : BitVec 4)
deriving DecidableEq, Repr

/-- The field `op`, bits 51:48 (30_encoding.md R60). -/
def reqOp (w : ReqWord) : BitVec 4 := w.extractLsb' 48 4

/-- The field `a`, bits 47:40. -/
def reqA (w : ReqWord) : Byte := w.extractLsb' 40 8

/-- The field `b`, bits 39:32. -/
def reqB (w : ReqWord) : Byte := w.extractLsb' 32 8

/-- The field `n`, bits 31:0. -/
def reqN (w : ReqWord) : BitVec 32 := w.extractLsb' 0 32

/-- The request a word selects; a field an operation does not name is ignored (30_encoding.md R60, R61). -/
def decodeRequest (w : ReqWord) (stream : List Byte) : Instr :=
  match (reqOp w).toNat with
  | 0x0 => .create (reqA w) ((reqB w).getLsbD 0) ((reqB w).getLsbD 1)
  | 0x1 => .destroy
  | 0x2 => .clear
  | 0x3 => .home
  | 0x4 => .display ((reqA w).getLsbD 0)
  | 0x5 => .cursor ((reqA w).getLsbD 0)
  | 0x6 => .blink ((reqA w).getLsbD 0)
  | 0x7 => .direction ((reqA w).getLsbD 0)
  | 0x8 => .autoscroll ((reqA w).getLsbD 0)
  | 0x9 => .goto ((reqA w).extractLsb' 0 2) (reqB w)
  | 0xA => .scroll ((reqA w).getLsbD 0)
  | 0xB => .defchar (reqA w) stream
  | 0xC => .putc (reqA w)
  | 0xD => .puts stream
  | 0xE => .puti (reqN w)
  | _ => .reserved

/-- The command byte of a frame with `RS = 0`, `RW = 0`, by its highest set bit (30_encoding.md R65). -/
def decodeCommand (v : Byte) : Except DecodeError Instr :=
  if v.getLsbD 7 then .ok (.cmdSetDdram (v.extractLsb' 0 7))
  else if v.getLsbD 6 then
    if v.extractLsb' 0 3 = 0 then .ok (.cmdSetCgram (v.extractLsb' 3 3)) else .error (.notEmitted v)
  else if v.getLsbD 5 then
    if v.extractLsb' 0 2 = 0 then .ok (.cmdFunctionSet (v.getLsbD 4) (v.getLsbD 3) (v.getLsbD 2))
    else .error (.notEmitted v)
  else if v.getLsbD 4 then
    if v.getLsbD 3 && v.extractLsb' 0 2 == 0 then .ok (.cmdDisplayShift (v.getLsbD 2))
    else .error (.notEmitted v)
  else if v.getLsbD 3 then .ok (.cmdDisplayControl (v.getLsbD 2) (v.getLsbD 1) (v.getLsbD 0))
  else if v.getLsbD 2 then .ok (.cmdEntryMode (v.getLsbD 1) (v.getLsbD 0))
  else if v = 0x02 then .ok .cmdHome
  else if v = 0x01 then .ok .cmdClear
  else .error (.notEmitted v)

/-- A command byte of the 8-bit reset dance: `000 DL N F 00` with `DL = 1` (30_encoding.md R65). Under
`INIT8_OR_OPCODE` the dance sends function-set bytes, which read as such. -/
def decodeDanceCommand (v : Byte) : Except DecodeError Instr :=
  if v.extractLsb' 4 4 = 0x1 ∧ v.extractLsb' 0 2 = 0 then
    .ok (.cmdResetByte8 (v.getLsbD 3) (v.getLsbD 2))
  else decodeCommand v

/-- A bus frame `RS RW DB7 .. DB0` (30_encoding.md R64). -/
def decodeBus (phase : BusPhase) (w : BusWord) : Except DecodeError Instr :=
  let v : Byte := w.extractLsb' 0 8
  match w.getLsbD 9, w.getLsbD 8 with
  | true, true => .error .dataRead
  | true, false => .ok (.dataWrite v)
  | false, true => .ok (.busyRead (v.getLsbD 7) (v.extractLsb' 0 7))
  | false, false =>
    match phase with
    | .resetDance => decodeDanceCommand v
    | .ordinary => decodeCommand v

/-- A nibble frame `RS RW D3 .. D0` (30_encoding.md R64; 41_init_sequence.md R103). -/
def decodeNibble (phase : NibblePhase) (w : NibbleWord) : Except DecodeError Instr :=
  let v : BitVec 4 := w.extractLsb' 0 4
  let rs := w.getLsbD 5
  if w.getLsbD 4 then .error .nibbleRead
  else
    match phase with
    | .high => .ok (.byteHighNibble rs v)
    | .low => .ok (.byteLowNibble rs v)
    | .resetDance =>
      if rs = false ∧ v = 0x3 then .ok .resetNibble3
      else if rs = false ∧ v = 0x2 then .ok .resetNibble2
      else .error (.notDanceNibble rs v)

/-- The decoder. Every request word decodes, since the selector 0xF is the row RESERVED. -/
def decode : Encoded → Except DecodeError Instr
  | .req w stream => .ok (decodeRequest w stream)
  | .bus phase w => decodeBus phase w
  | .nibble phase w => decodeNibble phase w

/-- The stream a request word of the opcode table comes with when nothing is said about it: eight zero bytes,
a complete bitmap and an empty string. -/
def zeroStream : List Byte := [0, 0, 0, 0, 0, 0, 0, 0]

/-- A decoded instruction, without the reason of a rejection. -/
def decoded (e : Encoded) : Option Instr :=
  match decode e with
  | .ok i => some i
  | .error _ => none

/-- A bus frame read without knowing its place: as an ordinary frame, and as a reset-dance byte where that is
the only reading (log 10). -/
def decodeBusAnywhere (w : BusWord) : Option Instr :=
  match decoded (.bus .ordinary w) with
  | some i => some i
  | none => decoded (.bus .resetDance w)

/-- A nibble frame read without knowing its place: as a lone nibble of the reset dance where it can be one,
else as a high nibble (log 10). -/
def decodeNibbleAnywhere (w : NibbleWord) : Option Instr :=
  match decoded (.nibble .resetDance w) with
  | some i => some i
  | none => decoded (.nibble .high w)

/-- The instruction of a table word: 56 bits hold a 52-bit request word, 16 bits a 10-bit bus frame, 8 bits a
6-bit nibble frame; the internal procedures have no word (log 23). -/
def decodeTableWord (nbits w : Nat) : Option Instr :=
  if nbits = 0 then none
  else if nbits ≤ 8 then decodeNibbleAnywhere (BitVec.ofNat 6 w)
  else if nbits ≤ 16 then decodeBusAnywhere (BitVec.ofNat 10 w)
  else decoded (.req (BitVec.ofNat 52 w) zeroStream)

/-- A request word from its four fields (30_encoding.md R60). -/
def reqWord (op : BitVec 4) (a b : Byte) (n : BitVec 32) : ReqWord :=
  op ++ a ++ b ++ n

/-- A one-bit operand as a byte field: bit 0, the other bits 0. -/
def flagField (s : Bool) : Byte := if s then 1 else 0

/-- A bus frame from RS, RW and the byte (30_encoding.md R64). -/
def busWord (rs rw : Bool) (v : Byte) : BusWord :=
  BitVec.ofBool rs ++ BitVec.ofBool rw ++ v

/-- A nibble frame from RS and the nibble; RW is 0. -/
def nibbleWord (rs : Bool) (v : BitVec 4) : NibbleWord :=
  BitVec.ofBool rs ++ 0#1 ++ v

/-- A command frame, `RS = 0`, `RW = 0`. -/
def commandFrame (v : Byte) : Encoded := .bus .ordinary (busWord false false v)

/-- The encoder: the word of each row with an encoding, none for the internal procedures. Fields a row does
not name are 0. -/
def encode : Instr → Option Encoded
  | .create config c d => some (.req (reqWord 0x0 config (flagField c ||| (flagField d <<< 1)) 0) [])
  | .destroy => some (.req (reqWord 0x1 0 0 0) [])
  | .clear => some (.req (reqWord 0x2 0 0 0) [])
  | .home => some (.req (reqWord 0x3 0 0 0) [])
  | .display s => some (.req (reqWord 0x4 (flagField s) 0 0) [])
  | .cursor s => some (.req (reqWord 0x5 (flagField s) 0 0) [])
  | .blink s => some (.req (reqWord 0x6 (flagField s) 0 0) [])
  | .direction d => some (.req (reqWord 0x7 (flagField d) 0 0) [])
  | .autoscroll s => some (.req (reqWord 0x8 (flagField s) 0 0) [])
  | .goto line col => some (.req (reqWord 0x9 (0#6 ++ line) col 0) [])
  | .scroll d => some (.req (reqWord 0xA (flagField d) 0 0) [])
  | .defchar idx stream => some (.req (reqWord 0xB idx 0 0) stream)
  | .putc c => some (.req (reqWord 0xC c 0 0) [])
  | .puts stream => some (.req (reqWord 0xD 0 0 0) stream)
  | .puti n => some (.req (reqWord 0xE 0 0 n) [])
  | .reserved => some (.req (reqWord 0xF 0 0 0) [])
  | .cmdClear => some (commandFrame 0b00000001#8)
  | .cmdHome => some (commandFrame 0b00000010#8)
  | .cmdEntryMode i s => some (commandFrame (0b000001#6 ++ BitVec.ofBool i ++ BitVec.ofBool s))
  | .cmdDisplayControl d c b =>
    some (commandFrame (0b00001#5 ++ BitVec.ofBool d ++ BitVec.ofBool c ++ BitVec.ofBool b))
  | .cmdDisplayShift r => some (commandFrame (0b00011#5 ++ BitVec.ofBool r ++ 0b00#2))
  | .cmdFunctionSet l n f =>
    some (commandFrame (0b001#3 ++ BitVec.ofBool l ++ BitVec.ofBool n ++ BitVec.ofBool f ++ 0b00#2))
  | .cmdSetCgram i => some (commandFrame (0b01#2 ++ i ++ 0b000#3))
  | .cmdSetDdram a => some (commandFrame (0b1#1 ++ a))
  | .cmdResetByte8 n f =>
    some (.bus .resetDance
      (busWord false false (0b0001#4 ++ BitVec.ofBool n ++ BitVec.ofBool f ++ 0b00#2)))
  | .dataWrite d => some (.bus .ordinary (busWord true false d))
  | .busyRead b x => some (.bus .ordinary (busWord false true (BitVec.ofBool b ++ x)))
  | .resetNibble3 => some (.nibble .resetDance (nibbleWord false 0x3))
  | .resetNibble2 => some (.nibble .resetDance (nibbleWord false 0x2))
  | .byteHighNibble rs h => some (.nibble .high (nibbleWord rs h))
  | .byteLowNibble rs l => some (.nibble .low (nibbleWord rs l))
  | .writeValue _ => none
  | .send _ _ => none
  | .busyWait => none

end Sys2Proof
end

