-- ==== Sys2Proof/Machine/Flags.lean ====
section
/-! DEFINITION. The flag bits of `control` and `mode` (10_state.md R14, R15) and the merge of one flag
(44_codec_commands.md R139). LCDENC has no condition codes (R23). -/

namespace Sys2Proof.Machine

/-- `DISPLAY_CONTROL`, the opcode bit of `control` (10_state.md R14; 93 G1). PRESUMED (log 11). -/
def displayControl : Byte := 0x08

/-- `DISPLAY_ON` (10_state.md R14; 93 G1). PRESUMED (log 11). -/
def displayOn : Byte := 0x04

/-- `CURSOR_ON` (10_state.md R14; 93 G1). PRESUMED (log 11). -/
def cursorOn : Byte := 0x02

/-- `BLINK_ON` (10_state.md R14). -/
def blinkOn : Byte := 0x01

/-- `ENTRY_MODE`, the opcode bit of `mode` (10_state.md R15; 93 G2). PRESUMED (log 11). -/
def entryMode : Byte := 0x04

/-- `LEFT_TO_RIGHT` (10_state.md R15; 93 G2). PRESUMED (log 11). -/
def leftToRight : Byte := 0x02

/-- `AUTOSCROLL_ON` (10_state.md R15; 93 G2). PRESUMED (log 11). -/
def autoscrollOn : Byte := 0x01

/-- `control` after CREATE: display on, cursor and blink off (41_init_sequence.md R106). -/
def controlAfterCreate : Byte := displayControl ||| displayOn

/-- `mode` after CREATE: left to right, autoscroll off (41_init_sequence.md R108). -/
def modeAfterCreate : Byte := entryMode ||| leftToRight

/-- `(r & ~BIT) | (s ? BIT : 0)`: one flag of a register replaced, every other bit kept
(44_codec_commands.md R139). -/
def mergeFlag (r bit : Byte) (s : Bool) : Byte :=
  (r &&& ~~~bit) ||| (if s then bit else 0)

/-- A display-control byte from its three flags: `0000 1 D C B` (30_encoding.md R65). -/
def displayControlByte (on cursor blink : Bool) : Byte :=
  displayControl ||| (if on then displayOn else 0) ||| (if cursor then cursorOn else 0)
    ||| (if blink then blinkOn else 0)

/-- An entry-mode byte from its two flags: `0000 01 ID S` (30_encoding.md R65). -/
def entryModeByte (ltr shift : Bool) : Byte :=
  entryMode ||| (if ltr then leftToRight else 0) ||| (if shift then autoscrollOn else 0)

/-- The legal values of `control`, `0x08` .. `0x0F` (10_state.md R14). -/
def legalControl (r : Byte) : Bool :=
  r &&& 0xF8 == displayControl

/-- The legal values of `mode`, `0x04` .. `0x07` (10_state.md R15). -/
def legalMode (r : Byte) : Bool :=
  r &&& 0xFC == entryMode

end Sys2Proof.Machine
end

