-- ==== Sys2Proof/Machine/State.lean ====
section
/-! DEFINITION. The state of one LCDENC (10_state.md), the events of its pin trace (00_scope.md R6), the work
items of its sequencer (70_reset_and_hazards.md R216), the reasons to stop, and the state after reset (R30). -/

namespace Sys2Proof.Machine

/-- The direction of a line (60_exceptions.md R187). -/
inductive Dir where
  | input
  | output
deriving DecidableEq, Repr

/-- The lines LCDENC drives: RS, RW, EN and the data lines (10_state.md R19). -/
inductive Line where
  | rs
  | rw
  | en
  | d (i : Fin 8)
deriving DecidableEq, Repr

/-- One control line: its output latch and its direction (10_state.md R21). -/
structure Pin where
  level : Bool
  dir   : Dir
deriving DecidableEq, Repr

/-- The hidden state of the pins (10_state.md R21): the three control lines, the latches of the data lines
(bit `i` is `D[i]`) and their direction bits (1 = OUT). With `W = 4` only `D[0]` .. `D[3]` are lines. -/
structure Pins where
  rs      : Pin
  rw      : Pin
  en      : Pin
  data    : BitVec 8
  dataOut : BitVec 8
deriving DecidableEq, Repr

/-- One event of the pin trace (00_scope.md R6). -/
inductive Event where
  /-- `PinSet(l, v)` -/
  | set (l : Line) (v : Bool)
  /-- `PinGet(l)` answered `v` -/
  | get (l : Line) (v : Bool)
  /-- `PinDir(l, d)` -/
  | dir (l : Line) (d : Dir)
  /-- `Wait(t)`, at least `t` microseconds -/
  | wait (t : Nat)
deriving DecidableEq, Repr

/-- The status of a completed request: `OK = 0`, `NO_DEVICE = 1` (60_exceptions.md R176). -/
inductive Status where
  | ok
  | noDevice
deriving DecidableEq, Repr

/-- The scratch state of PUTI: the running magnitude, the count of filled entries and the digit buffer
(10_state.md R24). -/
structure Scratch where
  m   : BitVec 32
  k   : Nat
  buf : Vector (Fin 10) Config.putiBuf
deriving DecidableEq, Repr

/-- A work item of the sequencer. The list of items still to do is the sequencer position (10_state.md R12). -/
inductive Micro where
  /-- Drive a line. -/
  | pinSet (l : Line) (v : Bool)
  /-- Give a line a direction. -/
  | pinDir (l : Line) (d : Dir)
  /-- Wait at least `t` microseconds. -/
  | wait (t : Nat)
  /-- The poll loop: iterate until the sample is 0 (43_busy_poller.md R127). -/
  | poll
  /-- Store into `control`. -/
  | loadControl (v : Byte)
  /-- Store into `mode`. -/
  | loadMode (v : Byte)
  /-- Store the scratch state of PUTI. -/
  | loadScratch (p : Scratch)
  /-- Wait for a stream byte that never comes (93 U6, U7). -/
  | awaitStream
  /-- Report the status; the operation is complete (30_encoding.md R62). -/
  | finish (st : Status)
  /-- Start an internal procedure or a frame of the opcode table by itself. The model's own: no request
  produces it (log 9). -/
  | issue (i : Instr)
deriving DecidableEq, Repr

/-- What the host does next: present a request to this device, or create or destroy another device of the registry.
One execution context does it all, one after the other (60_exceptions.md R190). -/
inductive HostAct where
  /-- Present a request to this device (30_encoding.md R60). -/
  | request (r : Request)
  /-- Create another device, with both its pin lists given or not (40_registry_lifecycle.md R96). -/
  | createOther (listsGiven : Bool)
  /-- Destroy another device (40_registry_lifecycle.md R94). -/
  | destroyOther
deriving DecidableEq, Repr

/-- LCDENC raises no exception and takes no trap (60_exceptions.md R175), so no reason to fault exists. -/
inductive Fault where
deriving DecidableEq, Repr

/-- Why a request, an internal procedure or a frame has no meaning. Each is raised with no event and no state
change visible, and each is safe: the model stops where the spec gives no behaviour. -/
inductive Refusal where
  /-- Raised by `exec` for an instruction without a meaning yet; safe. -/
  | notModelled (mnemonic : String)
  /-- Raised by RESERVED: the selector 0xF has no meaning (30_encoding.md R68; 93 U1); safe. -/
  | reservedOp
  /-- Raised by CREATE: `config` is not one of the eight legal values (R66, R68; 93 U2); safe. -/
  | illegalConfig
  /-- Raised by every request but CREATE and DESTROY on a free device (R63; 93 U3); safe. -/
  | notLive
  /-- Raised by CREATE on a live device (R63, R93; 93 U4); safe. -/
  | alreadyLive
  /-- Raised by GOTO: the address does not fit 7 bits (R151; 93 U5); safe. -/
  | gotoOutOfRange
  /-- Raised by a request while another is in progress (R9; 93 U14); safe. -/
  | notIdle
  /-- Raised by a `PinSet` on a line that is not an output (R185; 93 U9); safe. -/
  | pinSetOnInput (l : Line)
  /-- Raised by a `PinGet` on a line that is not an input (R186; 93 U10); safe. -/
  | pinGetOnOutput (l : Line)
  /-- Raised by BusyWait and busy.read when `BUSY_POLL` is false: there is no poller (R125); safe. -/
  | noBusyPoller
  /-- Raised by a nibble frame when `W` is 8 and by the 8-bit reset byte when `W` is 4 (R64, R103, R104);
  safe. -/
  | wrongWidth
  /-- Raised by a frame whose RS level is not the level RS has, where the frame itself sets no RS
  (R64, R103, R117); safe. -/
  | wrongRs
  /-- Raised by busy.read when RS and RW do not stand as the poll sets them (R126); safe. -/
  | notPolling
deriving DecidableEq, Repr

/-- The state: LCDENC's own, then the environment's inputs, the parameters and the observation. -/
structure State where
  /-- The parameters (00_scope.md R5); written by no instruction. -/
  cfg        : Config
  /-- The device is live (10_state.md R17). -/
  live       : Bool
  /-- `W` (10_state.md R13). -/
  width      : Width
  /-- `control` (10_state.md R14). -/
  control    : Byte
  /-- `mode` (10_state.md R15). -/
  mode       : Byte
  /-- Latches and directions (10_state.md R21). -/
  pins       : Pins
  /-- The sequencer position; empty is `IDLE` (10_state.md R12). -/
  seq        : List Micro
  /-- The status output, valid once an operation completes (60_exceptions.md R176). -/
  status     : Option Status
  /-- The busy-flag sample `b` (10_state.md R23). -/
  busy       : Bool
  /-- PUTI's scratch (10_state.md R24). -/
  scratch    : Scratch
  /-- Environment: how many other devices of the registry are live (40_registry_lifecycle.md R96; log 15). -/
  othersLive : Nat
  /-- Environment: the resets ahead, each the number of events before it, counted from now or from the reset
  before (70_reset_and_hazards.md R195, R205; log 16). -/
  resets     : List Nat
  /-- Environment: what the host will do, in order (20_memory.md R54; log 7, log 15). -/
  port       : List HostAct
  /-- Environment: busy answers already fixed, next first (43_busy_poller.md R129). -/
  answers    : List Bool
  /-- Environment: how many busy answers were taken. -/
  polls      : Nat
  /-- Observation: the events performed since the last reset, newest first (00_scope.md R6). -/
  log        : List Event
  /-- Observation: the traces that a reset ended, newest first, each oldest event first (log 16). -/
  past       : List (List Event)
deriving DecidableEq, Repr

/-- A line that is not driven. DESIGN CHOICE, unsafe (log 1): the spec leaves level and direction open at reset
(10_state.md R30); the level is 0 and the direction input, since LCDENC "drives nothing". -/
def Pin.reset : Pin := ⟨false, .input⟩

/-- All lines at reset (10_state.md R30). DESIGN CHOICE, unsafe (log 1). -/
def Pins.reset : Pins := ⟨.reset, .reset, .reset, 0, 0⟩

/-- PUTI's scratch at reset: the spec gives no value (10_state.md R24). DESIGN CHOICE, unsafe (log 1). -/
def Scratch.reset : Scratch := ⟨0, 0, Vector.replicate Config.putiBuf 0⟩

/-- The state after reset of an LCDENC with the given parameters: `live` is 0 and the sequencer `IDLE`, no event
performed (10_state.md R30, 70_reset_and_hazards.md R195). `control`, `mode`, `W`, the pins, `b` and the
scratch have no value in the spec; the values here are DESIGN CHOICE, unsafe (log 1). -/
def State.resetWith (cfg : Config) : State where
  cfg        := cfg
  live       := false
  width      := .four
  control    := 0
  mode       := 0
  pins       := .reset
  seq        := []
  status     := none
  busy       := false
  scratch    := .reset
  othersLive := 0
  resets     := []
  port       := []
  answers    := []
  polls      := 0
  log        := []
  past       := []

/-- The machine right after reset, with the reference parameters (log 4). -/
def State.reset : State := .resetWith .reference

end Sys2Proof.Machine
end

