-- ==== Sys2Proof/Machine/Ops.lean ====
section
/-! DEFINITION. The shared operations: the four bus primitives (60_exceptions.md R185 to R188), the sequencer that
performs a list of work items, the internal procedures as such lists (42_bus_transmitter.md, 43_busy_poller.md),
and the acceptance of a request (30_encoding.md R62, R63). There is no exception to take and none to return from
(60_exceptions.md R175, R180). -/

namespace Sys2Proof.Machine

/-! ### Lines -/

/-- Bit `i` of an 8-bit value replaced. -/
def setBit (x : BitVec 8) (i : Nat) (b : Bool) : BitVec 8 :=
  if b then x ||| (1#8 <<< i) else x &&& ~~~(1#8 <<< i)

/-- The level of a line's output latch. -/
def Pins.level (p : Pins) : Line → Bool
  | .rs => p.rs.level
  | .rw => p.rw.level
  | .en => p.en.level
  | .d i => p.data.getLsbD i

/-- The direction of a line. -/
def Pins.dir (p : Pins) : Line → Dir
  | .rs => p.rs.dir
  | .rw => p.rw.dir
  | .en => p.en.dir
  | .d i => if p.dataOut.getLsbD i then .output else .input

/-- The pins with one latch replaced. -/
def Pins.setLevel (p : Pins) (l : Line) (v : Bool) : Pins :=
  match l with
  | .rs => { p with rs := { p.rs with level := v } }
  | .rw => { p with rw := { p.rw with level := v } }
  | .en => { p with en := { p.en with level := v } }
  | .d i => { p with data := setBit p.data i v }

/-- The pins with one direction replaced. -/
def Pins.setDir (p : Pins) (l : Line) (d : Dir) : Pins :=
  match l with
  | .rs => { p with rs := { p.rs with dir := d } }
  | .rw => { p with rw := { p.rw with dir := d } }
  | .en => { p with en := { p.en with dir := d } }
  | .d i => { p with dataOut := setBit p.dataOut i (d == .output) }

/-- The data lines `D[0]` .. `D[W-1]`, ascending (10_state.md R19). -/
def dataLines : Width → List (Fin 8)
  | .four => [0, 1, 2, 3]
  | .eight => [0, 1, 2, 3, 4, 5, 6, 7]

/-- `MSB`, the last data line `D[W-1]`, controller pin DB7 in both widths (10_state.md R19). -/
def msbLine : Width → Line
  | .four => .d 3
  | .eight => .d 7

/-- The lines of a device: RS, EN, RW when `BUSY_POLL`, then the data lines (10_state.md R19). -/
def deviceLines (c : Config) (w : Width) : List Line :=
  [.rs, .en] ++ (if c.busyPoll then [.rw] else []) ++ (dataLines w).map .d

/-- Whether a line belongs to the device. -/
def present (c : Config) (w : Width) (l : Line) : Bool :=
  (deviceLines c w).contains l

/-- The level of RS that selects a kind: COMMAND 0, DATA 1 (10_state.md R20). -/
def rsLevel : Kind → Bool
  | .command => false
  | .data => true

/-- `WRITE`, the write level of RW (93 G5). PRESUMED (log 11). -/
def rwWrite : Bool := false

/-- `READ`, the read level of RW (93 G5). PRESUMED (log 11). -/
def rwRead : Bool := true

/-! ### The bus primitives -/

/-- How one work item ends: done; to be done again at the next step (a busy sample, a missing stream byte); or
without a meaning. -/
inductive MicroResult where
  | done (s : State)
  | again (s : State)
  | refused (r : Refusal)
deriving DecidableEq, Repr

/-- Go on when done. -/
def MicroResult.andThen (r : MicroResult) (f : State → MicroResult) : MicroResult :=
  match r with
  | .done s => f s
  | .again s => .again s
  | .refused e => .refused e

/-- The pin trace, oldest event first (00_scope.md R6). -/
def State.trace (s : State) : List Event := s.log.reverse

/-- One event added to the pin trace (00_scope.md R6). -/
def State.emit (s : State) (e : Event) : State :=
  { s with log := e :: s.log }

/-- `PinSet(l, v)`: the latch of an output line; refused on a line that is not an output (60_exceptions.md R185;
93 U9). -/
def pinSet (l : Line) (v : Bool) (s : State) : MicroResult :=
  if s.pins.dir l = .output then
    .done (State.emit { s with pins := s.pins.setLevel l v } (.set l v))
  else .refused (.pinSetOnInput l)

/-- `PinDir(l, d)` (60_exceptions.md R187). -/
def pinDir (l : Line) (d : Dir) (s : State) : MicroResult :=
  .done (State.emit { s with pins := s.pins.setDir l d } (.dir l d))

/-- `Wait(t)`: a marker in the trace, a lower bound on time (60_exceptions.md R188; log 13). -/
def waitFor (t : Nat) (s : State) : MicroResult :=
  .done (s.emit (.wait t))

/-- `b <- PinGet(l)`, answered `a` by the environment; refused on a line that is not an input
(60_exceptions.md R186; 93 U10). -/
def pinGet (l : Line) (a : Bool) (s : State) : MicroResult :=
  if s.pins.dir l = .input then
    .done (State.emit { s with busy := a } (.get l a))
  else .refused (.pinGetOnOutput l)

/-- The `n`-th busy answer from here: those already fixed, then the free value (43_busy_poller.md R129). -/
def State.answerAt (s : State) (n : Nat) : Bool :=
  match s.answers[n]? with
  | some a => a
  | none => Config.busyAnswer (s.polls + n)

/-- The state with `n` busy answers taken. -/
def State.takeAnswers (s : State) (n : Nat) : State :=
  { s with answers := s.answers.drop n, polls := s.polls + n }

/-- `PinSet(EN, 1); Wait(T_EN); PinSet(EN, 0)`, an enable pulse with nothing sampled (43_busy_poller.md R127). -/
def emptyPulse (s : State) : MicroResult :=
  (pinSet .en true s).andThen fun s =>
  (waitFor s.cfg.tEn s).andThen fun s =>
  pinSet .en false s

/-- One iteration of the poll loop with the answer `a`; in 4-bit mode a second pulse that reads nothing
(43_busy_poller.md R127). -/
def pollIteration (a : Bool) (s : State) : MicroResult :=
  (pinSet .en true s).andThen fun s =>
  (waitFor s.cfg.tEn s).andThen fun s =>
  (pinGet (msbLine s.width) a s).andThen fun s =>
  (pinSet .en false s).andThen fun s =>
  match s.width with
  | .four => emptyPulse s
  | .eight => .done s

/-- The poll loop: one iteration with the environment's next answer; again while the sample is 1
(43_busy_poller.md R127, R129). -/
def pollLoop (s : State) : MicroResult :=
  (pollIteration (s.answerAt 0) (s.takeAnswers 1)).andThen fun s =>
  if s.busy then .again s else .done s

/-! ### The sequencer -/

/-- One work item. -/
def runMicro : Micro → State → MicroResult
  | .pinSet l v, s => pinSet l v s
  | .pinDir l d, s => pinDir l d s
  | .wait t, s => waitFor t s
  | .poll, s => pollLoop s
  | .loadControl v, s => .done { s with control := v }
  | .loadMode v, s => .done { s with mode := v }
  | .loadScratch p, s => .done { s with scratch := p }
  | .awaitStream, s => .again s
  | .finish st, s => .done { s with status := some st }
  | .issue _, s => .again s

/-- Perform work items in order, "with no skipping and no going back" (10_state.md R12). At a busy sample and at
a missing stream byte the step ends, and the items still to do stand before those already waiting (log 2). -/
def perform : List Micro → State → Host.Outcome State Fault Refusal
  | [], s => .next s
  | m :: rest, s =>
    match runMicro m s with
    | .done s' => perform rest s'
    | .again s' => .next { s' with seq := m :: rest ++ s'.seq }
    | .refused r => .refused r

/-! ### The internal procedures as work items -/

/-- `WriteValue(v)`: the `W` data lines in ascending order, then the enable pulse (42_bus_transmitter.md R115). -/
def writeItems (c : Config) (w : Width) (v : Nat) : List Micro :=
  (dataLines w).map (fun i => .pinSet (.d i) (v.testBit i))
    ++ [.pinSet .en true, .wait c.tEn, .pinSet .en false]

/-- `BusyWait()` (43_busy_poller.md R130). -/
def busyWaitItems (w : Width) : List Micro :=
  [.pinSet .rs false, .pinSet .rw rwRead, .pinDir (msbLine w) .input, .poll,
    .pinDir (msbLine w) .output, .pinSet .rw rwWrite]

/-- The transfers of one byte: high nibble then low nibble when `W = 4`, the byte when `W = 8`
(20_memory.md R45). -/
def byteItems (c : Config) (w : Width) (v : Byte) : List Micro :=
  match w with
  | .four => writeItems c .four (v.toNat >>> 4) ++ writeItems c .four v.toNat
  | .eight => writeItems c .eight v.toNat

/-- `Send(v, kind)` (42_bus_transmitter.md R117). -/
def sendItems (c : Config) (w : Width) (kind : Kind) (v : Byte) : List Micro :=
  (if c.busyPoll then busyWaitItems w else [])
    ++ [.pinSet .rs (rsLevel kind)]
    ++ byteItems c w v
    ++ (if c.busyPoll then [] else [.wait c.tSend])

/-- Several bytes of one kind, in order (20_memory.md R46). -/
def sendAllItems (c : Config) (w : Width) (kind : Kind) (vs : List Byte) : List Micro :=
  vs.flatMap (sendItems c w kind)

/-! ### Requests -/

/-- A request is accepted only in `IDLE` (30_encoding.md R62; 00_scope.md R9); the status is not valid while it
runs. -/
def accept (run : State → Host.Outcome State Fault Refusal) (s : State) : Host.Outcome State Fault Refusal :=
  match s.seq with
  | [] => run { s with status := none }
  | _ :: _ => .refused .notIdle

/-- A request that is defined on a live device only (30_encoding.md R63). -/
def acceptLive (run : State → Host.Outcome State Fault Refusal) (s : State) :
    Host.Outcome State Fault Refusal :=
  accept (fun s => if s.live then run s else .refused .notLive) s

/-- The work of an operation on a live device, which ends with the status `OK` (30_encoding.md R62). -/
def operate (items : State → List Micro) (s : State) : Host.Outcome State Fault Refusal :=
  acceptLive (fun s => perform (items s ++ [.finish .ok]) s) s

/-- Report a status with no event and nothing else changed (60_exceptions.md R176). -/
def report (st : Status) (s : State) : Host.Outcome State Fault Refusal :=
  .next { s with status := some st }

end Sys2Proof.Machine
end

