-- ==== Sys2Proof/Machine/Address.lean ====
section
/-! DEFINITION. The addressing and shift commands (45_codec_address.md). -/

namespace Sys2Proof.Machine

/-- GOTO: the set-DDRAM-address command of `offset[line] + col`; refused beyond the 7-bit field
(45_codec_address.md R150, R151). -/
def execGoto (line : BitVec 2) (col : Byte) (s : State) : Host.Outcome State Fault Refusal :=
  acceptLive (fun s =>
    if gotoInRange line col then
      perform (sendItems s.cfg s.width .command (setDdramByte (gotoAddress line col)) ++ [.finish .ok]) s
    else .refused .gotoOutOfRange) s

/-- SCROLL: one display-shift command (45_codec_address.md R153). -/
def execScroll (right : Bool) (s : State) : Host.Outcome State Fault Refusal :=
  operate (fun s => sendItems s.cfg s.width .command (displayShiftByte right)) s

/-- The wait for the bitmap bytes of a stream that ended early (93 U6; log 8). -/
def missingBitmapItems (stream : List Byte) : List Micro :=
  if stream.length < 8 then [.awaitStream] else []

/-- DEFCHAR: the set-CGRAM-address command, then the eight bitmap bytes as DATA (45_codec_address.md R155). A
shorter stream never completes (93 U6). -/
def execDefchar (idx : Byte) (stream : List Byte) (s : State) : Host.Outcome State Fault Refusal :=
  operate (fun s =>
    sendItems s.cfg s.width .command (setCgramByte idx)
      ++ sendAllItems s.cfg s.width .data (bitmapBytes stream)
      ++ missingBitmapItems stream) s

end Sys2Proof.Machine
end

