-- ==== Sys2Proof/Machine/Codec.lean ====
section
/-! DEFINITION. The slow commands and the register-merging commands (44_codec_commands.md). -/

namespace Sys2Proof.Machine

/-- The work of CLEAR, also step 6 of the initialization (44_codec_commands.md R136, 41_init_sequence.md R107). -/
def clearItems (c : Config) (w : Width) : List Micro :=
  sendItems c w .command clearCommand ++ [.wait c.tSlow]

/-- The work of HOME (44_codec_commands.md R137). -/
def homeItems (c : Config) (w : Width) : List Micro :=
  sendItems c w .command homeCommand ++ [.wait c.tSlow]

/-- Store a display-control value, then send it (44_codec_commands.md R139; 10_state.md R16). -/
def storeControlItems (c : Config) (w : Width) (v : Byte) : List Micro :=
  .loadControl v :: sendItems c w .command v

/-- Store an entry-mode value, then send it (44_codec_commands.md R139; 10_state.md R16). -/
def storeModeItems (c : Config) (w : Width) (v : Byte) : List Micro :=
  .loadMode v :: sendItems c w .command v

/-- `Merge(control, BIT, s)` (44_codec_commands.md R139). -/
def mergeControl (bit : Byte) (f : Bool) (s : State) : List Micro :=
  storeControlItems s.cfg s.width (mergeFlag s.control bit f)

/-- `Merge(mode, BIT, s)` (44_codec_commands.md R139). -/
def mergeMode (bit : Byte) (f : Bool) (s : State) : List Micro :=
  storeModeItems s.cfg s.width (mergeFlag s.mode bit f)

/-- CLEAR (44_codec_commands.md R136). -/
def execClear (s : State) : Host.Outcome State Fault Refusal :=
  operate (fun s => clearItems s.cfg s.width) s

/-- HOME (44_codec_commands.md R137). -/
def execHome (s : State) : Host.Outcome State Fault Refusal :=
  operate (fun s => homeItems s.cfg s.width) s

/-- DISPLAY (44_codec_commands.md R140). -/
def execDisplay (on : Bool) (s : State) : Host.Outcome State Fault Refusal :=
  operate (mergeControl displayOn on) s

/-- CURSOR (44_codec_commands.md R141). -/
def execCursor (shown : Bool) (s : State) : Host.Outcome State Fault Refusal :=
  operate (mergeControl cursorOn shown) s

/-- BLINK (44_codec_commands.md R142). -/
def execBlink (on : Bool) (s : State) : Host.Outcome State Fault Refusal :=
  operate (mergeControl blinkOn on) s

/-- DIRECTION (44_codec_commands.md R143). -/
def execDirection (ltr : Bool) (s : State) : Host.Outcome State Fault Refusal :=
  operate (mergeMode leftToRight ltr) s

/-- AUTOSCROLL (44_codec_commands.md R144). -/
def execAutoscroll (on : Bool) (s : State) : Host.Outcome State Fault Refusal :=
  operate (mergeMode autoscrollOn on) s

end Sys2Proof.Machine
end

