-- ==== Sys2Proof/Machine/Lifecycle.lean ====
section
/-! DEFINITION. The device lifecycle (40_registry_lifecycle.md), the initialization sequence (41_init_sequence.md)
and the reserved selector (30_encoding.md R68). -/

namespace Sys2Proof.Machine

/-- `k`, how many devices of the registry are live, this one among them (40_registry_lifecycle.md R96). -/
def liveDevices (s : State) : Nat :=
  s.othersLive + (if s.live then 1 else 0)

/-- A slot is free: `k < MAX_DEVICES` (40_registry_lifecycle.md R96). -/
def slotFree (s : State) : Bool :=
  decide (liveDevices s < s.cfg.maxDevices)

/-- The host creates another device: it takes a slot if and only if one is free and both pin lists are given. "They
share nothing but the registry", so nothing else of this device changes (40_registry_lifecycle.md R96;
60_exceptions.md R190; log 15). -/
def createOther (listsGiven : Bool) (s : State) : State :=
  if listsGiven && slotFree s then { s with othersLive := s.othersLive + 1 } else s

/-- The host destroys another device: its slot is free again; with no other device live it is a no-op
(40_registry_lifecycle.md R94, R96; log 15). -/
def destroyOther (s : State) : State :=
  { s with othersLive := s.othersLive - 1 }

/-- `ConfigurePins()`: every line an output, control lines first, then RW to its write level
(40_registry_lifecycle.md R91; log 14). -/
def configurePinsItems (c : Config) (w : Width) : List Micro :=
  (deviceLines c w).map (fun l => .pinDir l .output)
    ++ (if c.busyPoll then [.pinSet .rw rwWrite] else [])

/-- Step 3 with `W = 4`: the lone nibbles 3, 3, 3, 2 with their waits (41_init_sequence.md R103). -/
def nibbleDanceItems (c : Config) : List Micro :=
  writeItems c .four 0x3 ++ [.wait c.tInit1]
    ++ writeItems c .four 0x3 ++ [.wait c.tInit2]
    ++ writeItems c .four 0x3 ++ [.wait c.tInit3]
    ++ writeItems c .four 0x2

/-- One byte of the 8-bit reset dance, by `Send` or by `WriteValue` as `INIT8_VIA` says
(41_init_sequence.md R104, D9). -/
def danceByteItems (c : Config) (config : Byte) : List Micro :=
  match c.init8Via with
  | .send => sendItems c .eight .command (danceByte c.init8OrOpcode config)
  | .writeValue => writeItems c .eight (danceByte c.init8OrOpcode config).toNat

/-- Step 3 with `W = 8`: the byte three times with its waits (41_init_sequence.md R104). -/
def byteDanceItems (c : Config) (config : Byte) : List Micro :=
  danceByteItems c config ++ [.wait c.tInit1]
    ++ danceByteItems c config ++ [.wait c.tInit2]
    ++ danceByteItems c config ++ [.wait c.tInit3]

/-- The reset dance of the width (41_init_sequence.md R110). -/
def danceItems (c : Config) (w : Width) (config : Byte) : List Micro :=
  match w with
  | .four => nibbleDanceItems c
  | .eight => byteDanceItems c config

/-- `INIT(a)`, steps 1 to 7 (41_init_sequence.md R110). -/
def initItems (c : Config) (w : Width) (config : Byte) : List Micro :=
  [.wait c.tPowerup, .pinSet .rs false, .pinSet .en false]
    ++ danceItems c w config
    ++ sendItems c w .command (functionSetByte config)
    ++ storeControlItems c w controlAfterCreate
    ++ clearItems c w
    ++ storeModeItems c w modeAfterCreate

/-- Claim the slot: `live <- 1`, `W` from `config` (40_registry_lifecycle.md R90). -/
def claim (config : Byte) (s : State) : State :=
  { s with live := true, width := configWidth config }

/-- The claimed device's pins, its initialization and the status (40_registry_lifecycle.md R90). -/
def bringUp (config : Byte) (s : State) : Host.Outcome State Fault Refusal :=
  perform (configurePinsItems s.cfg s.width ++ initItems s.cfg s.width config ++ [.finish .ok]) s

/-- CREATE (40_registry_lifecycle.md R90): refused on a live device (R63) and for an illegal `config` (R68);
`NO_DEVICE` when a pin list is missing or no slot is free (R92); else claim and initialize. That the refusals
come before `NO_DEVICE` is DEDUCED (log 5). -/
def execCreate (config : Byte) (controlGiven dataGiven : Bool) (s : State) :
    Host.Outcome State Fault Refusal :=
  accept (fun s =>
    if s.live then .refused .alreadyLive
    else if !legalConfig config then .refused .illegalConfig
    else if !controlGiven || !dataGiven || !slotFree s then report .noDevice s
    else bringUp config (claim config s)) s

/-- DESTROY: `live` to 0 and nothing else; a no-op on a free device; the status is `OK`
(40_registry_lifecycle.md R94; log 6). -/
def execDestroy (s : State) : Host.Outcome State Fault Refusal :=
  accept (fun s => report .ok { s with live := false }) s

/-- RESERVED: the selector 0xF has no meaning and is refused (30_encoding.md R68; 93 U1). -/
def execReserved (_s : State) : Host.Outcome State Fault Refusal :=
  .refused .reservedOp

end Sys2Proof.Machine
end

