-- ==== Sys2Proof/Machine/Frames.lean ====
section
/-! DEFINITION. The frames of the opcode table by themselves (30_encoding.md R64, R65). "Every byte goes out
through `Send`" (44_codec_commands.md R135), so a byte frame is one `Send`; a nibble frame is one `WriteValue`.
They run at the sequencer's present position (log 9). -/

namespace Sys2Proof.Machine

/-- A command byte frame: `Send(v, COMMAND)` (42_bus_transmitter.md R117). -/
def emitCommand (v : Byte) (s : State) : Host.Outcome State Fault Refusal :=
  perform (sendItems s.cfg s.width .command v) s

/-- `cmd.clear` (44_codec_commands.md R136). -/
def execCmdClear (s : State) : Host.Outcome State Fault Refusal :=
  emitCommand clearCommand s

/-- `cmd.home` (44_codec_commands.md R137). -/
def execCmdHome (s : State) : Host.Outcome State Fault Refusal :=
  emitCommand homeCommand s

/-- `cmd.entry_mode` (30_encoding.md R65). -/
def execCmdEntryMode (ltr shift : Bool) (s : State) : Host.Outcome State Fault Refusal :=
  emitCommand (entryModeByte ltr shift) s

/-- `cmd.display_control` (30_encoding.md R65). -/
def execCmdDisplayControl (on cursor blink : Bool) (s : State) : Host.Outcome State Fault Refusal :=
  emitCommand (displayControlByte on cursor blink) s

/-- `cmd.display_shift` (45_codec_address.md R153). -/
def execCmdDisplayShift (right : Bool) (s : State) : Host.Outcome State Fault Refusal :=
  emitCommand (displayShiftByte right) s

/-- `cmd.function_set` (41_init_sequence.md R105). -/
def execCmdFunctionSet (dl n f : Bool) (s : State) : Host.Outcome State Fault Refusal :=
  emitCommand (functionSetByte (configOf dl n f)) s

/-- `cmd.set_cgram` (45_codec_address.md R155). -/
def execCmdSetCgram (i : BitVec 3) (s : State) : Host.Outcome State Fault Refusal :=
  emitCommand (setCgramByte (i.setWidth 8)) s

/-- `cmd.set_ddram` (45_codec_address.md R150). -/
def execCmdSetDdram (a : BitVec 7) (s : State) : Host.Outcome State Fault Refusal :=
  emitCommand (setDdramByte a.toNat) s

/-- `cmd.reset_byte8`: one byte of the 8-bit reset dance, which belongs to `W = 8`; by `WriteValue` it takes RS
as step 2 left it, 0 (41_init_sequence.md R102, R104). DESIGN CHOICE, unsafe (log 27): R65 and R104 speak of CREATE's
trace and do not say what the frame does by itself when a parameter is not at its default; it goes out as the dance's
byte does, by the primitive of `INIT8_VIA`, and under `INIT8_OR_OPCODE` the byte is `config | 0x20`, not the frame's
own. -/
def execCmdResetByte8 (n f : Bool) (s : State) : Host.Outcome State Fault Refusal :=
  match s.width with
  | .four => .refused .wrongWidth
  | .eight =>
    if s.cfg.init8Via = .writeValue ∧ s.pins.rs.level = true then .refused .wrongRs
    else perform (danceByteItems s.cfg (configOf true n f)) s

/-- `data.write`: `Send(d, DATA)` (42_bus_transmitter.md R117). -/
def execDataWrite (d : Byte) (s : State) : Host.Outcome State Fault Refusal :=
  perform (sendItems s.cfg s.width .data d) s

/-- An outcome of one work item with nothing after it. -/
def MicroResult.outcome : MicroResult → Host.Outcome State Fault Refusal
  | .done s => .next s
  | .again s => .next s
  | .refused r => .refused r

/-- `busy.read`: one iteration of the poll loop in which the controller drives `b` on DB7; the other levels are
not sampled. RS and RW stand as the poll's entry sets them (43_busy_poller.md R126, R127; log 25). -/
def execBusyRead (b : Bool) (_x : BitVec 7) (s : State) : Host.Outcome State Fault Refusal :=
  if s.cfg.busyPoll then
    if s.pins.rs.level = false ∧ s.pins.rw.level = rwRead then (pollIteration b s).outcome
    else .refused .notPolling
  else .refused .noBusyPoller

/-- A nibble frame: one `WriteValue` of four bits with `W = 4`, RS standing at the frame's level
(42_bus_transmitter.md R115, R117). -/
def emitNibble (rs : Bool) (v : BitVec 4) (s : State) : Host.Outcome State Fault Refusal :=
  match s.width with
  | .four => if s.pins.rs.level = rs then perform (writeItems s.cfg .four v.toNat) s else .refused .wrongRs
  | .eight => .refused .wrongWidth

/-- `reset.nibble3`: `WriteValue(0x3)` with RS 0 (41_init_sequence.md R103). -/
def execResetNibble3 (s : State) : Host.Outcome State Fault Refusal :=
  emitNibble false 0x3 s

/-- `reset.nibble2`: `WriteValue(0x2)` with RS 0 (41_init_sequence.md R103). -/
def execResetNibble2 (s : State) : Host.Outcome State Fault Refusal :=
  emitNibble false 0x2 s

/-- `byte.high_nibble`: the first transfer of a `Send`, which sets RS (42_bus_transmitter.md R117). -/
def execByteHighNibble (rs : Bool) (h : BitVec 4) (s : State) : Host.Outcome State Fault Refusal :=
  match s.width with
  | .four => perform (.pinSet .rs rs :: writeItems s.cfg .four h.toNat) s
  | .eight => .refused .wrongWidth

/-- `byte.low_nibble`: the second transfer of a `Send`, "same RS" (42_bus_transmitter.md R117). -/
def execByteLowNibble (rs : Bool) (l : BitVec 4) (s : State) : Host.Outcome State Fault Refusal :=
  emitNibble rs l s

end Sys2Proof.Machine
end

