-- ==== Sys2Proof/Machine/Print.lean ====
section
/-! DEFINITION. The print operations (46_codec_print.md). -/

namespace Sys2Proof.Machine

/-- PUTC: one DATA byte, as it is (46_codec_print.md R160). -/
def execPutc (c : Byte) (s : State) : Host.Outcome State Fault Refusal :=
  operate (fun s => sendItems s.cfg s.width .data c) s

/-- The wait for the terminator of a stream that has none (93 U7; log 8). -/
def missingTerminatorItems (stream : List Byte) : List Micro :=
  if terminated stream then [] else [.awaitStream]

/-- PUTS: each byte before the first `0x00` as DATA, in order; the terminator is not sent
(46_codec_print.md R162, R163). A stream with no `0x00` never completes (93 U7). -/
def execPuts (stream : List Byte) (s : State) : Host.Outcome State Fault Refusal :=
  operate (fun s =>
    sendAllItems s.cfg s.width .data (stringBytes stream) ++ missingTerminatorItems stream) s

/-- One turn of PUTI's digit loop: `buf[k] <- m mod 10; m <- m div 10; k <- k + 1` (46_codec_print.md R165). -/
def digitStep (p : Scratch) : Scratch where
  m   := p.m / 10
  k   := p.k + 1
  buf := p.buf.setIfInBounds p.k (Fin.ofNat 10 p.m.toNat)

/-- `repeat digitStep until m = 0`, at most `fuel` turns. Ten turns are enough for 32 bits
(46_codec_print.md R167). -/
def digitLoop : Nat → Scratch → Scratch
  | 0, p => p
  | fuel + 1, p =>
    if (digitStep p).m = 0 then digitStep p else digitLoop fuel (digitStep p)

/-- The scratch state after the digits of a magnitude are computed; entries not filled keep what they held
(10_state.md R24). -/
def convert (m : BitVec 32) (p : Scratch) : Scratch :=
  digitLoop Config.putiBuf { p with m := m, k := 0 }

/-- The digit characters `buf[k-1] .. buf[0]`, most significant first (46_codec_print.md R165). -/
def digitChars (p : Scratch) : List Byte :=
  (List.range p.k).map fun j => digitChar (p.buf.toList.getD (p.k - 1 - j) 0)

/-- The work of PUTI: the sign, the digit loops on the scratch state, the digits as DATA
(46_codec_print.md R165; log 19). -/
def putiItems (n : BitVec 32) (s : State) : List Micro :=
  (if n.msb then sendItems s.cfg s.width .data minusSign else [])
    ++ [.loadScratch (convert (magnitude n) s.scratch)]
    ++ sendAllItems s.cfg s.width .data (digitChars (convert (magnitude n) s.scratch))

/-- PUTI (46_codec_print.md R165). -/
def execPuti (n : BitVec 32) (s : State) : Host.Outcome State Fault Refusal :=
  operate (putiItems n) s

end Sys2Proof.Machine
end

