-- ==== Sys2Proof/Machine/Transmitter.lean ====
section
/-! DEFINITION. The internal procedures by themselves (42_bus_transmitter.md, 43_busy_poller.md). They run at the
sequencer's present position: what waits in `seq` waits on (log 9). -/

namespace Sys2Proof.Machine

/-- `WriteValue(v)` (42_bus_transmitter.md R115). -/
def execWriteValue (v : Nat) (s : State) : Host.Outcome State Fault Refusal :=
  perform (writeItems s.cfg s.width v) s

/-- `Send(v, kind)` (42_bus_transmitter.md R117). -/
def execSend (v : Byte) (kind : Kind) (s : State) : Host.Outcome State Fault Refusal :=
  perform (sendItems s.cfg s.width kind v) s

/-- `BusyWait()`, which exists exactly when `BUSY_POLL` (43_busy_poller.md R125, R130). -/
def execBusyWait (s : State) : Host.Outcome State Fault Refusal :=
  if s.cfg.busyPoll then perform (busyWaitItems s.width) s else .refused .noBusyPoller

end Sys2Proof.Machine
end

