-- ==== Sys2Proof/Machine/Dispatch.lean ====
section
/-! DEFINITION. The dispatch on an instruction (30_encoding.md R62): one arm per row of the opcode table. -/

namespace Sys2Proof.Machine

/-- The meaning of each instruction. -/
def exec (i : Instr) (s : State) : Host.Outcome State Fault Refusal :=
  match i with
  -- requests (30_encoding.md R61)
  | .create config c d => Sys2Proof.Machine.execCreate config c d s
  | .destroy => Sys2Proof.Machine.execDestroy s
  | .clear => Sys2Proof.Machine.execClear s
  | .home => Sys2Proof.Machine.execHome s
  | .display b => Sys2Proof.Machine.execDisplay b s
  | .cursor b => Sys2Proof.Machine.execCursor b s
  | .blink b => Sys2Proof.Machine.execBlink b s
  | .direction b => Sys2Proof.Machine.execDirection b s
  | .autoscroll b => Sys2Proof.Machine.execAutoscroll b s
  | .goto line col => Sys2Proof.Machine.execGoto line col s
  | .scroll b => Sys2Proof.Machine.execScroll b s
  | .defchar idx stream => Sys2Proof.Machine.execDefchar idx stream s
  | .putc c => Sys2Proof.Machine.execPutc c s
  | .puts stream => Sys2Proof.Machine.execPuts stream s
  | .puti n => Sys2Proof.Machine.execPuti n s
  | .reserved => Sys2Proof.Machine.execReserved s
  -- bus frames (30_encoding.md R65)
  | .cmdClear => Sys2Proof.Machine.execCmdClear s
  | .cmdHome => Sys2Proof.Machine.execCmdHome s
  | .cmdEntryMode l a => Sys2Proof.Machine.execCmdEntryMode l a s
  | .cmdDisplayControl d c b => Sys2Proof.Machine.execCmdDisplayControl d c b s
  | .cmdDisplayShift r => Sys2Proof.Machine.execCmdDisplayShift r s
  | .cmdFunctionSet l n f => Sys2Proof.Machine.execCmdFunctionSet l n f s
  | .cmdSetCgram a => Sys2Proof.Machine.execCmdSetCgram a s
  | .cmdSetDdram a => Sys2Proof.Machine.execCmdSetDdram a s
  | .cmdResetByte8 n f => Sys2Proof.Machine.execCmdResetByte8 n f s
  | .dataWrite d => Sys2Proof.Machine.execDataWrite d s
  | .busyRead b x => Sys2Proof.Machine.execBusyRead b x s
  -- nibble frames (30_encoding.md R64)
  | .resetNibble3 => Sys2Proof.Machine.execResetNibble3 s
  | .resetNibble2 => Sys2Proof.Machine.execResetNibble2 s
  | .byteHighNibble rs h => Sys2Proof.Machine.execByteHighNibble rs h s
  | .byteLowNibble rs l => Sys2Proof.Machine.execByteLowNibble rs l s
  -- internal procedures (30_encoding.md R70)
  | .writeValue v => Sys2Proof.Machine.execWriteValue v s
  | .send v k => Sys2Proof.Machine.execSend v k s
  | .busyWait => Sys2Proof.Machine.execBusyWait s

end Sys2Proof.Machine
end

