-- ==== Sys2Proof/Machine/Reset.lean ====
section
/-! DEFINITION. The reset input (70_reset_and_hazards.md R195, R205): its effect, and its arrival between two events
of an operation. -/

namespace Sys2Proof.Machine

/-- The events a later state has and an earlier one has not. -/
def newEvents (s t : State) : List Event := t.trace.drop s.trace.length

/-- How many of a trace's events are samples of `MSB`. -/
def samples (es : List Event) : Nat :=
  es.countP fun e => match e with | .get _ _ => true | _ => false

/-- The effect of the reset input: the state of 10_state.md R30, "no event performed". The parameters and the
environment's inputs stay, the trace starts anew and the trace so far is put aside
(70_reset_and_hazards.md R195; log 16). -/
def State.hardwareReset (s : State) (later : List Nat) : State :=
  { State.resetWith s.cfg with
    othersLive := s.othersLive
    resets := later
    port := s.port
    answers := s.answers
    polls := s.polls
    past := s.trace :: s.past }

/-- The step from `s` to `t` broken off after its first `n` events: only these are in the trace, and only the
answers their samples took are gone. The registers do not matter, since a reset follows (R205; log 16). -/
def State.cutAfter (s t : State) (n : Nat) : State :=
  let done := (newEvents s t).take n
  let taken := min (samples done) (t.polls - s.polls)
  { t with
    log := done.reverse ++ s.log
    answers := s.answers.drop taken
    polls := s.polls + taken }

/-- The step from `s` to `t` with a reset `n` events ahead: it is broken off there and the reset taken, or, when
it performs fewer events, the reset comes nearer by them (70_reset_and_hazards.md R205; log 16). -/
def State.underReset (s t : State) (n : Nat) (later : List Nat) : State :=
  if (newEvents s t).length < n then { t with resets := (n - (newEvents s t).length) :: later }
  else (s.cutAfter t n).hardwareReset later

end Sys2Proof.Machine
end

