-- ==== Sys2Proof/Machine/Step.lean ====
section
/-! DEFINITION. One step: the reset input, the work in progress, or the next request (30_encoding.md R62;
00_scope.md R7), and the placement of a program's word. -/

namespace Sys2Proof.Machine

/-- The instruction of a presented request (30_encoding.md R60). -/
def Request.instr (r : Request) : Instr :=
  decodeRequest r.word r.stream

/-- One step without a reset. While an operation is in progress its remaining work goes on and no request is
looked at (00_scope.md R7, R9). In `IDLE` the host's next act is done: its request is accepted and dispatched
(30_encoding.md R62), or another device is created or destroyed (60_exceptions.md R190; log 15); with none
nothing happens (log 7). -/
def advance (s : State) : Host.Outcome State Fault Refusal :=
  match s.seq with
  | .issue i :: rest => exec i { s with seq := rest }
  | m :: rest => perform (m :: rest) { s with seq := [] }
  | [] =>
    match s.port with
    | [] => .next s
    | .request r :: more => exec (Request.instr r) { s with port := more }
    | .createOther given :: more => .next (createOther given { s with port := more })
    | .destroyOther :: more => .next (destroyOther { s with port := more })

/-- One step. With no reset ahead it is `advance`. A reset that has come is taken before anything else; one that is
some events ahead may break the step off between two of its events (70_reset_and_hazards.md R195, R205; log 16). -/
def step (s : State) : Host.Outcome State Fault Refusal :=
  match s.resets with
  | [] => advance s
  | 0 :: later => .next (s.hardwareReset later)
  | (n + 1) :: later =>
    match advance s with
    | .next t => .next (s.underReset t (n + 1) later)
    | .fault r => .fault r
    | .refused r => .refused r

/-- The state with a table word placed where the next step takes its instruction: a request word (56 bits) is
the only one the host presents, with a stream of zero bytes; a frame (16 or 8 bits) is issued at the sequencer
(log 7, log 9). -/
def State.withFetchWord (s : State) (nbits w : Nat) : State :=
  if nbits ≤ 16 then
    match decodeTableWord nbits w with
    | some i => { s with resets := [], seq := [.issue i] }
    | none => s
  else { s with resets := [], seq := [], port := [.request ⟨BitVec.ofNat 52 w, zeroStream⟩] }

end Sys2Proof.Machine
end

