-- ==== Sys2Proof/Machine/Trace.lean ====
section
/-! DEFINITION. What an observer reads from a pin trace (00_scope.md R6, 92_eei_decisions.md D23): the transfers,
the bytes, the frames and the least time. Each is a function of the events alone and of the levels the lines had
before them. -/

namespace Sys2Proof.Machine

/-- One write transfer: the levels of RS and of the `W` data lines when EN rises (30_encoding.md R64). -/
structure Transfer where
  rs : Bool
  v  : BitVec 8
deriving DecidableEq, Repr

/-- One item of the byte trace: a byte as COMMAND or DATA, or a lone nibble (00_scope.md R6). -/
inductive ByteItem where
  | byte (kind : Kind) (v : Byte)
  | nibble (v : BitVec 4)
deriving DecidableEq, Repr

/-- The controller pin `DB` a data line is wired to: `D[i]` is DB(`8 - W + i`) (10_state.md R19). -/
def controllerPin (w : Width) (i : Nat) : Nat := 8 - lineCount w + i

/-- The pins after one event (10_state.md R21). -/
def Pins.after (p : Pins) : Event → Pins
  | .set l v => p.setLevel l v
  | .get _ _ => p
  | .dir l d => p.setDir l d
  | .wait _ => p

/-- The pins after a trace. -/
def Pins.afterAll (p : Pins) (es : List Event) : Pins := es.foldl Pins.after p

/-- The bits of a value on the data lines of a width. -/
def lineMask : Width → BitVec 8
  | .four => 0x0F
  | .eight => 0xFF

/-- The transfer trace: one item at each rise of EN with RW at its write level (00_scope.md R6). -/
def transfers (w : Width) (p : Pins) : List Event → List Transfer
  | [] => []
  | e :: es =>
    (if e = .set .en true ∧ p.rw.level = rwWrite then [⟨p.rs.level, p.data &&& lineMask w⟩] else [])
      ++ transfers w (p.after e) es

/-- The kind a level of RS selects. -/
def kindOf (rs : Bool) : Kind := if rs then .data else .command

/-- Transfers paired up, high nibble first (20_memory.md R45). -/
def pairNibbles : List Transfer → List ByteItem
  | a :: b :: rest => .byte (kindOf a.rs) ((a.v <<< 4) ||| (b.v &&& 0x0F)) :: pairNibbles rest
  | [_] => []
  | [] => []

/-- The byte trace of a sequence of transfers, the first `lone` of which are lone nibbles when `W = 4`
(00_scope.md R6, 30_encoding.md R69). -/
def byteTrace (w : Width) (lone : Nat) (ts : List Transfer) : List ByteItem :=
  match w with
  | .eight => ts.map fun t => .byte (kindOf t.rs) t.v
  | .four => (ts.take lone).map (fun t => .nibble (t.v.setWidth 4)) ++ pairNibbles (ts.drop lone)

/-- The bus frame `RS RW DB7 .. DB0` of a byte (30_encoding.md R64): RW is 0 in a write. -/
def byteFrame (kind : Kind) (v : Byte) : BusWord := busWord (rsLevel kind) false v

/-- The least time of a trace in microseconds: its waits add up (70_reset_and_hazards.md R214). -/
def leastTime (es : List Event) : Nat :=
  (es.map fun e => match e with | .wait t => t | _ => 0).sum

/-- The least number of clock cycles of a wait in the clocked rendering: `ceil(t * F_CLK_HZ / 10^6)`, at least 1
(60_exceptions.md R188). -/
def waitCycles (c : Config) (t : Nat) : Nat :=
  max 1 ((t * c.fClkHz + 999999) / 1000000)

/-- The pulses of EN in a trace. -/
def enPulses (es : List Event) : Nat := es.count (.set .en true)

/-- The control-pin list: RS, EN and, when `BUSY_POLL`, RW (10_state.md R19). -/
def controlPinList (c : Config) : List PinId :=
  [c.rsPin, c.enPin] ++ (if c.busyPoll then [c.rwPin] else [])

/-- The data-pin list of a width (10_state.md R19). DESIGN CHOICE, unsafe (log 28): the lists are the platform's
(20_memory.md R43); the model takes the first `W` identifiers of one list, so that an identifier that is DB0 with
`W = 8` is DB4 with `W = 4`. -/
def dataPinList (c : Config) (w : Width) : List PinId := c.dataPins.take (lineCount w)

/-- List entries of a pin list, "two list entries per line" (10_state.md R19). -/
def listEntries (l : List PinId) : Nat := 2 * l.length

end Sys2Proof.Machine
end

