-- ==== Sys2Proof/Safety.lean ====
section
/-! DEFINITION. The terms the statements use: when a device is ready, the effect of each procedure written out as
a state, the byte histories, and the invariants of a run. Nothing here is used by the machine. -/

namespace Sys2Proof.Machine

/-! ### When an operation can run -/

/-- Every line of the device is an output (40_registry_lifecycle.md R91). -/
def Driven (s : State) : Prop :=
  ∀ l ∈ deviceLines s.cfg s.width, s.pins.dir l = .output

/-- A live device in `IDLE` with its lines driven: where a request is defined (30_encoding.md R62, R63). -/
structure Ready (s : State) : Prop where
  live   : s.live = true
  idle   : s.seq = []
  driven : Driven s

/-- The next `n` polls, if there are polls, are answered 0 at once. -/
def Quiet (n : Nat) (s : State) : Prop :=
  s.cfg.busyPoll = true → ∀ k < n, s.answerAt k = false

/-- The next poll, if there are polls, is answered 1 for `k` times and then 0. -/
def PollEnds (k : Nat) (s : State) : Prop :=
  if s.cfg.busyPoll then (∀ j < k, s.answerAt j = true) ∧ s.answerAt k = false else k = 0

/-- The busy answers of one poll for each number in a list: that many times 1, then 0. -/
def pollAnswers (ks : List Nat) : List Bool :=
  ks.flatMap fun k => List.replicate k true ++ [false]

/-- The controller clears in each of the next `ks.length` polls, after the counts of busy answers in `ks`. Every
stream of answers that keeps coming back to 0, `BF_EVENTUALLY_CLEAR`, has such a form for every number of polls
(43_busy_poller.md R129). -/
def Clears (ks : List Nat) (s : State) : Prop :=
  s.cfg.busyPoll = true → ∀ j a, (pollAnswers ks)[j]? = some a → s.answerAt j = a

/-- The rows of the opcode table a host can present (30_encoding.md R61). -/
def Instr.isRequest : Instr → Bool
  | .create _ _ _ | .destroy | .clear | .home | .display _ | .cursor _ | .blink _ | .direction _
  | .autoscroll _ | .goto _ _ | .scroll _ | .defchar _ _ | .putc _ | .puts _ | .puti _ | .reserved => true
  | _ => false

/-- The requests that are defined on a live device only (30_encoding.md R63). -/
def Instr.needsLive : Instr → Bool
  | .create _ _ _ | .destroy | .reserved => false
  | i => Instr.isRequest i

/-! ### Effects, written out -/

/-- Events added to the trace, oldest first. -/
def State.record (s : State) (es : List Event) : State :=
  { s with log := es.reverse ++ s.log }

/-- The pins replaced and events added. -/
def State.moved (s : State) (p : Pins) (es : List Event) : State :=
  State.record { s with pins := p } es

/-- An operation has ended with a status. -/
def State.completed (s : State) (st : Status) : State :=
  { s with status := some st }

/-- The data latches after a value is put on the lines of a width: the low `W` bits are the value's
(20_memory.md R44). -/
def onLines (w : Width) (old : BitVec 8) (v : Nat) : BitVec 8 :=
  (old &&& ~~~lineMask w) ||| (BitVec.ofNat 8 v &&& lineMask w)

/-- The events of `WriteValue(v)` (42_bus_transmitter.md R115). -/
def writeEvents (c : Config) (w : Width) (v : Nat) : List Event :=
  (dataLines w).map (fun i => .set (.d i) (v.testBit i))
    ++ [.set .en true, .wait c.tEn, .set .en false]

/-- The state after `WriteValue(v)`: the data latches and EN (42_bus_transmitter.md R115). -/
def State.afterWrite (s : State) (v : Nat) : State :=
  s.moved { s.pins with
    data := onLines s.width s.pins.data v
    en := { s.pins.en with level := false } } (writeEvents s.cfg s.width v)

/-- The events of one poll iteration answered `a` (43_busy_poller.md R127). -/
def pollEvents (c : Config) (w : Width) (a : Bool) : List Event :=
  [.set .en true, .wait c.tEn, .get (msbLine w) a, .set .en false]
    ++ (if w = .four then [.set .en true, .wait c.tEn, .set .en false] else [])

/-- The events of `BusyWait()` with `k` busy answers and then a 0 (43_busy_poller.md R130). -/
def busyWaitEvents (c : Config) (w : Width) (k : Nat) : List Event :=
  [.set .rs false, .set .rw rwRead, .dir (msbLine w) .input]
    ++ (List.replicate k (pollEvents c w true)).flatten ++ pollEvents c w false
    ++ [.dir (msbLine w) .output, .set .rw rwWrite]

/-- The state after `BusyWait()` with `k` busy answers and then a 0: RS 0, RW at write, EN 0, the sample 0, no
data latch changed (43_busy_poller.md R130). -/
def State.afterBusyWait (s : State) (k : Nat) : State :=
  State.moved { State.takeAnswers s (k + 1) with busy := false }
    { s.pins with
      rs := { s.pins.rs with level := false }
      rw := { s.pins.rw with level := rwWrite }
      en := { s.pins.en with level := false } } (busyWaitEvents s.cfg s.width k)

/-- The events of the transfers of one byte (20_memory.md R45). -/
def byteEvents (c : Config) (w : Width) (v : Byte) : List Event :=
  match w with
  | .four => writeEvents c .four (v.toNat / 16) ++ writeEvents c .four (v.toNat % 16)
  | .eight => writeEvents c .eight v.toNat

/-- The state after RS and the transfers of one byte: RS at the kind's level, the byte (or its low nibble) on
the data lines, EN 0 (42_bus_transmitter.md R117). -/
def State.afterByte (s : State) (kind : Kind) (v : Byte) : State :=
  s.moved
    { s.pins with
      rs := { s.pins.rs with level := rsLevel kind }
      data := onLines s.width s.pins.data v.toNat
      en := { s.pins.en with level := false } }
    (.set .rs (rsLevel kind) :: byteEvents s.cfg s.width v)

/-- The state after `Send(v, kind)` whose poll, if any, is answered 1 for `k` times and then 0
(42_bus_transmitter.md R117). -/
def State.afterBusySend (s : State) (k : Nat) (kind : Kind) (v : Byte) : State :=
  if s.cfg.busyPoll then (s.afterBusyWait k).afterByte kind v
  else (s.afterByte kind v).record [.wait s.cfg.tSend]

/-- The state after `Send(v, kind)` whose poll, if any, is answered 0 at once. -/
def State.afterSend (s : State) (kind : Kind) (v : Byte) : State := s.afterBusySend 0 kind v

/-- The state after several sends of one kind, in order. -/
def State.afterSends (s : State) (kind : Kind) (vs : List Byte) : State :=
  vs.foldl (fun s v => s.afterSend kind v) s

/-- The state after a wait. -/
def State.waited (s : State) (t : Nat) : State := s.record [.wait t]

/-- The state after `control` is stored and sent (44_codec_commands.md R139). -/
def State.storedControl (s : State) (v : Byte) : State :=
  State.afterSend { s with control := v } .command v

/-- The state after `mode` is stored and sent (44_codec_commands.md R139). -/
def State.storedMode (s : State) (v : Byte) : State :=
  State.afterSend { s with mode := v } .command v

/-- The state after a direction is given to a line, with its event. -/
def State.turned (s : State) (l : Line) (d : Dir) : State :=
  s.moved (s.pins.setDir l d) [.dir l d]

/-- The state after `ConfigurePins()`: every line an output in list order, then RW at write when there is one
(40_registry_lifecycle.md R91). -/
def State.configured (s : State) : State :=
  let t := (deviceLines s.cfg s.width).foldl (fun s l => s.turned l .output) s
  if s.cfg.busyPoll then
    t.moved { t.pins with rw := { t.pins.rw with level := rwWrite } } [.set .rw rwWrite]
  else t

/-- The state after steps 1 and 2 of INIT: the power-up wait, then RS and EN 0 (41_init_sequence.md R101, R102). -/
def State.settled (s : State) : State :=
  s.moved
    { s.pins with
      rs := { s.pins.rs with level := false }
      en := { s.pins.en with level := false } }
    [.wait s.cfg.tPowerup, .set .rs false, .set .en false]

/-- The state after one byte of the 8-bit reset dance (41_init_sequence.md R104). -/
def State.afterDanceByte (s : State) (config : Byte) : State :=
  match s.cfg.init8Via with
  | .send => s.afterSend .command (danceByte s.cfg.init8OrOpcode config)
  | .writeValue => s.afterWrite (danceByte s.cfg.init8OrOpcode config).toNat

/-- The state after the reset dance of the width (41_init_sequence.md R103, R104). -/
def State.danced (s : State) (config : Byte) : State :=
  match s.width with
  | .four =>
    ((((((s.afterWrite 0x3).waited s.cfg.tInit1).afterWrite 0x3).waited s.cfg.tInit2).afterWrite 0x3).waited
      s.cfg.tInit3).afterWrite 0x2
  | .eight =>
    (((((s.afterDanceByte config).waited s.cfg.tInit1).afterDanceByte config).waited
      s.cfg.tInit2).afterDanceByte config).waited s.cfg.tInit3

/-- The state after INIT (41_init_sequence.md R110). -/
def State.initialized (s : State) (config : Byte) : State :=
  ((((s.settled.danced config).afterSend .command (0x20 ||| config)).storedControl 0x0C).afterSend .command 0x01
    |>.waited s.cfg.tSlow).storedMode 0x06

/-- How many polls CREATE makes: one before each `Send` (43_busy_poller.md R131). -/
def createPolls (c : Config) (config : Byte) : Nat :=
  match configWidth config, c.init8Via with
  | .four, _ => 4
  | .eight, .send => 7
  | .eight, .writeValue => 4

/-- The decimal digits of a number as characters, most significant first; a single `'0'` for 0
(46_codec_print.md R165, R168). -/
def decimalChars (m : Nat) : List Byte :=
  if m = 0 then [0x30]
  else (Nat.digits 10 m).reverse.map fun d => 0x30 + BitVec.ofNat 8 d

/-- The bytes PUTI prints: the sign, then the digits of the absolute value (46_codec_print.md R165). -/
def putiChars (n : BitVec 32) : List Byte :=
  (if n.toInt < 0 then [0x2D] else []) ++ decimalChars n.toInt.natAbs

/-- How many polls a request makes when polls exist: one for each byte it sends through `Send`
(43_busy_poller.md R131). -/
def requestPolls (c : Config) : Instr → Nat
  | .create config _ _ => createPolls c config
  | .defchar _ stream => 1 + (bitmapBytes stream).length
  | .puts stream => (stringBytes stream).length
  | .puti n => (putiChars n).length
  | .destroy | .reserved => 0
  | _ => 1

/-! ### Histories read from the trace -/

/-- The write transfers between two states (00_scope.md R6). -/
def newTransfers (s t : State) : List Transfer := transfers t.width s.pins (newEvents s t)

/-- Transfers paired up from the newest: kind and byte, newest byte first. -/
def pairsNewestFirst : List Transfer → List (Kind × Byte)
  | lo :: hi :: rest => (kindOf lo.rs, (hi.v <<< 4) ||| (lo.v &&& 0x0F)) :: pairsNewestFirst rest
  | _ => []

/-- The bytes sent, newest first, as the transfers of a width show them (20_memory.md R45). -/
def bytesNewestFirst (w : Width) (ts : List Transfer) : List (Kind × Byte) :=
  match w with
  | .eight => ts.reverse.map fun t => (kindOf t.rs, t.v)
  | .four => pairsNewestFirst ts.reverse

/-- The newest command byte with a property that the trace since reset shows. -/
def State.lastCommand (s : State) (p : Byte → Bool) : Option Byte :=
  ((bytesNewestFirst s.width (transfers s.width Pins.reset s.trace)).find?
    fun b => decide (b.1 = .command) && p b.2).map Prod.snd

/-- `control` and `mode` are the last display-control and entry-mode bytes on the bus (10_state.md R16). -/
def Synced (s : State) : Prop :=
  s.lastCommand legalControl = some s.control ∧ s.lastCommand legalMode = some s.mode

/-! ### Invariants -/

/-- `MSB` is an input, as inside a poll (10_state.md R21). -/
def polling (s : State) : Bool := decide (s.pins.dir (msbLine s.width) = .input)

/-- Work items that respect the GPIO contract from a point where `MSB` is an input or not: only lines of the
device, `PinSet` on outputs only, a poll only while `MSB` is an input, `MSB` an output again at the end
(10_state.md R22). -/
def contractItems (c : Config) (w : Width) : Bool → List Micro → Bool
  | msbIn, [] => !msbIn
  | msbIn, .pinSet l _ :: r => present c w l && !(msbIn && l == msbLine w) && contractItems c w msbIn r
  | msbIn, .pinDir l d :: r =>
    present c w l &&
      (if l = msbLine w then contractItems c w (d == .input) r
       else d == .output && contractItems c w msbIn r)
  | msbIn, .poll :: r => msbIn && contractItems c w msbIn r
  | _, .issue _ :: _ => false
  | msbIn, _ :: r => contractItems c w msbIn r

/-- The GPIO invariant (10_state.md R22): a free device is `IDLE`; on a live one every line but a polled `MSB` is
an output, and the work in progress respects the contract. -/
structure GpioInv (s : State) : Prop where
  free_idle  : s.live = false → s.seq = []
  lines_out  : s.live = true →
    ∀ l ∈ deviceLines s.cfg s.width, l ≠ msbLine s.width → s.pins.dir l = .output
  items_kept : s.live = true → contractItems s.cfg s.width (polling s) s.seq = true

/-- The level a line has once the work in progress is done (a poll leaves EN 0). -/
def finalLevel (l : Line) (now : Bool) (items : List Micro) : Bool :=
  items.foldl (fun x m =>
    match m with
    | .pinSet l' v => if l' = l then v else x
    | .poll => if l = .en then false else x
    | _ => x) now

/-- On a live device the work in progress ends with EN 0 and, where there is RW, RW at write; in `IDLE` they
are there (10_state.md R31; 42_bus_transmitter.md R115; 43_busy_poller.md R128). A free device is `IDLE`. -/
structure RestInv (s : State) : Prop where
  free_idle : s.live = false → s.seq = []
  en_low    : s.live = true → finalLevel .en s.pins.en.level s.seq = false
  rw_write  : s.live = true → s.cfg.busyPoll = true → finalLevel .rw s.pins.rw.level s.seq = rwWrite
  no_issue  : ∀ i, Micro.issue i ∉ s.seq

/-- The value `control` has once the work in progress is done. -/
def finalControl (now : Byte) (items : List Micro) : Byte :=
  items.foldl (fun x m => match m with | .loadControl v => v | _ => x) now

/-- The value `mode` has once the work in progress is done. -/
def finalMode (now : Byte) (items : List Micro) : Byte :=
  items.foldl (fun x m => match m with | .loadMode v => v | _ => x) now

/-- On a live device the work in progress ends with legal registers; in `IDLE` they are legal
(10_state.md R14, R15). A free device is `IDLE`. -/
structure RegistersInv (s : State) : Prop where
  free_idle : s.live = false → s.seq = []
  control_ok : s.live = true → legalControl (finalControl s.control s.seq) = true
  mode_ok    : s.live = true → legalMode (finalMode s.mode s.seq) = true
  no_issue   : ∀ i, Micro.issue i ∉ s.seq

/-- The latches and directions are what the trace since reset left: each line keeps the level of its last
`PinSet` and the direction of its last `PinDir` (10_state.md R21). -/
def LatchInv (s : State) : Prop := Pins.reset.afterAll s.trace = s.pins

end Sys2Proof.Machine
end

