-- ==== Sys2Proof/Certificates/Slice0/Obligations.lean ====
section
/-! DEFINITION. The statements for the provers. Byte values of the HD44780 command set that the source does not
print, and ASCII, are the spec's general knowledge (93_implementation_defined.md G1 to G6; log 11): statements
that name them rest on those constants. -/

open Sys2Proof Sys2Proof.Machine

/-! ### Encodings -/

/-- Words written out by the spec decode to the requests and frames they stand for (95_test_vectors.md;
spec/opcode_table.json). The two frames of the reset dance are read under the phase tag `.resetDance`, which is the
model's choice (log 10). -/
def Obligations.SpecWordsDecodeAsListed : Prop :=
  decode (.req 0x0080300000000 []) = .ok (.create 0x08 true true) ∧
  decode (.req 0x0080100000000 []) = .ok (.create 0x08 true false) ∧
  decode (.req 0x4010000000000 []) = .ok (.display true) ∧
  decode (.req 0x9013F00000000 []) = .ok (.goto 1 63) ∧
  decode (.req 0xB0A0000000000 [1, 2]) = .ok (.defchar 10 [1, 2]) ∧
  decode (.req 0xE0000FFFFFFD6 []) = .ok (.puti (-42)) ∧
  decode (.req 0xF000000000000 []) = .ok .reserved ∧
  decode (.bus .ordinary 0b0000001101) = .ok (.cmdDisplayControl true false true) ∧
  decode (.bus .resetDance 0b0000011000) = .ok (.cmdResetByte8 true false) ∧
  decode (.nibble .resetDance 0b000011) = .ok .resetNibble3

/-- Every row of the opcode table with an encoding decodes from it to itself, with every operand; the three
internal procedures are the rows without one (30_encoding.md R60, R61, R64, R65, R70; the phase tag log 10). -/
def Obligations.EncodedInstructionDecodesToItself : Prop :=
  ∀ i : Instr,
    (∃ e, encode i = some e ∧ decode e = .ok i) ∨
    (∃ v, i = .writeValue v) ∨ (∃ v k, i = .send v k) ∨ i = .busyWait

/-- No bit of a frame is dropped: a bus or nibble frame that decodes is the encoding of what it decodes to, bit
for bit (30_encoding.md R64, R65). The phase tag is the model's (log 10). -/
def Obligations.FrameBitsSurviveDecoding : Prop :=
  (∀ ph w i, decode (.bus ph w) = .ok i → ∃ ph', encode i = some (.bus ph' w)) ∧
  (∀ ph w i, decode (.nibble ph w) = .ok i → encode i = some (.nibble ph w))

/-- The request word: each selector picks its operation, whose operands are the named bits and no other
(30_encoding.md R60, R61). -/
def Obligations.SelectorPicksOperationAndOperands : Prop :=
  ∀ (w : ReqWord) (st : List Byte),
    (w.extractLsb' 48 4 = 0x0#4 →
      decodeRequest w st = .create (w.extractLsb' 40 8) (w.getLsbD 32) (w.getLsbD 33)) ∧
    (w.extractLsb' 48 4 = 0x1#4 → decodeRequest w st = .destroy) ∧
    (w.extractLsb' 48 4 = 0x2#4 → decodeRequest w st = .clear) ∧
    (w.extractLsb' 48 4 = 0x3#4 → decodeRequest w st = .home) ∧
    (w.extractLsb' 48 4 = 0x4#4 → decodeRequest w st = .display (w.getLsbD 40)) ∧
    (w.extractLsb' 48 4 = 0x5#4 → decodeRequest w st = .cursor (w.getLsbD 40)) ∧
    (w.extractLsb' 48 4 = 0x6#4 → decodeRequest w st = .blink (w.getLsbD 40)) ∧
    (w.extractLsb' 48 4 = 0x7#4 → decodeRequest w st = .direction (w.getLsbD 40)) ∧
    (w.extractLsb' 48 4 = 0x8#4 → decodeRequest w st = .autoscroll (w.getLsbD 40)) ∧
    (w.extractLsb' 48 4 = 0x9#4 →
      decodeRequest w st = .goto (w.extractLsb' 40 2) (w.extractLsb' 32 8)) ∧
    (w.extractLsb' 48 4 = 0xA#4 → decodeRequest w st = .scroll (w.getLsbD 40)) ∧
    (w.extractLsb' 48 4 = 0xB#4 → decodeRequest w st = .defchar (w.extractLsb' 40 8) st) ∧
    (w.extractLsb' 48 4 = 0xC#4 → decodeRequest w st = .putc (w.extractLsb' 40 8)) ∧
    (w.extractLsb' 48 4 = 0xD#4 → decodeRequest w st = .puts st) ∧
    (w.extractLsb' 48 4 = 0xE#4 → decodeRequest w st = .puti (w.extractLsb' 0 32)) ∧
    (w.extractLsb' 48 4 = 0xF#4 → decodeRequest w st = .reserved)

/-- The selector 0xF is refused in every state (30_encoding.md R68; 93 U1). -/
def Obligations.ReservedSelectorIsRefused : Prop :=
  ∀ s : State, exec .reserved s = .refused .reservedOp

/-! ### Steps -/

/-- A step takes a reset that has come first, then goes on with the work in progress, then does the host's next act:
it runs the decoded request, or another device is created or destroyed; with nothing to do it changes nothing
(30_encoding.md R62; 00_scope.md R7, R9; 70_reset_and_hazards.md R195; 40_registry_lifecycle.md R96;
60_exceptions.md R190; the shape of a step is the model's, logs 2, 7, 9, 15, 16). -/
def Obligations.StepRunsTheDecodedRequest : Prop :=
  ∀ s : State,
    (∀ later, s.resets = 0 :: later → step s = .next (s.hardwareReset later)) ∧
    (∀ r more, s.resets = [] → s.seq = [] → s.port = .request r :: more →
      step s = exec (decodeRequest r.word r.stream) { s with port := more }) ∧
    (∀ given more, s.resets = [] → s.seq = [] → s.port = .createOther given :: more →
      step s = .next { s with
        port := more
        othersLive := if given ∧ s.othersLive + (if s.live then 1 else 0) < s.cfg.maxDevices then s.othersLive + 1
          else s.othersLive }) ∧
    (∀ more, s.resets = [] → s.seq = [] → s.port = .destroyOther :: more →
      step s = .next { s with port := more, othersLive := s.othersLive - 1 }) ∧
    (s.resets = [] → s.seq = [] → s.port = [] → step s = .next s) ∧
    (∀ i rest, s.resets = [] → s.seq = .issue i :: rest → step s = exec i { s with seq := rest }) ∧
    (∀ m rest, s.resets = [] → s.seq = m :: rest → (∀ i, m ≠ .issue i) →
      step s = perform (m :: rest) { s with seq := [] })

/-- A placed table word is what the next step runs (the model's own, logs 7, 9, 23). -/
def Obligations.PlacedWordIsTheNextToRun : Prop :=
  ∀ (s : State) (nbits w : Nat) (i : Instr), decodeTableWord nbits w = some i →
    (16 < nbits → step (s.withFetchWord nbits w)
      = exec i { s with resets := [], seq := [], port := [] }) ∧
    (nbits ≤ 16 → step (s.withFetchWord nbits w) = exec i { s with resets := [], seq := [] })

/-- While an operation is in progress no request is looked at: the step leaves the port alone and does not
depend on it (00_scope.md R7, R9). -/
def Obligations.PortIsNotLookedAtWhileWorking : Prop :=
  ∀ (s : State) (m : Micro) (rest : List Micro) (other : List HostAct),
    s.resets = [] → s.seq = m :: rest → (∀ i, m ≠ .issue i) →
    (∀ t, step s = .next t → t.port = s.port ∧ step { s with port := other } = .next { t with port := other }) ∧
    (∀ e, step s = .refused e → step { s with port := other } = .refused e)

/-- A request dispatched while another is in progress is refused (00_scope.md R9; 93 U14). -/
def Obligations.RequestIsRefusedWhileWorking : Prop :=
  ∀ (i : Instr) (s : State), Instr.isRequest i = true → i ≠ .reserved → s.seq ≠ [] →
    exec i s = .refused .notIdle

/-! ### Transmitter and poller -/

/-- `WriteValue(v)` on driven lines: the low `W` bits of `v` on the data lines in ascending order, one enable
pulse of `T_EN`, nothing else touched (42_bus_transmitter.md R115). -/
def Obligations.WriteValueDrivesTheLinesAndPulses : Prop :=
  ∀ (v : Nat) (s : State), Driven s → exec (.writeValue v) s = .next (s.afterWrite v)

/-- `Send(v, kind)`: after the poll, if any, RS, the transfers, and the settle wait exactly when there is no
polling (42_bus_transmitter.md R117). That it is complete `k` steps later after `k` busy answers counts the model's
steps (log 2). -/
def Obligations.SendPollsThenTransfersThenSettles : Prop :=
  ∀ (v : Byte) (kind : Kind) (k : Nat) (s : State), Driven s → s.seq = [] → s.resets = [] → PollEnds k s →
    ∃ s1, exec (.send v kind) s = .next s1 ∧ Sys2Proof.core.run k s1 = .next (s.afterBusySend k kind v)

/-- A `Send` reaches the bus as exactly two nibble transfers, high then low, when `W = 4`, and as exactly one
transfer when `W = 8`, all with RS at the kind's level (42_bus_transmitter.md R118; 20_memory.md R45; RW low is the write level, log 11). -/
def Obligations.SendIsTwoNibblesOrOneByte : Prop :=
  ∀ (v : Byte) (kind : Kind) (s : State), Driven s → Quiet 1 s → s.pins.rw.level = false →
    ∃ t, exec (.send v kind) s = .next t ∧
      newTransfers s t =
        match s.width with
        | .four => [⟨rsLevel kind, v >>> 4⟩, ⟨rsLevel kind, v &&& 0x0F⟩]
        | .eight => [⟨rsLevel kind, v⟩]

/-- In 4-bit mode a `Send` is its high-nibble frame, its low-nibble frame and, without polling, the settle wait;
with polling answered 0 it is a `BusyWait()` and the two frames (42_bus_transmitter.md R117; 30_encoding.md R64). What
a nibble frame does when it is run by itself, and that the high one sets RS, is the model's choice (log 9). -/
def Obligations.SendIsItsTwoNibbleFrames : Prop :=
  ∀ (v : Byte) (kind : Kind) (s : State), Driven s → s.width = .four →
    (s.cfg.busyPoll = false →
      ∃ a b, exec (.byteHighNibble (rsLevel kind) (v.extractLsb' 4 4)) s = .next a ∧
        exec (.byteLowNibble (rsLevel kind) (v.extractLsb' 0 4)) a = .next b ∧
        exec (.send v kind) s = .next (b.waited s.cfg.tSend)) ∧
    (s.cfg.busyPoll = true → s.answerAt 0 = false →
      ∃ p a b, exec .busyWait s = .next p ∧
        exec (.byteHighNibble (rsLevel kind) (v.extractLsb' 4 4)) p = .next a ∧
        exec (.byteLowNibble (rsLevel kind) (v.extractLsb' 0 4)) a = .next b ∧
        exec (.send v kind) s = .next b)

/-- `BusyWait()` with `k` busy answers and then a 0 makes `k + 1` iterations, and leaves RS 0, RW at write, EN 0,
`MSB` an output and every data latch as it was (43_busy_poller.md R126, R127, R128, R130; the RW levels log 11). That
each busy answer costs one more step counts the model's steps (log 2). -/
def Obligations.BusyWaitRepeatsUntilReady : Prop :=
  ∀ (k : Nat) (s : State), Driven s → s.cfg.busyPoll = true → s.seq = [] → s.resets = [] →
    (∀ j < k, s.answerAt j = true) → s.answerAt k = false →
    ∃ s1, exec .busyWait s = .next s1 ∧ Sys2Proof.core.run k s1 = .next (s.afterBusyWait k)

/-- Without `BUSY_POLL` no `PinGet` ever occurs and no poll is ever in progress: no instruction has a `PinGet` in its
events, and a step from a state with no poll in its work adds none to the trace or to a trace a reset ends, and leaves
no poll (43_busy_poller.md R125). That BusyWait and busy.read by themselves are refused is the model's (log 26). -/
def Obligations.NoPollerNoPinGet : Prop :=
  ∀ s : State, s.cfg.busyPoll = false →
    exec .busyWait s = .refused .noBusyPoller ∧
    (∀ b x, exec (.busyRead b x) s = .refused .noBusyPoller) ∧
    (∀ i t l a, exec i s = .next t → .get l a ∉ newEvents s t) ∧
    (∀ t, .poll ∉ s.seq → step s = .next t →
      t.cfg.busyPoll = false ∧ .poll ∉ t.seq ∧
      ∀ l a, .get l a ∉ newEvents s t ∧
        (t.trace :: t.past).flatten.count (.get l a) = (s.trace :: s.past).flatten.count (.get l a))

/-- While the controller answers 1, every operation that sends a byte stays in progress: each request on a ready
device that makes a poll (a GOTO in range, a PUTS with a character and a short DEFCHAR among them), and CREATE, is after
`n + 1` busy answers not `IDLE` and has no status. A controller that answers 1 for ever hangs it for ever
(43_busy_poller.md R129; 41_init_sequence.md R109; 60_exceptions.md R179; 70_reset_and_hazards.md R206). That this is
`n` further steps on counts the model's steps (log 2). -/
def Obligations.StuckControllerHangs : Prop :=
  ∀ (i : Instr) (s : State) (n : Nat), s.cfg.busyPoll = true → s.resets = [] →
    (∀ k ≤ n, s.answerAt k = true) → 0 < requestPolls s.cfg i →
    ((Ready s ∧ Instr.needsLive i = true ∧ ∀ line col, i = .goto line col → Instr.wellFormed i = true) ∨
      (s.live = false ∧ s.seq = [] ∧ s.othersLive < s.cfg.maxDevices ∧ Instr.wellFormed i = true ∧
        ∃ config, i = .create config true true)) →
    ∃ s1 t : State, exec i s = .next s1 ∧ Sys2Proof.core.run n s1 = .next t ∧ t.seq ≠ [] ∧ t.status = none

/-! ### Frames -/

/-- Each byte frame is put on the bus by one `Send` of its byte: `cmd.clear`, `cmd.home`, `cmd.entry_mode`,
`cmd.display_control`, `cmd.display_shift`, `cmd.function_set`, `cmd.set_cgram`, `cmd.set_ddram`, `data.write`
(30_encoding.md R64, R65; 44_codec_commands.md R135; that a frame is an instruction is the model's, log 9). -/
def Obligations.ByteFramesAreSends : Prop :=
  ∀ s : State, Driven s → Quiet 1 s →
    exec .cmdClear s = .next (s.afterSend .command 0b00000001#8) ∧
    exec .cmdHome s = .next (s.afterSend .command 0b00000010#8) ∧
    (∀ i a, exec (.cmdEntryMode i a) s
      = .next (s.afterSend .command (0b000001#6 ++ BitVec.ofBool i ++ BitVec.ofBool a))) ∧
    (∀ d c b, exec (.cmdDisplayControl d c b) s
      = .next (s.afterSend .command (0b00001#5 ++ BitVec.ofBool d ++ BitVec.ofBool c ++ BitVec.ofBool b))) ∧
    (∀ r, exec (.cmdDisplayShift r) s
      = .next (s.afterSend .command (0b00011#5 ++ BitVec.ofBool r ++ 0b00#2))) ∧
    (∀ l n f, exec (.cmdFunctionSet l n f) s
      = .next (s.afterSend .command
          (0b001#3 ++ BitVec.ofBool l ++ BitVec.ofBool n ++ BitVec.ofBool f ++ 0b00#2))) ∧
    (∀ i, exec (.cmdSetCgram i) s = .next (s.afterSend .command (0b01#2 ++ i ++ 0b000#3))) ∧
    (∀ a, exec (.cmdSetDdram a) s = .next (s.afterSend .command (0b1#1 ++ a))) ∧
    (∀ d, exec (.dataWrite d) s = .next (s.afterSend .data d))

/-- What the bus shows of a byte frame is its encoding: the transfers of the frame's instruction carry the byte
whose frame `RS RW DB7 .. DB0` is the encoded word (30_encoding.md R64). That a byte frame is an instruction with
transfers is the model's choice (log 9); RW low is the write level (log 11). -/
def Obligations.BusShowsTheEncodedFrame : Prop :=
  ∀ (i : Instr) (w : BusWord) (s : State), encode i = some (.bus .ordinary w) → w.getLsbD 8 = false →
    Driven s → Quiet 1 s → s.pins.rw.level = false →
    ∃ t kind v, exec i s = .next t ∧ byteTrace s.width 0 (newTransfers s t) = [.byte kind v] ∧
      byteFrame kind v = w

/-- `cmd.reset_byte8` with `W = 8`: one byte of the reset dance, by the primitive and with the byte the two
parameters select (41_init_sequence.md R104). That the frame by itself follows `INIT8_VIA` and `INIT8_OR_OPCODE` as the
dance does, so that under `INIT8_OR_OPCODE` the byte is `config | 0x20`, is the model's choice (log 27); so is the
refusal with `W = 4` (log 9). -/
def Obligations.ResetByteFollowsItsParameters : Prop :=
  ∀ (n f : Bool) (s : State),
    (s.width = .eight → Driven s → Quiet 1 s → (s.cfg.init8Via = .writeValue → s.pins.rs.level = false) →
      exec (.cmdResetByte8 n f) s = .next
        (s.afterDanceByte (0b0001#4 ++ BitVec.ofBool n ++ BitVec.ofBool f ++ 0b00#2))) ∧
    (s.width = .four → exec (.cmdResetByte8 n f) s = .refused .wrongWidth)

/-- The nibble frames with `W = 4` and RS at the frame's level: one `WriteValue` of the nibble; the high nibble
sets RS itself (41_init_sequence.md R103; 42_bus_transmitter.md R115, R117). That a nibble frame is run by itself, and
that the high one sets RS and the others do not, is the model's choice (log 9). -/
def Obligations.NibbleFramesAreSingleWrites : Prop :=
  ∀ s : State, Driven s → s.width = .four →
    (s.pins.rs.level = false → exec .resetNibble3 s = .next (s.afterWrite 0x3)) ∧
    (s.pins.rs.level = false → exec .resetNibble2 s = .next (s.afterWrite 0x2)) ∧
    (∀ rs h, exec (.byteHighNibble rs h) s
      = .next ((s.moved { s.pins with rs := { s.pins.rs with level := rs } } [.set .rs rs]).afterWrite h.toNat)) ∧
    (∀ rs l, s.pins.rs.level = rs → exec (.byteLowNibble rs l) s = .next (s.afterWrite l.toNat))

/-- The nibble frames out of their place stop by name: with `W = 8`, and where RS is not at the frame's level
(the model's, log 9; 30_encoding.md R64). -/
def Obligations.MisplacedNibbleFramesAreRefused : Prop :=
  ∀ s : State,
    (s.width = .eight →
      exec .resetNibble3 s = .refused .wrongWidth ∧ exec .resetNibble2 s = .refused .wrongWidth ∧
      (∀ rs h, exec (.byteHighNibble rs h) s = .refused .wrongWidth) ∧
      (∀ rs l, exec (.byteLowNibble rs l) s = .refused .wrongWidth)) ∧
    (s.width = .four →
      (s.pins.rs.level = true →
        exec .resetNibble3 s = .refused .wrongRs ∧ exec .resetNibble2 s = .refused .wrongRs) ∧
      (∀ rs l, s.pins.rs.level = !rs → exec (.byteLowNibble rs l) s = .refused .wrongRs))

/-- `busy.read` inside a poll: one iteration in which the controller drives the frame's bit on `MSB`; the sample
is that bit and the seven other bits change nothing (43_busy_poller.md R127; log 25). -/
def Obligations.BusyReadIsOneIteration : Prop :=
  ∀ (b : Bool) (x : BitVec 7) (s : State), s.cfg.busyPoll = true → s.pins.rs.level = false →
    s.pins.rw.level = true → s.pins.dir .en = .output → s.pins.dir (msbLine s.width) = .input →
    exec (.busyRead b x) s = .next
      (State.moved { s with busy := b } { s.pins with en := { s.pins.en with level := false } }
        (pollEvents s.cfg s.width b))

/-! ### Slow commands and register merges -/

/-- CLEAR and HOME: one `Send` of 0x01 or 0x02, then the wait `T_SLOW` with or without polling; registers as
they were (44_codec_commands.md R136, R137, R138). -/
def Obligations.ClearAndHomeSendThenSettle : Prop :=
  ∀ s : State, Ready s → Quiet 1 s →
    exec .clear s = .next (((s.afterSend .command 0x01).waited s.cfg.tSlow).completed .ok) ∧
    exec .home s = .next (((s.afterSend .command 0x02).waited s.cfg.tSlow).completed .ok)

/-- DISPLAY, CURSOR and BLINK: `control` with one bit replaced is stored, then sent whole, even when the flag
does not change (44_codec_commands.md R139, R140, R141, R142; bit positions log 11). -/
def Obligations.ControlFlagIsMergedStoredAndSent : Prop :=
  ∀ (f : Bool) (s : State), Ready s → Quiet 1 s →
    exec (.display f) s = .next
      ((s.storedControl (if f then s.control ||| 0x04 else s.control &&& 0xFB)).completed .ok) ∧
    exec (.cursor f) s = .next
      ((s.storedControl (if f then s.control ||| 0x02 else s.control &&& 0xFD)).completed .ok) ∧
    exec (.blink f) s = .next
      ((s.storedControl (if f then s.control ||| 0x01 else s.control &&& 0xFE)).completed .ok)

/-- DIRECTION and AUTOSCROLL: `mode` with one bit replaced is stored, then sent whole
(44_codec_commands.md R139, R143, R144; bit positions log 11). -/
def Obligations.ModeFlagIsMergedStoredAndSent : Prop :=
  ∀ (f : Bool) (s : State), Ready s → Quiet 1 s →
    exec (.direction f) s = .next
      ((s.storedMode (if f then s.mode ||| 0x02 else s.mode &&& 0xFD)).completed .ok) ∧
    exec (.autoscroll f) s = .next
      ((s.storedMode (if f then s.mode ||| 0x01 else s.mode &&& 0xFE)).completed .ok)

/-- Toggling one flag alters no other bit of its register and nothing of the other register, whatever the
controller answers (44_codec_commands.md R139, R145). -/
def Obligations.TogglingOneFlagKeepsTheOthers : Prop :=
  ∀ (f : Bool) (s t : State) (j : Nat), j < 8 →
    (exec (.display f) s = .next t →
      t.control.getLsbD j = (if j = 2 then f else s.control.getLsbD j) ∧ t.mode = s.mode) ∧
    (exec (.cursor f) s = .next t →
      t.control.getLsbD j = (if j = 1 then f else s.control.getLsbD j) ∧ t.mode = s.mode) ∧
    (exec (.blink f) s = .next t →
      t.control.getLsbD j = (if j = 0 then f else s.control.getLsbD j) ∧ t.mode = s.mode) ∧
    (exec (.direction f) s = .next t →
      t.mode.getLsbD j = (if j = 1 then f else s.mode.getLsbD j) ∧ t.control = s.control) ∧
    (exec (.autoscroll f) s = .next t →
      t.mode.getLsbD j = (if j = 0 then f else s.mode.getLsbD j) ∧ t.control = s.control)

/-- No instruction but CREATE, DISPLAY, CURSOR and BLINK changes `control`, and none but CREATE, DIRECTION and
AUTOSCROLL changes `mode` (44_codec_commands.md R145). -/
def Obligations.OnlyMergesAndCreateChangeTheRegisters : Prop :=
  ∀ (i : Instr) (s t : State), exec i s = .next t →
    ((∀ c x y, i ≠ .create c x y) → (∀ f, i ≠ .display f) → (∀ f, i ≠ .cursor f) → (∀ f, i ≠ .blink f) →
      t.control = s.control) ∧
    ((∀ c x y, i ≠ .create c x y) → (∀ f, i ≠ .direction f) → (∀ f, i ≠ .autoscroll f) → t.mode = s.mode)

/-- `control` and `mode` are the last display-control and entry-mode bytes on the bus: every request that completes
on a ready device keeps it so, and CREATE makes it so, in one step or in several while the host presents nothing more
and no reset comes (10_state.md R16; bit positions log 11). RW stands at its write level and the latches are what the
trace left, as in every run. -/
def Obligations.RegistersAreTheLastBytesSent : Prop :=
  ∀ (i : Instr) (s s1 t : State) (n : Nat), Instr.isRequest i = true → exec i s = .next s1 →
    Sys2Proof.core.run n s1 = .next t → (n = 0 ∨ (s.port = [] ∧ s.resets = [])) → t.seq = [] → t.live = true →
    LatchInv s → s.pins.rw.level = false →
    ((∃ c x y, i = .create c x y) ∨ (Ready s ∧ Synced s)) → Synced t

/-! ### Addressing -/

/-- GOTO within the 7-bit field sends `0x80 | (offset[line] + col)` with the offsets 0x00, 0x40, 0x10, 0x50, and
changes no register (45_codec_address.md R150, R151; 20_memory.md R41). -/
def Obligations.GotoSendsOffsetPlusColumn : Prop :=
  ∀ (line : BitVec 2) (col : Byte) (s : State), Ready s → Quiet 1 s →
    [0x00, 0x40, 0x10, 0x50].getD line.toNat 0 + col.toNat ≤ 0x7F →
    exec (.goto line col) s = .next
      ((s.afterSend .command
        (BitVec.ofNat 8 (0x80 + ([0x00, 0x40, 0x10, 0x50].getD line.toNat 0 + col.toNat)))).completed .ok)

/-- GOTO beyond the 7-bit field is refused (45_codec_address.md R151; 93 U5). -/
def Obligations.GotoBeyondTheFieldIsRefused : Prop :=
  ∀ (line : BitVec 2) (col : Byte) (s : State), Ready s →
    0x7F < [0x00, 0x40, 0x10, 0x50].getD line.toNat 0 + col.toNat →
    exec (.goto line col) s = .refused .gotoOutOfRange

/-- Lines 2 and 3 continue lines 0 and 1 at column 16 (45_codec_address.md R152). -/
def Obligations.LowerLinesContinueTheUpper : Prop :=
  ∀ (col : Byte) (s : State), col.toNat < 240 →
    exec (.goto 2 col) s = exec (.goto 0 (col + 16)) s ∧
    exec (.goto 3 col) s = exec (.goto 1 (col + 16)) s

/-- SCROLL sends one display shift, 0x1C right or 0x18 left, and changes no register
(45_codec_address.md R153; direction bit log 11). -/
def Obligations.ScrollSendsOneDisplayShift : Prop :=
  ∀ (right : Bool) (s : State), Ready s → Quiet 1 s →
    exec (.scroll right) s = .next ((s.afterSend .command (if right then 0x1C else 0x18)).completed .ok)

/-- DEFCHAR sends `0x40 | (index mod 8) * 8` and then the eight bitmap bytes, unmodified and in order
(45_codec_address.md R155, R156; 20_memory.md R42, R46). That a longer stream, which is not well formed, has its first
eight bytes taken is the model's (log 8). -/
def Obligations.DefcharSendsAddressThenBitmap : Prop :=
  ∀ (idx : Byte) (stream : List Byte) (s : State), Ready s → Quiet 9 s → 8 ≤ stream.length →
    exec (.defchar idx stream) s = .next
      (((s.afterSend .command (BitVec.ofNat 8 (0x40 + 8 * (idx.toNat % 8)))).afterSends .data
        (stream.take 8)).completed .ok)

/-- DEFCHAR looks at three bits of the index (45_codec_address.md R155). -/
def Obligations.DefcharMasksTheIndex : Prop :=
  ∀ (idx idx' : Byte) (stream : List Byte) (s : State), idx.toNat % 8 = idx'.toNat % 8 →
    exec (.defchar idx stream) s = exec (.defchar idx' stream) s

/-- A bitmap stream that ends before eight bytes and a string with no terminator leave the operation in progress
for ever, with no status and no further event (93 U6, U7; log 8). -/
def Obligations.StarvedStreamNeverCompletes : Prop :=
  ∀ (i : Instr) (stream : List Byte) (s : State), Ready s → s.resets = [] → Quiet (1 + stream.length) s →
    ((∃ idx, i = .defchar idx stream ∧ stream.length < 8) ∨ (i = .puts stream ∧ 0x00 ∉ stream)) →
    ∃ t, exec i s = .next t ∧ t.seq ≠ [] ∧ t.status = none ∧ ∀ n, Sys2Proof.core.run n t = .next t

/-! ### Printing -/

/-- PUTC sends its byte as DATA, as it is (46_codec_print.md R160). -/
def Obligations.PutcSendsTheByte : Prop :=
  ∀ (c : Byte) (s : State), Ready s → Quiet 1 s →
    exec (.putc c) s = .next ((s.afterSend .data c).completed .ok)

/-- PUTS sends each byte before the first 0x00 as DATA, in order, and not the terminator; the empty string
leaves every pin as it was (46_codec_print.md R162, R163). -/
def Obligations.PutsSendsUpToTheTerminator : Prop :=
  ∀ (str rest : List Byte) (s : State), Ready s → Quiet str.length s → 0x00 ∉ str →
    exec (.puts (str ++ 0x00 :: rest)) s = .next ((s.afterSends .data str).completed .ok)

/-- PUTI sends `'-'` for a negative number and then the decimal digits of the absolute value, most significant
first, a single `'0'` for 0; its scratch ends with the magnitude 0, the digit count and the digits, least
significant first (46_codec_print.md R165, R166, R168; ASCII log 11; the most negative value log 12). That the buffer
entries not filled keep what they held is the model's (log 19). -/
def Obligations.PutiSendsSignAndDecimalDigits : Prop :=
  ∀ (n : BitVec 32) (s : State), Ready s → Quiet (putiChars n).length s →
    ∃ p : Scratch,
      exec (.puti n) s = .next { (s.afterSends .data (putiChars n)).completed .ok with scratch := p } ∧
      p.m = 0 ∧ p.k = (decimalChars n.toInt.natAbs).length ∧
      ∀ j (hj : j < 10), (p.buf[j]).val =
        if j < p.k then n.toInt.natAbs / 10 ^ j % 10 else (s.scratch.buf[j]).val

/-- The digit buffer never overruns: at most ten digits, and ten turns always bring the magnitude to 0
(46_codec_print.md R167). -/
def Obligations.DigitBufferNeverOverruns : Prop :=
  ∀ (m : BitVec 32) (p : Scratch), 1 ≤ (convert m p).k ∧ (convert m p).k ≤ 10 ∧ (convert m p).m = 0

/-! ### Lifecycle -/

/-- CREATE on a free device with a legal `config`, both pin lists and a free slot, each poll answered 0: claim, pin
configuration and the initialization of the width, event by event (40_registry_lifecycle.md R90, R91;
41_init_sequence.md R110). The order of the `PinDir` events is a choice (log 14). -/
def Obligations.CreateClaimsConfiguresInitializes : Prop :=
  ∀ (config : Byte) (s : State), s.live = false → s.seq = [] →
    config ∈ [0x00, 0x04, 0x08, 0x0C, 0x10, 0x14, 0x18, 0x1C] → s.othersLive < s.cfg.maxDevices →
    Quiet (createPolls s.cfg config) s →
    exec (.create config true true) s = .next
      (((State.configured { s with
          live := true
          width := if config.getLsbD 4 then .eight else .four }).initialized config).completed .ok)

/-- The state a completed CREATE leaves, for either width and either `BUSY_POLL` (10_state.md R31; bit
positions and the RW level log 11). -/
def Obligations.CreateLeavesTheStatedValues : Prop :=
  ∀ (config : Byte) (s : State), s.live = false → s.seq = [] →
    config ∈ [0x00, 0x04, 0x08, 0x0C, 0x10, 0x14, 0x18, 0x1C] → s.othersLive < s.cfg.maxDevices →
    Quiet (createPolls s.cfg config) s →
    ∃ t, exec (.create config true true) s = .next t ∧
      t.live = true ∧ t.width = (if config.getLsbD 4 then .eight else .four) ∧
      t.control = 0x0C ∧ t.mode = 0x06 ∧ t.seq = [] ∧ t.status = some .ok ∧
      t.pins.rs.level = false ∧ t.pins.en.level = false ∧ (t.cfg.busyPoll = true → t.pins.rw.level = false) ∧
      Driven t ∧
      (t.width = .four → t.pins.data.extractLsb' 0 4 = 0x6#4) ∧ (t.width = .eight → t.pins.data = 0x06)

/-- The bytes of CREATE: lone nibbles 3, 3, 3, 2 when `W = 4`, the byte `config` three times when `W = 8` (the
default `INIT8_OR_OPCODE = false`); then `config | 0x20`, 0x0C, 0x01, 0x06 as COMMAND
(41_init_sequence.md R103 to R108, R110; byte values log 11). -/
def Obligations.CreateByteTrace : Prop :=
  ∀ (config : Byte) (s : State), s.live = false → s.seq = [] →
    config ∈ [0x00, 0x04, 0x08, 0x0C, 0x10, 0x14, 0x18, 0x1C] → s.othersLive < s.cfg.maxDevices →
    Quiet (createPolls s.cfg config) s → s.cfg.init8OrOpcode = false → s.pins.rw.level = false →
    ∃ t, exec (.create config true true) s = .next t ∧
      byteTrace t.width 4 (newTransfers s t) =
        (if config.getLsbD 4 then [.byte .command config, .byte .command config, .byte .command config]
         else [.nibble 3, .nibble 3, .nibble 3, .nibble 2])
        ++ [.byte .command (config ||| 0x20), .byte .command 0x0C, .byte .command 0x01, .byte .command 0x06]

/-- The least time of CREATE without polling is the sum of its waits, for either width and either primitive of the
reset dance (70_reset_and_hazards.md R214). -/
def Obligations.CreateLeastTime : Prop :=
  ∀ (config : Byte) (s : State), s.live = false → s.seq = [] →
    config ∈ [0x00, 0x04, 0x08, 0x0C, 0x10, 0x14, 0x18, 0x1C] → s.othersLive < s.cfg.maxDevices →
    s.cfg.busyPoll = false →
    ∃ t, exec (.create config true true) s = .next t ∧
      leastTime (newEvents s t) =
        s.cfg.tPowerup + s.cfg.tInit1 + s.cfg.tInit2 + s.cfg.tInit3 + s.cfg.tSlow
          + (if config.getLsbD 4 then
              7 * s.cfg.tEn + (if s.cfg.init8Via = .send then 7 else 4) * s.cfg.tSend
            else 12 * s.cfg.tEn + 4 * s.cfg.tSend)

/-- CREATE takes nothing from an earlier life: on two free devices that differ in registers, latches and
directions alone it performs the same events and leaves the same registers and lines
(40_registry_lifecycle.md R95). -/
def Obligations.CreateForgetsTheEarlierLife : Prop :=
  ∀ (config : Byte) (x y : Bool) (s s' t t' : State),
    s.live = false → s'.live = false → s.seq = [] → s'.seq = [] → s'.cfg = s.cfg →
    s'.othersLive = s.othersLive → s'.answers = s.answers → s'.polls = s.polls →
    exec (.create config x y) s = .next t → exec (.create config x y) s' = .next t' →
    newEvents s t = newEvents s' t' ∧ t.live = t'.live ∧ t.status = t'.status ∧ t.seq = t'.seq ∧
    (t.live = true → t.width = t'.width ∧
      (∀ l ∈ deviceLines t.cfg t.width, t.pins.dir l = t'.pins.dir l) ∧
      (t.seq = [] → t.control = t'.control ∧ t.mode = t'.mode ∧
        ∀ l ∈ deviceLines t.cfg t.width, t.pins.level l = t'.pins.level l))

/-- CREATE on a free device with a legal `config` reports `NO_DEVICE` exactly when a pin list is missing or no
slot is free, and then nothing but the status changes; and when the pool is full, a CREATE that fails is followed, once
the host has destroyed another device, by one that succeeds (40_registry_lifecycle.md R92, R96; 60_exceptions.md R190).
That other devices are a count, that theirs are acts on the same port, and that each act is a step, is the model's form
(logs 2, 15). -/
def Obligations.CreateFailsExactlyWithoutListOrSlot : Prop :=
  ∀ (config : Byte) (c d : Bool) (s : State), s.live = false → s.seq = [] →
    config ∈ [0x00, 0x04, 0x08, 0x0C, 0x10, 0x14, 0x18, 0x1C] →
    ((c = false ∨ d = false ∨ s.cfg.maxDevices ≤ s.othersLive) →
      exec (.create config c d) s = .next (s.completed .noDevice)) ∧
    (∀ t, exec (.create config c d) s = .next t → t.status = some .noDevice →
      c = false ∨ d = false ∨ s.cfg.maxDevices ≤ s.othersLive) ∧
    (∀ more, s.resets = [] → 0 < s.cfg.maxDevices → s.othersLive = s.cfg.maxDevices →
      Quiet (createPolls s.cfg config) s →
      s.port = .request ⟨reqWord 0x0 config 0x03 0, []⟩ :: .destroyOther ::
        .request ⟨reqWord 0x0 config 0x03 0, []⟩ :: more →
      ∃ a t : State, Sys2Proof.core.run 1 s = .next a ∧ a.live = false ∧ a.status = some .noDevice ∧
        a.trace = s.trace ∧
        Sys2Proof.core.run 3 s = .next t ∧ t.live = true ∧ t.status = some .ok ∧ t.seq = [] ∧ t.port = more ∧
        t.othersLive + 1 = s.cfg.maxDevices)

/-- CREATE is refused on a live device, and for a `config` outside the eight legal values
(30_encoding.md R63, R68; 93 U2, U4; that both come before `NO_DEVICE` is the model's, log 5). -/
def Obligations.CreateRefusesLiveDeviceAndIllegalConfig : Prop :=
  ∀ (config : Byte) (c d : Bool) (s : State), s.seq = [] →
    (s.live = true → exec (.create config c d) s = .refused .alreadyLive) ∧
    (s.live = false → config ∉ [0x00, 0x04, 0x08, 0x0C, 0x10, 0x14, 0x18, 0x1C] →
      exec (.create config c d) s = .refused .illegalConfig)

/-- DESTROY makes the device free, writes nothing else but the status and performs no event; on a free device it
changes nothing (40_registry_lifecycle.md R94). That registers, latches and directions stay as they were is the model's
(log 6). -/
def Obligations.DestroyFreesAndChangesNothingElse : Prop :=
  ∀ s : State, s.seq = [] → exec .destroy s = .next { s with live := false, status := some .ok }

/-- Every request but CREATE, DESTROY and the reserved one is refused on a free device (30_encoding.md R63;
93 U3). -/
def Obligations.FreeDeviceRefusesRequests : Prop :=
  ∀ (i : Instr) (s : State), Instr.needsLive i = true → s.live = false → s.seq = [] →
    exec i s = .refused .notLive

/-- No instruction but CREATE changes `W`, and none but CREATE and DESTROY changes `live`; no instruction changes
the parameters or the other devices, and the trace only grows (10_state.md R13, R17; 00_scope.md R5). No step, another
device's creation or destruction and a reset among them, changes the parameters or makes more devices live than
`MAX_DEVICES` (40_registry_lifecycle.md R96; 60_exceptions.md R190; other devices as a count, log 15). -/
def Obligations.OnlyLifecycleChangesWidthAndLive : Prop :=
  (∀ (i : Instr) (s t : State), exec i s = .next t →
    t.cfg = s.cfg ∧ t.othersLive = s.othersLive ∧ (∃ es, t.trace = s.trace ++ es) ∧
    ((∀ c x y, i ≠ .create c x y) → t.width = s.width) ∧
    ((∀ c x y, i ≠ .create c x y) → i ≠ .destroy → t.live = s.live)) ∧
  (∀ s t : State, step s = .next t →
    t.cfg = s.cfg ∧ (liveDevices s ≤ s.cfg.maxDevices → liveDevices t ≤ t.cfg.maxDevices))

/-! ### Reset, invariants and whole runs -/

/-- After reset: free, `IDLE`, no event performed, and a reset that has come has that effect from every state
(10_state.md R30; 70_reset_and_hazards.md R195). That it is taken in mid-operation too, starts the trace anew and puts
the old one aside is the model's choice (log 16). -/
def Obligations.ResetIsFreeAndIdle : Prop :=
  State.reset.live = false ∧ State.reset.seq = [] ∧ State.reset.trace = [] ∧
  ∀ (s : State) (later : List Nat), s.resets = 0 :: later →
    ∃ t, step s = .next t ∧ t.live = false ∧ t.seq = [] ∧ t.trace = [] ∧ t.status = none ∧ t.resets = later ∧
      t.past = s.trace :: s.past

/-- The four invariants hold after reset. -/
def Obligations.InvariantsHoldAfterReset : Prop :=
  GpioInv State.reset ∧ RestInv State.reset ∧ RegistersInv State.reset ∧ LatchInv State.reset

/-- Every step keeps the GPIO invariant: on a live device every line but a polled `MSB` is an output and the
work in progress respects the contract (10_state.md R22). -/
def Obligations.StepKeepsTheGpioInvariant : Prop :=
  ∀ s t : State, GpioInv s → step s = .next t → GpioInv t

/-- A step from a state with the GPIO invariant never sets a line that is an input and never reads a line that
is an output (10_state.md R22; 93 U9, U10). -/
def Obligations.StepNeverBreaksTheGpioContract : Prop :=
  ∀ (s : State) (l : Line), GpioInv s →
    step s ≠ .refused (.pinSetOnInput l) ∧ step s ≠ .refused (.pinGetOnOutput l)

/-- Every step keeps the latches equal to what the trace says: each line has the level of its last `PinSet` and
the direction of its last `PinDir` (10_state.md R21). -/
def Obligations.StepKeepsLatchesEqualToTheTrace : Prop :=
  ∀ s t : State, LatchInv s → step s = .next t → LatchInv t

/-- Every step keeps the registers legal: on a live device in `IDLE`, `control` is 0x08 .. 0x0F and `mode` is
0x04 .. 0x07 (10_state.md R14, R15; bit positions log 11). -/
def Obligations.StepKeepsTheRegistersLegal : Prop :=
  ∀ s t : State, RegistersInv s → step s = .next t →
    RegistersInv t ∧
    (t.live = true → t.seq = [] →
      0x08 ≤ t.control.toNat ∧ t.control.toNat ≤ 0x0F ∧ 0x04 ≤ t.mode.toNat ∧ t.mode.toNat ≤ 0x07)

/-- Every step keeps the lines at rest between operations: on a live device in `IDLE`, EN is 0 and RW, where it
exists, is at its write level (10_state.md R31; 42_bus_transmitter.md R115; 43_busy_poller.md R128;
the RW level log 11). -/
def Obligations.StepKeepsTheLinesAtRest : Prop :=
  ∀ s t : State, RestInv s → step s = .next t →
    RestInv t ∧
    (t.live = true → t.seq = [] →
      t.pins.en.level = false ∧ (t.cfg.busyPoll = true → t.pins.rw.level = false))

/-- With a controller that clears in every poll the request makes, after any counts `ks` of busy answers, every
well-formed request on a ready device ends with the status `OK`, and so does a CREATE with both lists and a free
slot; it takes no more further steps than there are busy answers (60_exceptions.md R178; 43_busy_poller.md R129;
what a step is, log 2). -/
def Obligations.RequestsEndWithOkWhenTheControllerClears : Prop :=
  ∀ (i : Instr) (s : State) (ks : List Nat), s.resets = [] → Instr.wellFormed i = true →
    requestPolls s.cfg i ≤ ks.length → Clears ks s →
    ((Ready s ∧ Instr.needsLive i = true) ∨
      (s.live = false ∧ s.seq = [] ∧ s.othersLive < s.cfg.maxDevices ∧ ∃ config, i = .create config true true)) →
    ∃ (s1 : State) (n : Nat) (t : State), exec i s = .next s1 ∧ n ≤ ks.sum ∧
      Sys2Proof.core.run n s1 = .next t ∧ t.seq = [] ∧ t.status = some .ok ∧ t.live = true

/-- The busy answers delay and do nothing else: two runs of one request that differ in the answers alone and both
come to `IDLE` leave the same registers, pins, scratch and status and put the same transfers on the bus
(10_state.md R23; 20_memory.md R50; 30_encoding.md R69). RW low at the start is the write level (log 11). -/
def Obligations.BusyAnswersOnlyDelay : Prop :=
  ∀ (i : Instr) (s : State) (answers : List Bool) (polls : Nat) (s1 s1' t t' : State) (n n' : Nat),
    Instr.isRequest i = true → s.resets = [] → s.port = [] → s.pins.rw.level = false →
    exec i s = .next s1 → Sys2Proof.core.run n s1 = .next t → t.seq = [] →
    exec i { s with answers := answers, polls := polls } = .next s1' →
    Sys2Proof.core.run n' s1' = .next t' → t'.seq = [] →
    t.live = t'.live ∧ t.width = t'.width ∧ t.control = t'.control ∧ t.mode = t'.mode ∧ t.pins = t'.pins ∧
    t.status = t'.status ∧ t.scratch = t'.scratch ∧ newTransfers s t = newTransfers s t'

/-- A reset `n + 1` events ahead breaks the step off after exactly these events, wherever in an operation they end,
and takes effect there; a step with fewer events brings it nearer by them (70_reset_and_hazards.md R195, R205; that a
reset is given as a number of events is the model's choice, log 16). -/
def Obligations.ResetBreaksTheStepOff : Prop :=
  ∀ (s t : State) (n : Nat) (later : List Nat), s.resets = (n + 1) :: later →
    step { s with resets := [] } = .next t →
    ((newEvents s t).length ≤ n →
      step s = .next { t with resets := (n + 1 - (newEvents s t).length) :: later }) ∧
    (n < (newEvents s t).length →
      ∃ r, step s = .next r ∧ r.live = false ∧ r.seq = [] ∧ r.trace = [] ∧ r.status = none ∧ r.resets = later ∧
        r.past = (s.trace ++ (newEvents s t).take (n + 1)) :: s.past ∧
        r.cfg = s.cfg ∧ r.othersLive = s.othersLive ∧ r.port = t.port)

/-- A reset can fall between the two nibbles of a byte: a PUTC with `W = 4` reset after eight events has put its high
nibble on the bus and not its low one, and leaves the device free (70_reset_and_hazards.md R205; a reset as a number of
events is the model's choice, log 16; RW low is the write level, log 11). -/
def Obligations.ResetCanSplitAByte : Prop :=
  ∀ (c : Byte) (s : State) (more : List HostAct) (later : List Nat), Ready s → s.width = .four →
    s.cfg.busyPoll = false → s.pins.rw.level = false →
    s.port = .request ⟨reqWord 0xC c 0 0, []⟩ :: more → s.resets = 8 :: later →
    ∃ (r : State) (es : List Event), step s = .next r ∧ r.live = false ∧ r.seq = [] ∧ r.port = more ∧
      r.past = (s.trace ++ es) :: s.past ∧ transfers .four s.pins es = [⟨true, c >>> 4⟩]
end

