-- ==== Sys2Proof/Laws/Decode.lean ====
section
/-! SUPPORT. The fields of a request word that `reqWord` puts together. -/

namespace Sys2Proof

section ReqWord
variable (o : BitVec 4) (a b : Byte) (n : BitVec 32)

/-- A bit of a request word by its field (30_encoding.md R60). -/
theorem getLsbD_reqWord (i : Nat) : (reqWord o a b n).getLsbD i =
    if i < 32 then n.getLsbD i
    else if i < 40 then b.getLsbD (i - 32)
    else if i < 48 then a.getLsbD (i - 40)
    else o.getLsbD (i - 48) := by
  have h : (reqWord o a b n).getLsbD i = BitVec.getLsbD (w := 4 + 8 + 8 + 32) (o ++ a ++ b ++ n) i := rfl
  rw [h, BitVec.getLsbD_append, BitVec.getLsbD_append, BitVec.getLsbD_append]
  grind

@[simp] theorem reqOp_reqWord : reqOp (reqWord o a b n) = o := by
  ext i hi
  have h : ¬ 48 + i < 32 ∧ ¬ 48 + i < 40 ∧ ¬ 48 + i < 48 := by omega
  simp [reqOp, BitVec.getElem_extractLsb', getLsbD_reqWord, h, BitVec.getLsbD_eq_getElem hi]

@[simp] theorem reqA_reqWord : reqA (reqWord o a b n) = a := by
  ext i hi
  have h : ¬ 40 + i < 32 ∧ ¬ 40 + i < 40 ∧ 40 + i < 48 := by omega
  simp [reqA, BitVec.getElem_extractLsb', getLsbD_reqWord, h, BitVec.getLsbD_eq_getElem hi]

@[simp] theorem reqB_reqWord : reqB (reqWord o a b n) = b := by
  ext i hi
  have h : ¬ 32 + i < 32 ∧ 32 + i < 40 := by omega
  simp [reqB, BitVec.getElem_extractLsb', getLsbD_reqWord, h, BitVec.getLsbD_eq_getElem hi]

@[simp] theorem reqN_reqWord : reqN (reqWord o a b n) = n := by
  ext i hi
  simp [reqN, BitVec.getElem_extractLsb', getLsbD_reqWord, hi]

end ReqWord

end Sys2Proof
end

