-- ==== Sys2Proof/Laws/State.lean ====
section
/-! SUPPORT. One lemma per field per named update of the state, and per line per update of the pins: no later
proof unfolds an update. -/

namespace Sys2Proof.Machine

section Emit
variable (s : State) (e : Event)
@[simp] theorem State.emit_cfg : (s.emit e).cfg = s.cfg := rfl
@[simp] theorem State.emit_live : (s.emit e).live = s.live := rfl
@[simp] theorem State.emit_width : (s.emit e).width = s.width := rfl
@[simp] theorem State.emit_control : (s.emit e).control = s.control := rfl
@[simp] theorem State.emit_mode : (s.emit e).mode = s.mode := rfl
@[simp] theorem State.emit_pins : (s.emit e).pins = s.pins := rfl
@[simp] theorem State.emit_seq : (s.emit e).seq = s.seq := rfl
@[simp] theorem State.emit_status : (s.emit e).status = s.status := rfl
@[simp] theorem State.emit_busy : (s.emit e).busy = s.busy := rfl
@[simp] theorem State.emit_scratch : (s.emit e).scratch = s.scratch := rfl
@[simp] theorem State.emit_othersLive : (s.emit e).othersLive = s.othersLive := rfl
@[simp] theorem State.emit_resets : (s.emit e).resets = s.resets := rfl
@[simp] theorem State.emit_past : (s.emit e).past = s.past := rfl
@[simp] theorem State.emit_port : (s.emit e).port = s.port := rfl
@[simp] theorem State.emit_answers : (s.emit e).answers = s.answers := rfl
@[simp] theorem State.emit_polls : (s.emit e).polls = s.polls := rfl
@[simp] theorem State.emit_log : (s.emit e).log = e :: s.log := rfl
@[simp] theorem State.emit_trace : (s.emit e).trace = s.trace ++ [e] := by
  simp [State.trace]
end Emit

section Record
variable (s : State) (es : List Event)
@[simp] theorem State.record_cfg : (s.record es).cfg = s.cfg := rfl
@[simp] theorem State.record_live : (s.record es).live = s.live := rfl
@[simp] theorem State.record_width : (s.record es).width = s.width := rfl
@[simp] theorem State.record_control : (s.record es).control = s.control := rfl
@[simp] theorem State.record_mode : (s.record es).mode = s.mode := rfl
@[simp] theorem State.record_pins : (s.record es).pins = s.pins := rfl
@[simp] theorem State.record_seq : (s.record es).seq = s.seq := rfl
@[simp] theorem State.record_status : (s.record es).status = s.status := rfl
@[simp] theorem State.record_busy : (s.record es).busy = s.busy := rfl
@[simp] theorem State.record_scratch : (s.record es).scratch = s.scratch := rfl
@[simp] theorem State.record_othersLive : (s.record es).othersLive = s.othersLive := rfl
@[simp] theorem State.record_resets : (s.record es).resets = s.resets := rfl
@[simp] theorem State.record_past : (s.record es).past = s.past := rfl
@[simp] theorem State.record_port : (s.record es).port = s.port := rfl
@[simp] theorem State.record_answers : (s.record es).answers = s.answers := rfl
@[simp] theorem State.record_polls : (s.record es).polls = s.polls := rfl
@[simp] theorem State.record_trace : (s.record es).trace = s.trace ++ es := by
  simp [State.trace, State.record]
theorem State.record_record (es' : List Event) : (s.record es).record es' = s.record (es ++ es') := by
  simp [State.record]
@[simp] theorem State.record_nil : s.record [] = s := rfl
theorem State.emit_eq_record (e : Event) : s.emit e = s.record [e] := rfl
end Record

section Moved
variable (s : State) (p : Pins) (es : List Event)
@[simp] theorem State.moved_cfg : (s.moved p es).cfg = s.cfg := rfl
@[simp] theorem State.moved_live : (s.moved p es).live = s.live := rfl
@[simp] theorem State.moved_width : (s.moved p es).width = s.width := rfl
@[simp] theorem State.moved_control : (s.moved p es).control = s.control := rfl
@[simp] theorem State.moved_mode : (s.moved p es).mode = s.mode := rfl
@[simp] theorem State.moved_seq : (s.moved p es).seq = s.seq := rfl
@[simp] theorem State.moved_status : (s.moved p es).status = s.status := rfl
@[simp] theorem State.moved_busy : (s.moved p es).busy = s.busy := rfl
@[simp] theorem State.moved_scratch : (s.moved p es).scratch = s.scratch := rfl
@[simp] theorem State.moved_othersLive : (s.moved p es).othersLive = s.othersLive := rfl
@[simp] theorem State.moved_resets : (s.moved p es).resets = s.resets := rfl
@[simp] theorem State.moved_past : (s.moved p es).past = s.past := rfl
@[simp] theorem State.moved_port : (s.moved p es).port = s.port := rfl
@[simp] theorem State.moved_answers : (s.moved p es).answers = s.answers := rfl
@[simp] theorem State.moved_polls : (s.moved p es).polls = s.polls := rfl
@[simp] theorem State.moved_pins : (s.moved p es).pins = p := rfl
@[simp] theorem State.moved_trace : (s.moved p es).trace = s.trace ++ es := State.record_trace _ es
theorem State.moved_moved (q : Pins) (fs : List Event) : (s.moved p es).moved q fs = s.moved q (es ++ fs) := by
  simp [State.moved, State.record]
theorem State.moved_record (fs : List Event) : (s.moved p es).record fs = s.moved p (es ++ fs) := by
  simp [State.moved, State.record]
theorem State.record_moved (fs : List Event) : (s.record fs).moved p es = s.moved p (fs ++ es) := by
  simp [State.moved, State.record]
end Moved

section Completed
variable (s : State) (st : Status)
@[simp] theorem State.completed_cfg : (s.completed st).cfg = s.cfg := rfl
@[simp] theorem State.completed_live : (s.completed st).live = s.live := rfl
@[simp] theorem State.completed_width : (s.completed st).width = s.width := rfl
@[simp] theorem State.completed_control : (s.completed st).control = s.control := rfl
@[simp] theorem State.completed_mode : (s.completed st).mode = s.mode := rfl
@[simp] theorem State.completed_pins : (s.completed st).pins = s.pins := rfl
@[simp] theorem State.completed_seq : (s.completed st).seq = s.seq := rfl
@[simp] theorem State.completed_busy : (s.completed st).busy = s.busy := rfl
@[simp] theorem State.completed_scratch : (s.completed st).scratch = s.scratch := rfl
@[simp] theorem State.completed_othersLive : (s.completed st).othersLive = s.othersLive := rfl
@[simp] theorem State.completed_resets : (s.completed st).resets = s.resets := rfl
@[simp] theorem State.completed_past : (s.completed st).past = s.past := rfl
@[simp] theorem State.completed_port : (s.completed st).port = s.port := rfl
@[simp] theorem State.completed_answers : (s.completed st).answers = s.answers := rfl
@[simp] theorem State.completed_polls : (s.completed st).polls = s.polls := rfl
@[simp] theorem State.completed_log : (s.completed st).log = s.log := rfl
@[simp] theorem State.completed_status : (s.completed st).status = some st := rfl
@[simp] theorem State.completed_trace : (s.completed st).trace = s.trace := rfl
end Completed

section TakeAnswers
variable (s : State) (n : Nat)
@[simp] theorem State.takeAnswers_cfg : (s.takeAnswers n).cfg = s.cfg := rfl
@[simp] theorem State.takeAnswers_live : (s.takeAnswers n).live = s.live := rfl
@[simp] theorem State.takeAnswers_width : (s.takeAnswers n).width = s.width := rfl
@[simp] theorem State.takeAnswers_control : (s.takeAnswers n).control = s.control := rfl
@[simp] theorem State.takeAnswers_mode : (s.takeAnswers n).mode = s.mode := rfl
@[simp] theorem State.takeAnswers_pins : (s.takeAnswers n).pins = s.pins := rfl
@[simp] theorem State.takeAnswers_seq : (s.takeAnswers n).seq = s.seq := rfl
@[simp] theorem State.takeAnswers_status : (s.takeAnswers n).status = s.status := rfl
@[simp] theorem State.takeAnswers_busy : (s.takeAnswers n).busy = s.busy := rfl
@[simp] theorem State.takeAnswers_scratch : (s.takeAnswers n).scratch = s.scratch := rfl
@[simp] theorem State.takeAnswers_othersLive : (s.takeAnswers n).othersLive = s.othersLive := rfl
@[simp] theorem State.takeAnswers_resets : (s.takeAnswers n).resets = s.resets := rfl
@[simp] theorem State.takeAnswers_past : (s.takeAnswers n).past = s.past := rfl
@[simp] theorem State.takeAnswers_port : (s.takeAnswers n).port = s.port := rfl
@[simp] theorem State.takeAnswers_log : (s.takeAnswers n).log = s.log := rfl
@[simp] theorem State.takeAnswers_trace : (s.takeAnswers n).trace = s.trace := rfl

/-- Taking `n` answers moves the stream on by `n`. -/
@[simp] theorem State.takeAnswers_answerAt (k : Nat) : (s.takeAnswers n).answerAt k = s.answerAt (n + k) := by
  simp only [State.answerAt, State.takeAnswers, List.getElem?_drop]
  cases s.answers[n + k]? <;> simp [Nat.add_assoc]

theorem State.takeAnswers_takeAnswers (m : Nat) :
    (s.takeAnswers n).takeAnswers m = s.takeAnswers (n + m) := by
  simp [State.takeAnswers, Nat.add_assoc]
end TakeAnswers

/-- An answer depends on the answers and the count alone. -/
theorem State.answerAt_congr {s t : State} (ha : t.answers = s.answers) (hp : t.polls = s.polls) (n : Nat) :
    t.answerAt n = s.answerAt n := by
  simp [State.answerAt, ha, hp]

section Pins
variable (p : Pins)

/-- One replaced bit: the others stay. -/
theorem getLsbD_setBit (x : BitVec 8) (i j : Nat) (hi : i < 8) (b : Bool) :
    (setBit x i b).getLsbD j = if j = i then b else x.getLsbD j := by
  by_cases hj : j < 8
  · have h8 : i = 0 ∨ i = 1 ∨ i = 2 ∨ i = 3 ∨ i = 4 ∨ i = 5 ∨ i = 6 ∨ i = 7 := by omega
    have j8 : j = 0 ∨ j = 1 ∨ j = 2 ∨ j = 3 ∨ j = 4 ∨ j = 5 ∨ j = 6 ∨ j = 7 := by omega
    rcases h8 with rfl | rfl | rfl | rfl | rfl | rfl | rfl | rfl <;>
      rcases j8 with rfl | rfl | rfl | rfl | rfl | rfl | rfl | rfl <;> cases b <;> simp [setBit]
  · have : ¬ j = i := by omega
    simp [this, BitVec.getLsbD_of_ge _ _ (by omega : 8 ≤ j)]

/-- The same with the index in range. -/
theorem getElem_setBit (x : BitVec 8) (i j : Nat) (hi : i < 8) (hj : j < 8) (b : Bool) :
    (setBit x i b)[j] = if j = i then b else x[j] := by
  simpa [BitVec.getLsbD_eq_getElem hj] using getLsbD_setBit x i j hi b

/-- A line's level after a latch is replaced (10_state.md R21). -/
@[simp] theorem Pins.level_setLevel (l l' : Line) (v : Bool) :
    (p.setLevel l v).level l' = if l' = l then v else p.level l' := by
  cases l <;> cases l' <;> simp [Pins.setLevel, Pins.level, getElem_setBit, Fin.ext_iff]

/-- No direction changes with a latch. -/
@[simp] theorem Pins.dir_setLevel (l l' : Line) (v : Bool) : (p.setLevel l v).dir l' = p.dir l' := by
  cases l <;> cases l' <;> rfl

/-- A line's direction after one is replaced (10_state.md R21). -/
@[simp] theorem Pins.dir_setDir (l l' : Line) (d : Dir) :
    (p.setDir l d).dir l' = if l' = l then d else p.dir l' := by
  cases l <;> cases l' <;> simp [Pins.setDir, Pins.dir, getElem_setBit, Fin.ext_iff]
  split <;> cases d <;> simp

/-- No latch changes with a direction. -/
@[simp] theorem Pins.level_setDir (l l' : Line) (d : Dir) : (p.setDir l d).level l' = p.level l' := by
  cases l <;> cases l' <;> rfl

/-- Lines are told apart by their levels and directions: pins that agree on every line are equal. -/
theorem Pins.ext_lines {p q : Pins} (hl : ∀ l, p.level l = q.level l) (hd : ∀ l, p.dir l = q.dir l) : p = q := by
  obtain ⟨⟨a, a'⟩, ⟨b, b'⟩, ⟨c, c'⟩, x, y⟩ := p
  obtain ⟨⟨d, d'⟩, ⟨e, e'⟩, ⟨f, f'⟩, x', y'⟩ := q
  have h1 := hl .rs; have h2 := hl .rw; have h3 := hl .en
  have h4 := hd .rs; have h5 := hd .rw; have h6 := hd .en
  simp only [Pins.level, Pins.dir] at h1 h2 h3 h4 h5 h6
  subst h1 h2 h3 h4 h5 h6
  have hx : x = x' := by
    apply BitVec.eq_of_getLsbD_eq
    intro i hi
    exact hl (.d ⟨i, hi⟩)
  have hy : y = y' := by
    apply BitVec.eq_of_getLsbD_eq
    intro i hi
    have := hd (.d ⟨i, hi⟩)
    simp only [Pins.dir] at this
    revert this
    cases y.getLsbD i <;> cases y'.getLsbD i <;> simp
  subst hx hy
  rfl
end Pins

end Sys2Proof.Machine
end

