-- ==== Sys2Proof/Laws/Ops.lean ====
section
/-! SUPPORT. What each shared operation does, said once: the primitives, the sequencer, the procedures. -/

namespace Sys2Proof.Machine

/-- `PinSet` on an output. -/
theorem pinSet_output {l : Line} {v : Bool} {s : State} (h : s.pins.dir l = .output) :
    pinSet l v s = .done (s.moved (s.pins.setLevel l v) [.set l v]) := by
  rw [pinSet, if_pos h]; rfl

/-- `PinGet` on an input. -/
theorem pinGet_input {l : Line} {a : Bool} {s : State} (h : s.pins.dir l = .input) :
    pinGet l a s = .done (State.record { s with busy := a } [.get l a]) := by
  rw [pinGet, if_pos h]; rfl

/-! ### The sequencer -/

@[simp] theorem perform_nil (s : State) : perform [] s = .next s := rfl

/-- An item that is done hands on to the rest. -/
theorem perform_done {m : Micro} {rest : List Micro} {s t : State} (h : runMicro m s = .done t) :
    perform (m :: rest) s = perform rest t := by
  rw [perform, h]

/-- An item to be done again ends the step with the rest waiting. -/
theorem perform_again {m : Micro} {rest : List Micro} {s t : State} (h : runMicro m s = .again t) :
    perform (m :: rest) s = .next { t with seq := m :: rest ++ t.seq } := by
  rw [perform, h]

/-- A `PinSet` item on an output. -/
theorem perform_pinSet {l : Line} {v : Bool} {rest : List Micro} {s : State} (h : s.pins.dir l = .output) :
    perform (.pinSet l v :: rest) s
      = perform rest (s.moved (s.pins.setLevel l v) [.set l v]) :=
  perform_done (pinSet_output h)

/-- A `PinDir` item. -/
theorem perform_pinDir {l : Line} {d : Dir} {rest : List Micro} {s : State} :
    perform (.pinDir l d :: rest) s = perform rest (s.turned l d) :=
  perform_done rfl

/-- A `Wait` item. -/
theorem perform_wait {t : Nat} {rest : List Micro} {s : State} :
    perform (.wait t :: rest) s = perform rest (s.waited t) :=
  perform_done rfl

/-- A store into `control`. -/
theorem perform_loadControl {v : Byte} {rest : List Micro} {s : State} :
    perform (.loadControl v :: rest) s = perform rest { s with control := v } :=
  perform_done rfl

/-- A store into `mode`. -/
theorem perform_loadMode {v : Byte} {rest : List Micro} {s : State} :
    perform (.loadMode v :: rest) s = perform rest { s with mode := v } :=
  perform_done rfl

/-- A store into PUTI's scratch. -/
theorem perform_loadScratch {p : Scratch} {rest : List Micro} {s : State} :
    perform (.loadScratch p :: rest) s = perform rest { s with scratch := p } :=
  perform_done rfl

/-- The last item of a request. -/
theorem perform_finish {st : Status} {rest : List Micro} {s : State} :
    perform (.finish st :: rest) s = perform rest (s.completed st) :=
  perform_done rfl

/-! ### Lines of the device -/

theorem dir_rs (s : State) (h : Driven s) : s.pins.dir .rs = .output := h _ (by simp [deviceLines])

theorem dir_en (s : State) (h : Driven s) : s.pins.dir .en = .output := h _ (by simp [deviceLines])

theorem dir_rw (s : State) (h : Driven s) (hp : s.cfg.busyPoll = true) : s.pins.dir .rw = .output :=
  h _ (by simp [deviceLines, hp])

theorem dir_data (s : State) (h : Driven s) {i : Fin 8} (hi : i ∈ dataLines s.width) :
    s.pins.dir (.d i) = .output := h _ (by simp [deviceLines, hi])

/-- Being driven depends on the directions, the parameters and the width alone. -/
theorem Driven.congr {s t : State} (h : Driven s) (hc : t.cfg = s.cfg) (hw : t.width = s.width)
    (hd : ∀ l, t.pins.dir l = s.pins.dir l) : Driven t := by
  intro l hl
  rw [hd l]
  exact h l (by rwa [hc, hw] at hl)

/-- Being quiet depends on the parameters and the answers alone. -/
theorem Quiet.congr {n : Nat} {s t : State} (h : Quiet n s) (hc : t.cfg = s.cfg)
    (ha : t.answers = s.answers) (hp : t.polls = s.polls) : Quiet n t := by
  intro hb k hk
  rw [State.answerAt_congr ha hp]
  exact h (hc ▸ hb) k hk

theorem Quiet.mono {m n : Nat} {s : State} (h : Quiet n s) (hm : m ≤ n) : Quiet m s :=
  fun hb k hk => h hb k (by omega)

/-! ### WriteValue -/

/-- The bits of a value set one by one. -/
theorem onLines_bits (x : BitVec 8) (v : Nat) :
    setBit (setBit (setBit (setBit x 0 (v.testBit 0)) 1 (v.testBit 1)) 2 (v.testBit 2)) 3 (v.testBit 3)
      = onLines .four x v ∧
    setBit (setBit (setBit (setBit (setBit (setBit (setBit (setBit x 0 (v.testBit 0)) 1 (v.testBit 1)) 2
      (v.testBit 2)) 3 (v.testBit 3)) 4 (v.testBit 4)) 5 (v.testBit 5)) 6 (v.testBit 6)) 7 (v.testBit 7)
      = onLines .eight x v := by
  have key : ∀ i, i < 8 → i = 0 ∨ i = 1 ∨ i = 2 ∨ i = 3 ∨ i = 4 ∨ i = 5 ∨ i = 6 ∨ i = 7 := by omega
  constructor <;> apply BitVec.eq_of_getLsbD_eq <;> intro i hi <;>
    simp only [getLsbD_setBit _ _ _ (by omega : (0 : Nat) < 8), getLsbD_setBit _ _ _ (by omega : (1 : Nat) < 8),
      getLsbD_setBit _ _ _ (by omega : (2 : Nat) < 8), getLsbD_setBit _ _ _ (by omega : (3 : Nat) < 8),
      getLsbD_setBit _ _ _ (by omega : (4 : Nat) < 8), getLsbD_setBit _ _ _ (by omega : (5 : Nat) < 8),
      getLsbD_setBit _ _ _ (by omega : (6 : Nat) < 8), getLsbD_setBit _ _ _ (by omega : (7 : Nat) < 8),
      onLines, lineMask, BitVec.getLsbD_or, BitVec.getLsbD_and, BitVec.getLsbD_not, BitVec.getLsbD_ofNat] <;>
    rcases key i hi with rfl | rfl | rfl | rfl | rfl | rfl | rfl | rfl <;> simp

/-- The data lines driven one after the other. -/
theorem perform_dataItems {v : Nat} {is : List (Fin 8)} {rest : List Micro} {s : State}
    (h : ∀ i ∈ is, s.pins.dir (.d i) = .output) :
    perform (is.map (fun i => .pinSet (.d i) (v.testBit i)) ++ rest) s
      = perform rest (s.moved (is.foldl (fun p i => p.setLevel (.d i) (v.testBit i)) s.pins)
          (is.map fun i => .set (.d i) (v.testBit i))) := by
  induction is generalizing s with
  | nil => rfl
  | cons i is ih =>
    rw [List.map_cons, List.cons_append, perform_pinSet (h i (by simp)),
      ih (fun j hj => by simpa using h j (by simp [hj])), State.moved_moved]
    rfl

/-- Driving data lines changes their latches alone. -/
theorem foldl_setLevel (p : Pins) (is : List (Fin 8)) (f : Nat → Bool) :
    is.foldl (fun p i => p.setLevel (.d i) (f i)) p
      = { p with data := is.foldl (fun x i => setBit x i (f i)) p.data } := by
  induction is generalizing p with
  | nil => rfl
  | cons i is ih => rw [List.foldl_cons, ih]; rfl

/-- The latches after the data lines of a width are driven (20_memory.md R44). -/
theorem setLevel_dataLines (p : Pins) (w : Width) (v : Nat) :
    (dataLines w).foldl (fun p i => p.setLevel (.d i) (v.testBit i)) p = { p with data := onLines w p.data v } := by
  rw [foldl_setLevel p _ v.testBit]
  obtain ⟨b4, b8⟩ := onLines_bits p.data v
  cases w
  · rw [← b4]; simp [dataLines]
  · rw [← b8]; simp [dataLines]

/-- EN high, the wait, EN low, then the rest. -/
theorem perform_pulse {t : Nat} {rest : List Micro} {s : State} (hen : s.pins.dir .en = .output) :
    perform (.pinSet .en true :: .wait t :: .pinSet .en false :: rest) s
      = perform rest (s.moved { s.pins with en := { s.pins.en with level := false } }
          [.set .en true, .wait t, .set .en false]) := by
  rw [perform_pinSet hen, perform_wait, State.waited, State.moved_record,
    perform_pinSet (by simpa using hen), State.moved_moved]
  rfl

/-- `WriteValue(v)` on driven lines: the state `afterWrite` names, then the rest (42_bus_transmitter.md R115). -/
theorem perform_writeItems {v : Nat} {rest : List Micro} {s : State} (h : Driven s) :
    perform (writeItems s.cfg s.width v ++ rest) s = perform rest (s.afterWrite v) := by
  rw [writeItems, List.append_assoc, perform_dataItems (fun i hi => dir_data s h hi), setLevel_dataLines]
  simp only [List.cons_append, List.nil_append]
  rw [perform_pulse (by exact dir_en s h), State.moved_moved]
  rfl

/-- What `WriteValue` leaves alone. -/
theorem Driven.afterWrite {s : State} (h : Driven s) (v : Nat) : Driven (s.afterWrite v) := by
  refine h.congr rfl rfl fun l => ?_
  cases l <;> rfl

theorem Quiet.afterWrite {n : Nat} {s : State} (h : Quiet n s) (v : Nat) : Quiet n (s.afterWrite v) :=
  h.congr rfl rfl rfl

/-! ### The poll -/

/-- An enable pulse with nothing sampled. -/
theorem emptyPulse_done {s : State} (hen : s.pins.dir .en = .output) :
    emptyPulse s = .done (s.moved { s.pins with en := { s.pins.en with level := false } }
      [.set .en true, .wait s.cfg.tEn, .set .en false]) := by
  rw [emptyPulse, pinSet_output hen, MicroResult.andThen, waitFor, MicroResult.andThen,
    State.emit_eq_record, State.moved_record, pinSet_output (by simpa using hen), State.moved_moved]
  rfl

/-- One poll iteration on a line set with `MSB` an input and EN an output (43_busy_poller.md R127). -/
theorem pollIteration_done {a : Bool} {s : State} (hen : s.pins.dir .en = .output)
    (hm : s.pins.dir (msbLine s.width) = .input) :
    pollIteration a s = .done (State.moved { s with busy := a }
      { s.pins with en := { s.pins.en with level := false } } (pollEvents s.cfg s.width a)) := by
  rw [pollIteration, pinSet_output hen, MicroResult.andThen, waitFor, MicroResult.andThen,
    State.emit_eq_record, State.moved_record, pinGet_input (by simpa using hm), MicroResult.andThen,
    pinSet_output (by simpa using hen), MicroResult.andThen]
  have key : ∀ w, s.width = w → (match w with
      | .four => emptyPulse (State.moved { s with busy := a } { s.pins with en := { s.pins.en with level := false } }
          [.set .en true, .wait s.cfg.tEn, .get (msbLine w) a, .set .en false])
      | .eight => .done (State.moved { s with busy := a } { s.pins with en := { s.pins.en with level := false } }
          [.set .en true, .wait s.cfg.tEn, .get (msbLine w) a, .set .en false]))
      = MicroResult.done (State.moved { s with busy := a }
        { s.pins with en := { s.pins.en with level := false } } (pollEvents s.cfg w a)) := by
    intro w _
    cases w
    · simp only
      rw [emptyPulse_done (by exact hen), State.moved_moved]; rfl
    · rfl
  exact key s.width rfl

/-- The poll loop answered 0: the step goes on (43_busy_poller.md R127). -/
theorem perform_poll_ready {rest : List Micro} {s : State} (hen : s.pins.dir .en = .output)
    (hm : s.pins.dir (msbLine s.width) = .input) (ha : s.answerAt 0 = false) :
    perform (.poll :: rest) s = perform rest (State.moved { s.takeAnswers 1 with busy := false }
      { s.pins with en := { s.pins.en with level := false } } (pollEvents s.cfg s.width false)) := by
  apply perform_done
  rw [runMicro, pollLoop, ha, pollIteration_done (by simpa using hen) (by simpa using hm)]
  simp [MicroResult.andThen]

/-- The poll loop answered 1: the step ends with the loop still to do (43_busy_poller.md R129). -/
theorem perform_poll_busy {rest : List Micro} {s : State} (hen : s.pins.dir .en = .output)
    (hm : s.pins.dir (msbLine s.width) = .input) (ha : s.answerAt 0 = true) :
    perform (.poll :: rest) s = .next (State.moved { s.takeAnswers 1 with busy := true, seq := .poll :: rest ++ s.seq }
      { s.pins with en := { s.pins.en with level := false } } (pollEvents s.cfg s.width true)) := by
  rw [perform_again (t := State.moved { s.takeAnswers 1 with busy := true }
    { s.pins with en := { s.pins.en with level := false } } (pollEvents s.cfg s.width true))]
  · rfl
  · rw [runMicro, pollLoop, ha, pollIteration_done (by simpa using hen) (by simpa using hm)]
    simp [MicroResult.andThen]

/-- Turning an output line to input and back leaves its direction bit as it was. -/
theorem setBit_setBit_getLsbD (x : BitVec 8) (i : Nat) (hi : i < 8) (b : Bool) (h : x.getLsbD i = true) :
    setBit (setBit x i b) i true = x := by
  apply BitVec.eq_of_getLsbD_eq
  intro j _
  rw [getLsbD_setBit _ _ _ hi, getLsbD_setBit _ _ _ hi]
  split
  · subst_vars; exact h.symm
  · rfl

theorem setDir_setDir_msb (p : Pins) (w : Width) (d : Dir) (h : p.dir (msbLine w) = .output) :
    (p.setDir (msbLine w) d).setDir (msbLine w) .output = p := by
  have hb : ∀ i : Fin 8, p.dir (.d i) = .output → p.dataOut.getLsbD i = true := by
    intro i hi
    simp only [Pins.dir] at hi
    revert hi
    cases p.dataOut.getLsbD i <;> simp
  cases w <;>
  · simp only [msbLine] at h ⊢
    simp only [Pins.setDir, beq_self_eq_true]
    rw [setBit_setBit_getLsbD _ _ (by decide) _ (hb _ h)]

/-- The pins after a whole poll: RS 0, RW at write, EN 0, every direction as before. -/
theorem pins_afterPoll (p : Pins) (w : Width) (h : p.dir (msbLine w) = .output) :
    let q := ((p.setLevel .rs false).setLevel .rw rwRead).setDir (msbLine w) .input
    (({ q with en := { q.en with level := false } } : Pins).setDir (msbLine w) .output).setLevel .rw rwWrite
      = { p with
          rs := { p.rs with level := false }
          rw := { p.rw with level := rwWrite }
          en := { p.en with level := false } } := by
  have e := congrArg Pins.dataOut (setDir_setDir_msb p w .input h)
  cases w <;>
  · simp only [msbLine, Pins.setDir] at e
    simp only [msbLine, Pins.setDir, Pins.setLevel, e]

theorem dir_msb (s : State) (h : Driven s) : s.pins.dir (msbLine s.width) = .output := by
  have : ∃ i ∈ dataLines s.width, msbLine s.width = .d i := by
    cases s.width <;> simp [msbLine, dataLines]
  obtain ⟨i, hi, he⟩ := this
  rw [he]
  exact dir_data s h hi

theorem msbLine_ne (w : Width) : Line.rs ≠ msbLine w ∧ Line.rw ≠ msbLine w ∧ Line.en ≠ msbLine w := by
  cases w <;> simp [msbLine]

/-- EN to 0 changes no direction. -/
@[simp] theorem Pins.dir_enLow (p : Pins) (l : Line) :
    Pins.dir { p with en := { p.en with level := false } } l = p.dir l := by cases l <;> rfl

/-- `BusyWait()` answered 0 at once: the state `afterBusyWait` names, then the rest (43_busy_poller.md R130). -/
theorem perform_busyWaitItems {rest : List Micro} {s : State} (h : Driven s) (hp : s.cfg.busyPoll = true)
    (ha : s.answerAt 0 = false) :
    perform (busyWaitItems s.width ++ rest) s = perform rest (s.afterBusyWait 0) := by
  obtain ⟨-, n2, n3⟩ := msbLine_ne s.width
  simp only [busyWaitItems, List.cons_append, List.nil_append]
  rw [perform_pinSet (dir_rs s h), perform_pinSet (by simpa using dir_rw s h hp), State.moved_moved,
    perform_pinDir, State.turned, State.moved_moved,
    perform_poll_ready (by simpa [n3] using dir_en s h) (by simp)
      (by exact (State.answerAt_congr (s := s) rfl rfl 0).trans ha),
    perform_pinDir, State.turned, State.moved_moved,
    perform_pinSet (by simpa [n2] using dir_rw s h hp), State.moved_moved]
  congr 1
  have e := pins_afterPoll s.pins s.width (dir_msb s h)
  simp only [State.moved_pins] at e ⊢
  rw [e]
  simp [State.afterBusyWait, State.moved, State.record, State.takeAnswers, busyWaitEvents]

theorem Driven.afterBusyWait {s : State} (h : Driven s) (k : Nat) : Driven (s.afterBusyWait k) := by
  refine h.congr rfl rfl fun l => ?_
  cases l <;> rfl

/-! ### Send -/

/-- A second nibble on the four lines replaces the first. -/
theorem onLines_onLines (w : Width) (x : BitVec 8) (a b : Nat) : onLines w (onLines w x a) b = onLines w x b := by
  apply BitVec.eq_of_getLsbD_eq
  intro i hi
  simp only [onLines, BitVec.getLsbD_or, BitVec.getLsbD_and, BitVec.getLsbD_not]
  cases (lineMask w).getLsbD i <;> simp [hi]

/-- The low nibble of a value is all that four lines show of it. -/
theorem writeEvents_mod (c : Config) (v : Nat) : writeEvents c .four (v % 16) = writeEvents c .four v := by
  have : ∀ i < 4, (v % 16).testBit i = v.testBit i := by
    intro i hi
    rw [show (16 : Nat) = 2 ^ 4 from rfl, Nat.testBit_mod_two_pow]
    simp [hi]
  simp [writeEvents, dataLines, this]

/-- RS and the transfers of one byte, then the rest (42_bus_transmitter.md R117). -/
theorem perform_byteItems {kind : Kind} {v : Byte} {rest : List Micro} {s : State} (h : Driven s) :
    perform (.pinSet .rs (rsLevel kind) :: (byteItems s.cfg s.width v ++ rest)) s
      = perform rest (s.afterByte kind v) := by
  rw [perform_pinSet (dir_rs s h)]
  have hd : Driven (s.moved (s.pins.setLevel .rs (rsLevel kind)) [.set .rs (rsLevel kind)]) :=
    h.congr rfl rfl fun l => by simp
  have key : ∀ w, s.width = w → perform (byteItems s.cfg w v ++ rest)
      (s.moved (s.pins.setLevel .rs (rsLevel kind)) [.set .rs (rsLevel kind)])
      = perform rest (s.afterByte kind v) := by
    intro w hw
    cases w
    · have e1 := perform_writeItems (v := v.toNat >>> 4) (rest := writeItems s.cfg s.width v.toNat ++ rest) hd
      have e2 := perform_writeItems (v := v.toNat) (rest := rest) (hd.afterWrite (v.toNat >>> 4))
      simp only [State.moved_cfg, State.moved_width, State.afterWrite] at e1 e2
      simp only [byteItems, List.append_assoc]
      rw [hw] at e1 e2
      rw [e1, e2]
      congr 1
      simp only [State.moved_moved, State.afterByte, byteEvents, hw, State.moved_pins, onLines_onLines,
        writeEvents_mod, Nat.shiftRight_eq_div_pow]
      rfl
    · have e1 := perform_writeItems (v := v.toNat) (rest := rest) hd
      simp only [State.moved_cfg, State.moved_width, State.afterWrite] at e1
      rw [hw] at e1
      rw [byteItems, e1]
      congr 1
      simp only [State.moved_moved, State.afterByte, byteEvents, hw]
      rfl
  exact key _ rfl

theorem Driven.afterByte {s : State} (h : Driven s) (kind : Kind) (v : Byte) : Driven (s.afterByte kind v) := by
  refine h.congr rfl rfl fun l => ?_
  cases l <;> rfl

/-- `Send(v, kind)` whose poll, if any, is answered 0: the state `afterSend` names, then the rest
(42_bus_transmitter.md R117). -/
theorem perform_sendItems {kind : Kind} {v : Byte} {rest : List Micro} {s : State} (h : Driven s)
    (hq : Quiet 1 s) :
    perform (sendItems s.cfg s.width kind v ++ rest) s = perform rest (s.afterSend kind v) := by
  by_cases hp : s.cfg.busyPoll
  · simp only [sendItems, hp, if_true, List.append_nil, List.append_assoc, List.cons_append, List.nil_append]
    rw [perform_busyWaitItems h hp (hq hp 0 (by omega))]
    have := perform_byteItems (kind := kind) (v := v) (rest := rest) (h.afterBusyWait 0)
    rw [show (s.afterBusyWait 0).cfg = s.cfg from rfl, show (s.afterBusyWait 0).width = s.width from rfl] at this
    rw [this, State.afterSend, State.afterBusySend, if_pos hp]
  · simp only [sendItems, hp, if_false, List.nil_append, List.append_assoc, List.cons_append, Bool.false_eq_true]
    rw [perform_byteItems h, perform_wait, State.afterSend, State.afterBusySend, if_neg hp]
    rfl

theorem Driven.afterSend {s : State} (h : Driven s) (kind : Kind) (v : Byte) : Driven (s.afterSend kind v) := by
  unfold State.afterSend State.afterBusySend
  split
  · exact (h.afterBusyWait 0).afterByte kind v
  · exact (h.afterByte kind v).congr rfl rfl fun _ => rfl

section AfterSend
variable (s : State) (kind : Kind) (v : Byte)
@[simp] theorem State.afterSend_cfg : (s.afterSend kind v).cfg = s.cfg := by unfold State.afterSend State.afterBusySend; split <;> rfl
@[simp] theorem State.afterSend_live : (s.afterSend kind v).live = s.live := by unfold State.afterSend State.afterBusySend; split <;> rfl
@[simp] theorem State.afterSend_width : (s.afterSend kind v).width = s.width := by
  unfold State.afterSend State.afterBusySend; split <;> rfl
@[simp] theorem State.afterSend_control : (s.afterSend kind v).control = s.control := by
  unfold State.afterSend State.afterBusySend; split <;> rfl
@[simp] theorem State.afterSend_mode : (s.afterSend kind v).mode = s.mode := by unfold State.afterSend State.afterBusySend; split <;> rfl
@[simp] theorem State.afterSend_seq : (s.afterSend kind v).seq = s.seq := by unfold State.afterSend State.afterBusySend; split <;> rfl
@[simp] theorem State.afterSend_status : (s.afterSend kind v).status = s.status := by
  unfold State.afterSend State.afterBusySend; split <;> rfl
@[simp] theorem State.afterSend_scratch : (s.afterSend kind v).scratch = s.scratch := by
  unfold State.afterSend State.afterBusySend; split <;> rfl
@[simp] theorem State.afterSend_port : (s.afterSend kind v).port = s.port := by unfold State.afterSend State.afterBusySend; split <;> rfl
@[simp] theorem State.afterSend_othersLive : (s.afterSend kind v).othersLive = s.othersLive := by
  unfold State.afterSend State.afterBusySend; split <;> rfl
@[simp] theorem State.afterSend_resets : (s.afterSend kind v).resets = s.resets := by
  unfold State.afterSend State.afterBusySend; split <;> rfl
@[simp] theorem State.afterSend_past : (s.afterSend kind v).past = s.past := by
  unfold State.afterSend State.afterBusySend; split <;> rfl

/-- A `Send` takes one answer of the stream when there are polls. -/
theorem State.afterSend_answerAt (hp : s.cfg.busyPoll = true) (k : Nat) :
    (s.afterSend kind v).answerAt k = s.answerAt (1 + k) := by
  rw [State.afterSend, State.afterBusySend, if_pos hp, ← State.takeAnswers_answerAt]
  exact State.answerAt_congr rfl rfl k

end AfterSend

theorem Quiet.afterSend {n : Nat} {s : State} (h : Quiet (n + 1) s) (kind : Kind) (v : Byte) :
    Quiet n (s.afterSend kind v) := by
  intro hp k hk
  rw [State.afterSend_cfg] at hp
  rw [State.afterSend_answerAt _ _ _ hp]
  exact h hp _ (by omega)

@[simp] theorem State.afterSends_nil (s : State) (kind : Kind) : s.afterSends kind [] = s := rfl

@[simp] theorem State.afterSends_cons (s : State) (kind : Kind) (v : Byte) (vs : List Byte) :
    s.afterSends kind (v :: vs) = (s.afterSend kind v).afterSends kind vs := rfl

theorem Driven.afterSends {s : State} (h : Driven s) (kind : Kind) (vs : List Byte) :
    Driven (s.afterSends kind vs) := by
  induction vs generalizing s with
  | nil => exact h
  | cons v vs ih => exact ih (h.afterSend kind v)

section AfterSends
variable (s : State) (kind : Kind) (vs : List Byte)
@[simp] theorem State.afterSends_cfg : (s.afterSends kind vs).cfg = s.cfg := by
  induction vs generalizing s with
  | nil => rfl
  | cons v vs ih => simp [ih]
@[simp] theorem State.afterSends_width : (s.afterSends kind vs).width = s.width := by
  induction vs generalizing s with
  | nil => rfl
  | cons v vs ih => simp [ih]
@[simp] theorem State.afterSends_seq : (s.afterSends kind vs).seq = s.seq := by
  induction vs generalizing s with
  | nil => rfl
  | cons v vs ih => simp [ih]
end AfterSends

/-- Several sends, then the rest (20_memory.md R46). -/
theorem perform_sendAllItems {kind : Kind} {vs : List Byte} {rest : List Micro} {s : State} (h : Driven s)
    (hq : Quiet vs.length s) :
    perform (sendAllItems s.cfg s.width kind vs ++ rest) s = perform rest (s.afterSends kind vs) := by
  induction vs generalizing s with
  | nil => rfl
  | cons v vs ih =>
    have hq' : Quiet (vs.length + 1) s := hq
    simp only [sendAllItems, List.flatMap_cons, List.append_assoc]
    rw [perform_sendItems h (hq'.mono (by omega))]
    have := ih (h.afterSend kind v) (hq'.afterSend kind v)
    simpa [sendAllItems] using this

/-! ### Requests -/

/-- A request in `IDLE` is accepted (30_encoding.md R62). -/
theorem accept_idle {run : State → Host.Outcome State Fault Refusal} {s : State} (h : s.seq = []) :
    accept run s = run { s with status := none } := by
  rw [accept, h]

/-- A request while another is in progress is not (00_scope.md R9). -/
theorem accept_busy {run : State → Host.Outcome State Fault Refusal} {s : State} (h : s.seq ≠ []) :
    accept run s = .refused .notIdle := by
  unfold accept
  split
  · contradiction
  · rfl

/-- A request on a ready device runs (30_encoding.md R63). -/
theorem acceptLive_ready {run : State → Host.Outcome State Fault Refusal} {s : State} (h : Ready s) :
    acceptLive run s = run { s with status := none } := by
  rw [acceptLive, accept_idle h.idle]
  simp [h.live]

/-- A request on a free device is refused (30_encoding.md R63). -/
theorem acceptLive_free {run : State → Host.Outcome State Fault Refusal} {s : State} (h : s.seq = [])
    (hl : s.live = false) : acceptLive run s = .refused .notLive := by
  rw [acceptLive, accept_idle h]
  simp [hl]

/-- An operation on a ready device performs its items and reports `OK` (30_encoding.md R62). -/
theorem operate_ready {items : State → List Micro} {s : State} (h : Ready s) :
    operate items s = perform (items { s with status := none } ++ [.finish .ok]) { s with status := none } :=
  acceptLive_ready h

end Sys2Proof.Machine
end

