-- ==== Sys2Proof/Laws/PerInstr.lean ====
section
/-! SUPPORT. Statements made for every instruction, one lemma per constructor. -/

namespace Sys2Proof.Laws.Format

open Sys2Proof.Machine

/-- The rows a host presents are the rows with a request word; a frame has a frame word; the internal procedures
have none (30_encoding.md R60, R61, R64, R70). -/
def Statement (i : Instr) : Prop :=
  match encode i with
  | some (.req _ _) => Instr.isRequest i = true
  | some (.bus _ _) | some (.nibble _ _) => Instr.isRequest i = false
  | none => Instr.isRequest i = false

theorem create (config : Byte) (c : Bool) (d : Bool) : Statement (.create config c d) := rfl
theorem destroy : Statement .destroy := rfl
theorem clear : Statement .clear := rfl
theorem home : Statement .home := rfl
theorem display (s : Bool) : Statement (.display s) := rfl
theorem cursor (s : Bool) : Statement (.cursor s) := rfl
theorem blink (s : Bool) : Statement (.blink s) := rfl
theorem direction (d : Bool) : Statement (.direction d) := rfl
theorem autoscroll (s : Bool) : Statement (.autoscroll s) := rfl
theorem goto (line : BitVec 2) (col : Byte) : Statement (.goto line col) := rfl
theorem scroll (d : Bool) : Statement (.scroll d) := rfl
theorem defchar (idx : Byte) (stream : List Byte) : Statement (.defchar idx stream) := rfl
theorem putc (c : Byte) : Statement (.putc c) := rfl
theorem puts (stream : List Byte) : Statement (.puts stream) := rfl
theorem puti (n : BitVec 32) : Statement (.puti n) := rfl
theorem reserved : Statement .reserved := rfl
theorem cmdClear : Statement .cmdClear := rfl
theorem cmdHome : Statement .cmdHome := rfl
theorem cmdEntryMode (l : Bool) (a : Bool) : Statement (.cmdEntryMode l a) := rfl
theorem cmdDisplayControl (d : Bool) (c : Bool) (b : Bool) : Statement (.cmdDisplayControl d c b) := rfl
theorem cmdDisplayShift (r : Bool) : Statement (.cmdDisplayShift r) := rfl
theorem cmdFunctionSet (l : Bool) (n : Bool) (f : Bool) : Statement (.cmdFunctionSet l n f) := rfl
theorem cmdSetCgram (i : BitVec 3) : Statement (.cmdSetCgram i) := rfl
theorem cmdSetDdram (a : BitVec 7) : Statement (.cmdSetDdram a) := rfl
theorem cmdResetByte8 (n : Bool) (f : Bool) : Statement (.cmdResetByte8 n f) := rfl
theorem dataWrite (d : Byte) : Statement (.dataWrite d) := rfl
theorem busyRead (b : Bool) (x : BitVec 7) : Statement (.busyRead b x) := rfl
theorem resetNibble3 : Statement .resetNibble3 := rfl
theorem resetNibble2 : Statement .resetNibble2 := rfl
theorem byteHighNibble (rs : Bool) (h : BitVec 4) : Statement (.byteHighNibble rs h) := rfl
theorem byteLowNibble (rs : Bool) (l : BitVec 4) : Statement (.byteLowNibble rs l) := rfl
theorem writeValue (v : Nat) : Statement (.writeValue v) := rfl
theorem send (v : Byte) (k : Kind) : Statement (.send v k) := rfl
theorem busyWait : Statement .busyWait := rfl

end Sys2Proof.Laws.Format
end

