-- ==== Sys2Proof/Laws/Polling.lean ====
section
/-! SUPPORT. Runs through polls that are answered busy: each busy answer costs one step
(43_busy_poller.md R127, R129; log 2). -/

namespace Sys2Proof.Machine

/-- An outcome that goes on to a state in `n` further steps. -/
def Runs (o : Host.Outcome State Fault Refusal) (n : Nat) (t : State) : Prop :=
  ∃ s1 : State, o = .next s1 ∧ Sys2Proof.core.run n s1 = .next t

theorem Runs.zero (t : State) : Runs (.next t) 0 t := ⟨t, rfl, rfl⟩

/-- A step of work in progress goes on with the first item. -/
theorem step_working {m : Micro} {rest : List Micro} {s : State} (hr : s.resets = [])
    (hs : s.seq = m :: rest) (hm : ∀ i, m ≠ .issue i) : step s = perform (m :: rest) { s with seq := [] } := by
  simp only [step, hr, advance, hs]

/-- Work left by an outcome goes on in one further step. -/
theorem Runs.succ {m : Micro} {rest : List Micro} {u : State} {n : Nat} {t : State} (hr : u.resets = [])
    (hs : u.seq = m :: rest) (hm : ∀ i, m ≠ .issue i) (h : Runs (perform (m :: rest) { u with seq := [] }) n t) :
    Runs (.next u) (n + 1) t := by
  obtain ⟨s1, h1, h2⟩ := h
  refine ⟨u, rfl, ?_⟩
  have e : step u = .next s1 := (step_working hr hs hm).trans h1
  simp only [Host.Core.run, show Sys2Proof.core.step u = .next s1 from e]
  exact h2

/-- The state after a poll loop with `k` busy answers and then a 0 (43_busy_poller.md R127). -/
def State.afterPoll (s : State) (k : Nat) : State :=
  State.moved { State.takeAnswers s (k + 1) with busy := false }
    { s.pins with en := { s.pins.en with level := false } }
    ((List.replicate k (pollEvents s.cfg s.width true)).flatten ++ pollEvents s.cfg s.width false)

/-- The state after one busy answer (43_busy_poller.md R127). -/
def State.afterBusyAnswer (s : State) : State :=
  State.moved { s.takeAnswers 1 with busy := true } { s.pins with en := { s.pins.en with level := false } }
    (pollEvents s.cfg s.width true)

theorem State.afterBusyAnswer_answerAt (s : State) (j : Nat) : s.afterBusyAnswer.answerAt j = s.answerAt (1 + j) :=
  (State.answerAt_congr rfl rfl j).trans (State.takeAnswers_answerAt s 1 j)

theorem State.afterPoll_succ (s : State) (k : Nat) : s.afterPoll (k + 1) = s.afterBusyAnswer.afterPoll k := by
  simp [State.afterPoll, State.afterBusyAnswer, State.moved, State.record, State.takeAnswers, List.replicate_succ]
  omega

/-- The poll loop with `k` busy answers takes `k` steps more. -/
theorem runs_poll {k : Nat} {rest : List Micro} {s : State} {n : Nat} {t : State}
    (hen : s.pins.dir .en = .output) (hm : s.pins.dir (msbLine s.width) = .input) (hq : s.seq = [])
    (hr : s.resets = []) (hb : ∀ j < k, s.answerAt j = true) (hz : s.answerAt k = false)
    (h : Runs (perform rest (s.afterPoll k)) n t) : Runs (perform (.poll :: rest) s) (k + n) t := by
  induction k generalizing s with
  | zero =>
    rw [perform_poll_ready hen hm hz, Nat.zero_add]
    simpa [State.afterPoll] using h
  | succ k ih =>
    rw [perform_poll_busy hen hm (hb 0 (by omega)), show k + 1 + n = (k + n) + 1 by omega]
    refine Runs.succ (m := .poll) (rest := rest) (by simpa using hr) (by simp [hq]) (by simp) ?_
    have e : { State.moved { s.takeAnswers 1 with busy := true, seq := .poll :: rest ++ s.seq }
        { s.pins with en := { s.pins.en with level := false } } (pollEvents s.cfg s.width true) with seq := [] }
        = s.afterBusyAnswer := by
      rw [State.afterBusyAnswer, ← hq]; rfl
    rw [e]
    refine ih (by simpa [State.afterBusyAnswer] using hen) (by simpa [State.afterBusyAnswer] using hm) hq hr ?_ ?_ ?_
    · intro j hj
      rw [State.afterBusyAnswer_answerAt]
      exact hb _ (by omega)
    · rw [State.afterBusyAnswer_answerAt, Nat.add_comm]
      exact hz
    · rwa [← State.afterPoll_succ]

/-- `BusyWait()` with `k` busy answers takes `k` steps more (43_busy_poller.md R130). -/
theorem runs_busyWaitItems {k : Nat} {rest : List Micro} {s : State} {n : Nat} {t : State} (h : Driven s)
    (hp : s.cfg.busyPoll = true) (hq : s.seq = []) (hr : s.resets = [])
    (hb : ∀ j < k, s.answerAt j = true) (hz : s.answerAt k = false)
    (ht : Runs (perform rest (s.afterBusyWait k)) n t) :
    Runs (perform (busyWaitItems s.width ++ rest) s) (k + n) t := by
  obtain ⟨-, n2, n3⟩ := msbLine_ne s.width
  simp only [busyWaitItems, List.cons_append, List.nil_append]
  rw [perform_pinSet (dir_rs s h), perform_pinSet (by simpa using dir_rw s h hp), State.moved_moved,
    perform_pinDir, State.turned, State.moved_moved]
  refine runs_poll (by simpa [n3] using dir_en s h) (by simp) hq hr
    (fun j hj => (State.answerAt_congr (s := s) rfl rfl j).trans (hb j hj))
    ((State.answerAt_congr (s := s) rfl rfl k).trans hz) ?_
  rw [perform_pinDir, State.turned, State.afterPoll, State.moved_moved,
    perform_pinSet (by simpa [n2] using dir_rw s h hp), State.moved_moved]
  have e := pins_afterPoll s.pins s.width (dir_msb s h)
  simp only [State.moved_pins] at e ⊢
  rw [e]
  simpa [State.afterBusyWait, State.moved, State.record, State.takeAnswers, busyWaitEvents] using ht

/-- `Send(v, kind)` whose poll, if any, is answered 1 for `k` times takes `k` steps more
(42_bus_transmitter.md R117). -/
theorem runs_sendItems {k : Nat} {kind : Kind} {v : Byte} {rest : List Micro} {s : State} {n : Nat} {t : State}
    (h : Driven s) (hq : s.seq = []) (hr : s.resets = []) (hk : PollEnds k s)
    (ht : Runs (perform rest (s.afterBusySend k kind v)) n t) :
    Runs (perform (sendItems s.cfg s.width kind v ++ rest) s) (k + n) t := by
  by_cases hp : s.cfg.busyPoll
  · rw [PollEnds, if_pos hp] at hk
    simp only [sendItems, hp, if_true, List.append_nil, List.append_assoc, List.cons_append, List.nil_append]
    refine runs_busyWaitItems h hp hq hr hk.1 hk.2 ?_
    have := perform_byteItems (kind := kind) (v := v) (rest := rest) (h.afterBusyWait k)
    rw [show (s.afterBusyWait k).cfg = s.cfg from rfl, show (s.afterBusyWait k).width = s.width from rfl] at this
    rw [this]
    rwa [State.afterBusySend, if_pos hp] at ht
  · rw [PollEnds, if_neg hp] at hk
    subst hk
    rw [perform_sendItems h (fun hp' => absurd hp' hp), Nat.zero_add]
    exact ht

end Sys2Proof.Machine
end

