-- ==== Sys2Proof/Laws/Sequencer.lean ====
section
/-! SUPPORT. What the sequencer can and cannot change, said once for every list of work items. -/

namespace Sys2Proof.Machine

/-- What no work item changes, and that the trace only grows. -/
structure Kept (s t : State) : Prop where
  cfg        : t.cfg = s.cfg
  live       : t.live = s.live
  width      : t.width = s.width
  othersLive : t.othersLive = s.othersLive
  resets     : t.resets = s.resets
  past       : t.past = s.past
  port       : t.port = s.port
  grows      : ∃ es, t.trace = s.trace ++ es

theorem Kept.refl (s : State) : Kept s s := ⟨rfl, rfl, rfl, rfl, rfl, rfl, rfl, [], by simp⟩

theorem Kept.trans {s t u : State} (h : Kept s t) (k : Kept t u) : Kept s u := by
  obtain ⟨es, he⟩ := h.grows
  obtain ⟨fs, hf⟩ := k.grows
  exact ⟨k.cfg.trans h.cfg, k.live.trans h.live, k.width.trans h.width, k.othersLive.trans h.othersLive,
    k.resets.trans h.resets, k.past.trans h.past, k.port.trans h.port, es ++ fs, by rw [hf, he, List.append_assoc]⟩

theorem Kept.emit {s t : State} (h : Kept s t) (e : Event) : Kept s (t.emit e) :=
  h.trans ⟨rfl, rfl, rfl, rfl, rfl, rfl, rfl, [e], by simp⟩

/-- What a result of one item keeps of the state it started from: `Kept`, the waiting items, and a property
`P` of the fields an item may write. -/
def MicroResult.Keeps (P : State → Prop) (s : State) : MicroResult → Prop
  | .done t => Kept s t ∧ t.seq = s.seq ∧ P t
  | .again t => Kept s t ∧ t.seq = s.seq ∧ P t
  | .refused _ => True

theorem MicroResult.Keeps.andThen {P : State → Prop} {s : State} {r : MicroResult} {f : State → MicroResult}
    (h : r.Keeps P s) (hf : ∀ t, Kept s t → t.seq = s.seq → P t → (f t).Keeps P t) : (r.andThen f).Keeps P s := by
  cases r with
  | done t =>
    obtain ⟨h1, h2, h3⟩ := h
    have := hf t h1 h2 h3
    simp only [MicroResult.andThen]
    revert this
    cases f t with
    | done u => rintro ⟨a, b, c⟩; exact ⟨h1.trans a, b.trans h2, c⟩
    | again u => rintro ⟨a, b, c⟩; exact ⟨h1.trans a, b.trans h2, c⟩
    | refused e => exact fun _ => trivial
  | again t => exact h
  | refused e => trivial

section Primitives
variable {P : State → Prop} {s : State}

theorem pinSet_keeps (l : Line) (v : Bool) (hP : P (s.moved (s.pins.setLevel l v) [.set l v])) :
    (pinSet l v s).Keeps P s := by
  by_cases h : s.pins.dir l = .output
  · rw [pinSet_output h]; exact ⟨⟨rfl, rfl, rfl, rfl, rfl, rfl, rfl, _, State.moved_trace _ _ _⟩, rfl, hP⟩
  · rw [pinSet, if_neg h]; trivial

theorem waitFor_keeps (t : Nat) (hP : P (s.waited t)) : (waitFor t s).Keeps P s :=
  ⟨⟨rfl, rfl, rfl, rfl, rfl, rfl, rfl, [.wait t], State.emit_trace _ _⟩, rfl, hP⟩

theorem pinGet_keeps (l : Line) (a : Bool) (hP : P (State.record { s with busy := a } [.get l a])) :
    (pinGet l a s).Keeps P s := by
  by_cases h : s.pins.dir l = .input
  · rw [pinGet_input h]; exact ⟨⟨rfl, rfl, rfl, rfl, rfl, rfl, rfl, _, State.record_trace _ _⟩, rfl, hP⟩
  · rw [pinGet, if_neg h]; trivial

end Primitives

/-- A property of the state that no bus primitive and no busy answer can break. -/
structure BusStable (P : State → Prop) : Prop where
  moved  : ∀ s p es, P s → P (State.moved s p es)
  sample : ∀ s b es, P s → P (State.record { s with busy := b } es)
  taken  : ∀ s n, P s → P (State.takeAnswers s n)

theorem BusStable.waited {P : State → Prop} (h : BusStable P) {s : State} (t : Nat) (hs : P s) :
    P (s.waited t) :=
  h.moved s s.pins [.wait t] hs

theorem emptyPulse_keeps {P : State → Prop} (hP : BusStable P) {s : State} (hs : P s) :
    (emptyPulse s).Keeps P s :=
  (pinSet_keeps _ _ (hP.moved _ _ _ hs)).andThen fun _ _ _ h1 =>
    (waitFor_keeps _ (hP.waited _ h1)).andThen fun _ _ _ h2 => pinSet_keeps _ _ (hP.moved _ _ _ h2)

theorem pollIteration_keeps {P : State → Prop} (hP : BusStable P) {s : State} (a : Bool) (hs : P s) :
    (pollIteration a s).Keeps P s :=
  (pinSet_keeps _ _ (hP.moved _ _ _ hs)).andThen fun _ _ _ h1 =>
    (waitFor_keeps _ (hP.waited _ h1)).andThen fun _ _ _ h2 =>
      (pinGet_keeps _ _ (hP.sample _ _ _ h2)).andThen fun _ _ _ h3 =>
        (pinSet_keeps _ _ (hP.moved _ _ _ h3)).andThen fun t _ _ h4 => by
          cases t.width
          · exact emptyPulse_keeps hP h4
          · exact ⟨Kept.refl t, rfl, h4⟩

theorem pollLoop_keeps {P : State → Prop} (hP : BusStable P) {s : State} (hs : P s) :
    (pollLoop s).Keeps P s := by
  have h0 : Kept s (s.takeAnswers 1) := ⟨rfl, rfl, rfl, rfl, rfl, rfl, rfl, [], by simp⟩
  have h1 := pollIteration_keeps hP (s.answerAt 0) (hP.taken s 1 hs)
  unfold pollLoop
  revert h1
  cases pollIteration (s.answerAt 0) (s.takeAnswers 1) with
  | done t =>
    rintro ⟨a, b, c⟩
    simp only [MicroResult.andThen]
    split
    · exact ⟨h0.trans a, b, c⟩
    · exact ⟨h0.trans a, b, c⟩
  | again t =>
    rintro ⟨a, b, c⟩
    exact ⟨h0.trans a, b, c⟩
  | refused e => exact fun _ => trivial

/-- One item keeps a bus-stable property that its own store, if it is a store, keeps. -/
theorem runMicro_keeps {P : State → Prop} (hP : BusStable P) {m : Micro} {s : State} (hs : P s)
    (hc : ∀ v t, m = .loadControl v → P t → P { t with control := v })
    (hm : ∀ v t, m = .loadMode v → P t → P { t with mode := v })
    (hb : ∀ p t, m = .loadScratch p → P t → P { t with scratch := p })
    (hf : ∀ st t, m = .finish st → P t → P { t with status := some st }) : (runMicro m s).Keeps P s := by
  have k0 : ∀ t : State, t.cfg = s.cfg → t.live = s.live → t.width = s.width → t.othersLive = s.othersLive →
      t.resets = s.resets → t.past = s.past → t.port = s.port → t.trace = s.trace → Kept s t :=
    fun t a b c d e p f g => ⟨a, b, c, d, e, p, f, [], by rw [g, List.append_nil]⟩
  cases m with
  | pinSet l v => exact pinSet_keeps l v (hP.moved _ _ _ hs)
  | pinDir l d =>
    exact ⟨⟨rfl, rfl, rfl, rfl, rfl, rfl, rfl, [.dir l d], State.emit_trace _ _⟩, rfl,
      hP.moved s (s.pins.setDir l d) [.dir l d] hs⟩
  | wait t => exact waitFor_keeps t (hP.waited _ hs)
  | poll => exact pollLoop_keeps hP hs
  | loadControl v => exact ⟨k0 _ rfl rfl rfl rfl rfl rfl rfl rfl, rfl, hc v s rfl hs⟩
  | loadMode v => exact ⟨k0 _ rfl rfl rfl rfl rfl rfl rfl rfl, rfl, hm v s rfl hs⟩
  | loadScratch p => exact ⟨k0 _ rfl rfl rfl rfl rfl rfl rfl rfl, rfl, hb p s rfl hs⟩
  | awaitStream => exact ⟨Kept.refl s, rfl, hs⟩
  | finish st => exact ⟨k0 _ rfl rfl rfl rfl rfl rfl rfl rfl, rfl, hf st s rfl hs⟩
  | issue i => exact ⟨Kept.refl s, rfl, hs⟩

/-- A list of items keeps the parameters, the width, `live` and the environment, lets the trace grow, and leaves
a suffix of itself before what waited already. -/
theorem perform_kept {items : List Micro} {s t : State} (h : perform items s = .next t) :
    Kept s t ∧ ∃ rest, rest <:+ items ∧ t.seq = rest ++ s.seq := by
  induction items generalizing s with
  | nil =>
    cases h
    exact ⟨Kept.refl _, [], List.suffix_refl [], rfl⟩
  | cons m ms ih =>
    have hk := runMicro_keeps (P := fun _ => True) ⟨fun _ _ _ _ => trivial, fun _ _ _ _ => trivial, fun _ _ _ => trivial⟩
      (m := m) (s := s) trivial (fun _ _ _ _ => trivial) (fun _ _ _ _ => trivial) (fun _ _ _ _ => trivial)
      (fun _ _ _ _ => trivial)
    rw [perform] at h
    revert h hk
    cases runMicro m s with
    | done u =>
      rintro h ⟨a, b, -⟩
      obtain ⟨k, rest, hr, he⟩ := ih h
      exact ⟨a.trans k, rest, hr.trans (List.suffix_cons m ms), by rw [he, b]⟩
    | again u =>
      rintro h ⟨a, b, -⟩
      cases h
      refine ⟨a.trans ⟨rfl, rfl, rfl, rfl, rfl, rfl, rfl, [], by simp [State.trace]⟩, m :: ms, List.suffix_refl _, ?_⟩
      show m :: ms ++ u.seq = m :: ms ++ s.seq
      rw [b]
    | refused e => intro h; cases h

/-- A list of items keeps a bus-stable property that each of its stores keeps. -/
theorem perform_keeps {P : State → Prop} (hP : BusStable P) {items : List Micro} {s t : State}
    (h : perform items s = .next t) (hs : P s)
    (hq : ∀ u seq, P u → P { u with seq := seq })
    (hc : ∀ v, .loadControl v ∈ items → ∀ u, P u → P { u with control := v })
    (hm : ∀ v, .loadMode v ∈ items → ∀ u, P u → P { u with mode := v })
    (hb : ∀ p, .loadScratch p ∈ items → ∀ u, P u → P { u with scratch := p })
    (hf : ∀ st, .finish st ∈ items → ∀ u, P u → P { u with status := some st }) : P t := by
  induction items generalizing s with
  | nil => cases h; exact hs
  | cons m ms ih =>
    have hk := runMicro_keeps hP (m := m) hs (fun v u e => hc v (by simp [e]) u) (fun v u e => hm v (by simp [e]) u)
      (fun p u e => hb p (by simp [e]) u) (fun st u e => hf st (by simp [e]) u)
    rw [perform] at h
    revert h hk
    cases runMicro m s with
    | done u =>
      rintro h ⟨-, -, c⟩
      exact ih h c (fun v hv => hc v (by simp [hv])) (fun v hv => hm v (by simp [hv]))
        (fun p hp => hb p (by simp [hp])) (fun st hst => hf st (by simp [hst]))
    | again u =>
      rintro h ⟨-, -, c⟩
      cases h
      exact hq u _ c
    | refused e => intro h; cases h

end Sys2Proof.Machine
end

