-- ==== Sys2Proof/Laws/Step.lean ====
section
/-! SUPPORT. The reset input and the step, said once: what a reset leaves, and the ways a step can end. -/

namespace Sys2Proof.Machine

section HardwareReset
variable (s : State) (later : List Nat)
@[simp] theorem State.hardwareReset_cfg : (s.hardwareReset later).cfg = s.cfg := rfl
@[simp] theorem State.hardwareReset_live : (s.hardwareReset later).live = false := rfl
@[simp] theorem State.hardwareReset_pins : (s.hardwareReset later).pins = .reset := rfl
@[simp] theorem State.hardwareReset_seq : (s.hardwareReset later).seq = [] := rfl
@[simp] theorem State.hardwareReset_status : (s.hardwareReset later).status = none := rfl
@[simp] theorem State.hardwareReset_othersLive : (s.hardwareReset later).othersLive = s.othersLive := rfl
@[simp] theorem State.hardwareReset_resets : (s.hardwareReset later).resets = later := rfl
@[simp] theorem State.hardwareReset_port : (s.hardwareReset later).port = s.port := rfl
@[simp] theorem State.hardwareReset_answers : (s.hardwareReset later).answers = s.answers := rfl
@[simp] theorem State.hardwareReset_polls : (s.hardwareReset later).polls = s.polls := rfl
@[simp] theorem State.hardwareReset_trace : (s.hardwareReset later).trace = [] := rfl
@[simp] theorem State.hardwareReset_past : (s.hardwareReset later).past = s.trace :: s.past := rfl
end HardwareReset

section CutAfter
variable (s t : State) (n : Nat)
@[simp] theorem State.cutAfter_cfg : (s.cutAfter t n).cfg = t.cfg := rfl
@[simp] theorem State.cutAfter_othersLive : (s.cutAfter t n).othersLive = t.othersLive := rfl
@[simp] theorem State.cutAfter_port : (s.cutAfter t n).port = t.port := rfl
@[simp] theorem State.cutAfter_past : (s.cutAfter t n).past = t.past := rfl
@[simp] theorem State.cutAfter_trace : (s.cutAfter t n).trace = s.trace ++ (newEvents s t).take n := by
  simp [State.cutAfter, State.trace]
end CutAfter

/-! ### The registry -/

section Others
variable (s : State) (given : Bool)
@[simp] theorem createOther_cfg : (createOther given s).cfg = s.cfg := by unfold createOther; split <;> rfl
@[simp] theorem createOther_live : (createOther given s).live = s.live := by unfold createOther; split <;> rfl
@[simp] theorem destroyOther_cfg : (destroyOther s).cfg = s.cfg := rfl
@[simp] theorem destroyOther_live : (destroyOther s).live = s.live := rfl

/-- Another device's creation changes the count of other devices alone, and only when a slot is free
(40_registry_lifecycle.md R96). -/
theorem createOther_eq : createOther given s = { s with
    othersLive := if given ∧ liveDevices s < s.cfg.maxDevices then s.othersLive + 1 else s.othersLive } := by
  simp only [createOther, slotFree, Bool.and_eq_true, decide_eq_true_eq]
  split <;> rfl
end Others

/-- Neither act makes more devices live than `MAX_DEVICES` (60_exceptions.md R190). -/
theorem liveDevices_others {s : State} (h : liveDevices s ≤ s.cfg.maxDevices) (given : Bool) :
    liveDevices (createOther given s) ≤ s.cfg.maxDevices ∧ liveDevices (destroyOther s) ≤ s.cfg.maxDevices := by
  constructor
  · unfold createOther slotFree
    split
    · next hc =>
      obtain ⟨-, hk⟩ := Bool.and_eq_true_iff.mp hc
      have : liveDevices s < s.cfg.maxDevices := of_decide_eq_true hk
      simp only [liveDevices] at this ⊢
      omega
    · exact h
  · exact Nat.le_trans (Nat.add_le_add_right (Nat.sub_le _ _) _) h

/-- The new events of a state whose trace has grown. -/
theorem newEvents_of_trace {s t : State} {es : List Event} (h : t.trace = s.trace ++ es) : newEvents s t = es := by
  simp [newEvents, h]

/-- A step with no reset ahead. -/
theorem step_noReset {s : State} (h : s.resets = []) : step s = advance s := by
  rw [step, h]

/-- A step whose reset has come. -/
theorem step_resetNow {s : State} {later : List Nat} (h : s.resets = 0 :: later) :
    step s = .next (s.hardwareReset later) := by
  rw [step, h]

/-- The ways a step can end in a next state: the whole work with no reset ahead; the reset; the whole work with the
reset nearer; the work broken off by the reset (70_reset_and_hazards.md R205). -/
theorem step_cases {s t : State} (h : step s = .next t) :
    (s.resets = [] ∧ advance s = .next t) ∨
    (∃ later, s.resets = 0 :: later ∧ t = s.hardwareReset later) ∨
    (∃ n later u, s.resets = (n + 1) :: later ∧ advance s = .next u ∧
      ((newEvents s u).length < n + 1 ∧ t = { u with resets := (n + 1 - (newEvents s u).length) :: later } ∨
       n + 1 ≤ (newEvents s u).length ∧ t = (s.cutAfter u (n + 1)).hardwareReset later)) := by
  unfold step at h
  split at h
  · exact .inl ⟨‹_›, h⟩
  · cases h; exact .inr (.inl ⟨_, ‹_›, rfl⟩)
  · rename_i n later hr
    revert h
    cases ha : advance s with
    | next u =>
      rintro h
      cases h
      refine .inr (.inr ⟨n, later, u, hr, rfl, ?_⟩)
      rw [State.underReset]
      split
      · exact .inl ⟨‹_›, rfl⟩
      · exact .inr ⟨by omega, rfl⟩
    | fault r => intro h; cases h
    | refused r => intro h; cases h

end Sys2Proof.Machine
end

