-- ==== Sys2Proof/Tests/Slice0.lean ====
section
/-! SUPPORT. The model's own tests, each about one step on a small state, and the witnesses that the hypotheses of
the statements can be met. Expected results are those of 95_test_vectors.md (named `V-..`, `L1-..`) or are written
out from the encodings of 30_encoding.md. -/

namespace Sys2Proof.Tests

open Sys2Proof.Machine

/-! ### Small states -/

/-- Every line an output, every latch 0. -/
def drivenPins : Pins := ⟨⟨false, .output⟩, ⟨false, .output⟩, ⟨false, .output⟩, 0x00, 0xFF⟩

/-- The post-CREATE registers of 10_state.md R31 with a width, no polling. -/
def live (w : Width) : State :=
  { State.reset with live := true, width := w, control := 0x0C, mode := 0x06, pins := drivenPins }

/-- The same with polling and the given busy answers. -/
def polled (w : Width) (answers : List Bool) : State :=
  { live w with cfg := { Config.reference with busyPoll := true }, answers := answers }

/-- The same with polling and nine answers 0. -/
def clearing (w : Width) : State := polled w (List.replicate 9 false)

/-- A free device with polling and nine answers 0. -/
def freePolled : State :=
  { State.reset with cfg := { Config.reference with busyPoll := true }, answers := List.replicate 9 false }

/-- The next state of an instruction, if there is one. -/
def after (i : Instr) (s : State) : Option State :=
  match exec i s with
  | .next t => some t
  | _ => none

/-- Why an instruction is refused, if it is. -/
def refusal (i : Instr) (s : State) : Option Refusal :=
  match exec i s with
  | .refused r => some r
  | _ => none

/-- The state after some steps, if none stops. -/
def ran (n : Nat) (s : State) : Option State :=
  match Sys2Proof.core.run n s with
  | .next t => some t
  | _ => none

/-- The byte trace of one instruction, its first `lone` transfers lone nibbles. -/
def bytesOf (lone : Nat) (i : Instr) (s : State) : Option (List ByteItem) :=
  (after i s).map fun t => byteTrace t.width lone (newTransfers s t)

/-- The events of one instruction. -/
def eventsOf (i : Instr) (s : State) : Option (List Event) := (after i s).map (newEvents s)

/-- A COMMAND byte and a DATA byte of a byte trace. -/
def cmd (v : Byte) : ByteItem := .byte .command v

def dat (v : Byte) : ByteItem := .byte .data v

/-- The events that put the low bits of a value on the first `n` data lines. -/
def lines (n v : Nat) : List Event :=
  (List.finRange 8).take n |>.map fun i => .set (.d i) (v.testBit i)

/-- An enable pulse of the reference `T_EN`. -/
def pulse : List Event := [.set .en true, .wait 1, .set .en false]

/-! ### Well-formedness: one ill-formed term for each check -/

theorem test_wf_illegal_config : Instr.wellFormed (.create 0x02 true true) = false := by decide
theorem test_wf_goto_beyond : Instr.wellFormed (.goto 1 64) = false := by decide
theorem test_wf_short_bitmap : Instr.wellFormed (.defchar 0 [1, 2, 3]) = false := by decide
theorem test_wf_long_bitmap : Instr.wellFormed (.defchar 0 [1, 2, 3, 4, 5, 6, 7, 8, 9]) = false := by decide
theorem test_wf_unterminated : Instr.wellFormed (.puts [0x68, 0x69]) = false := by decide
theorem test_wf_reserved : Instr.wellFormed .reserved = false := by decide
theorem test_wf_good : Instr.wellFormed (.goto 1 63) && Instr.wellFormed (.puts [0]) &&
    Instr.wellFormed (.create 0x1C true true) = true := by decide

/-! ### Decoding: a word written out from the encoding for every row -/

theorem test_decode_create : decode (.req 0x0180300000000 []) = .ok (.create 0x18 true true) := by decide
theorem test_decode_create_lists : decode (.req 0x0080200000000 []) = .ok (.create 0x08 false true) := by decide
theorem test_decode_destroy : decode (.req 0x1000000000000 []) = .ok .destroy := by decide
theorem test_decode_clear : decode (.req 0x2000000000000 []) = .ok .clear := by decide
theorem test_decode_home : decode (.req 0x3000000000000 []) = .ok .home := by decide
theorem test_decode_display : decode (.req 0x4010000000000 []) = .ok (.display true) := by decide
theorem test_decode_display_ignores : decode (.req 0x4FEFFFFFFFFFF []) = .ok (.display false) := by decide
theorem test_decode_cursor : decode (.req 0x5010000000000 []) = .ok (.cursor true) := by decide
theorem test_decode_blink : decode (.req 0x6010000000000 []) = .ok (.blink true) := by decide
theorem test_decode_direction : decode (.req 0x7000000000000 []) = .ok (.direction false) := by decide
theorem test_decode_autoscroll : decode (.req 0x8010000000000 []) = .ok (.autoscroll true) := by decide
theorem test_decode_goto : decode (.req 0x9010300000000 []) = .ok (.goto 1 3) := by decide
theorem test_decode_goto_line_bits : decode (.req 0x9FF0000000000 []) = .ok (.goto 3 0) := by decide
theorem test_decode_scroll : decode (.req 0xA010000000000 []) = .ok (.scroll true) := by decide
theorem test_decode_defchar : decode (.req 0xB0A0000000000 [7]) = .ok (.defchar 10 [7]) := by decide
theorem test_decode_putc : decode (.req 0xC410000000000 []) = .ok (.putc 0x41) := by decide
theorem test_decode_puts : decode (.req 0xD000000000000 [0x68, 0]) = .ok (.puts [0x68, 0]) := by decide
theorem test_decode_puti : decode (.req 0xE0000FFFFFFD6 []) = .ok (.puti (-42)) := by decide
theorem test_decode_reserved : decode (.req 0xF000000000000 []) = .ok .reserved := by decide
theorem test_decode_cmd_clear : decode (.bus .ordinary 0b0000000001) = .ok .cmdClear := by decide
theorem test_decode_cmd_home : decode (.bus .ordinary 0b0000000010) = .ok .cmdHome := by decide
theorem test_decode_cmd_entry_mode :
    decode (.bus .ordinary 0b0000000110) = .ok (.cmdEntryMode true false) := by decide
theorem test_decode_cmd_display_control :
    decode (.bus .ordinary 0b0000001110) = .ok (.cmdDisplayControl true true false) := by decide
theorem test_decode_cmd_display_shift :
    decode (.bus .ordinary 0b0000011100) = .ok (.cmdDisplayShift true) := by decide
theorem test_decode_cmd_function_set :
    decode (.bus .ordinary 0b0000101000) = .ok (.cmdFunctionSet false true false) := by decide
theorem test_decode_cmd_set_cgram :
    decode (.bus .ordinary 0b0001010000) = .ok (.cmdSetCgram 2) := by decide
theorem test_decode_cmd_set_ddram :
    decode (.bus .ordinary 0b0011000011) = .ok (.cmdSetDdram 0x43) := by decide
theorem test_decode_cmd_reset_byte8 :
    decode (.bus .resetDance 0b0000010100) = .ok (.cmdResetByte8 false true) := by decide
theorem test_decode_data_write : decode (.bus .ordinary 0b1001101000) = .ok (.dataWrite 0x68) := by decide
theorem test_decode_busy_read : decode (.bus .ordinary 0b0110000001) = .ok (.busyRead true 1) := by decide
theorem test_decode_reset_nibble3 : decode (.nibble .resetDance 0b000011) = .ok .resetNibble3 := by decide
theorem test_decode_reset_nibble2 : decode (.nibble .resetDance 0b000010) = .ok .resetNibble2 := by decide
theorem test_decode_high_nibble : decode (.nibble .high 0b100110) = .ok (.byteHighNibble true 6) := by decide
theorem test_decode_low_nibble : decode (.nibble .low 0b101000) = .ok (.byteLowNibble true 8) := by decide
/-- R68: what LCDENC never emits is no row. -/
theorem test_decode_rejects :
    decode (.bus .ordinary 0b1100000000) = .error .dataRead ∧
    decode (.bus .ordinary 0b0000000000) = .error (.notEmitted 0x00) ∧
    decode (.bus .ordinary 0b0000000011) = .error (.notEmitted 0x03) ∧
    decode (.bus .ordinary 0b0000010100) = .error (.notEmitted 0x14) ∧
    decode (.nibble .high 0b010000) = .error .nibbleRead := by decide
theorem test_table_word_request : decodeTableWord 56 0xC410000000000 = some (.putc 0x41) := by decide
theorem test_table_word_frame : decodeTableWord 16 0x201 = some (.dataWrite 0x01) := by decide
theorem test_table_word_nibble : decodeTableWord 8 0x03 = some .resetNibble3 := by decide
theorem test_table_word_none : decodeTableWord 0 0 = none := by decide

/-! ### Meanings -/

/-- V-INIT-4, request word 0x0080300000000. -/
theorem test_create_four : bytesOf 4 (.create 0x08 true true) State.reset =
    some [.nibble 3, .nibble 3, .nibble 3, .nibble 2, cmd 0x28, cmd 0x0C, cmd 0x01, cmd 0x06] := by decide

/-- V-INIT-8: the sum of waits. -/
theorem test_create_eight_time :
    (eventsOf (.create 0x18 true true) State.reset).map leastTime = some 57157 := by decide

/-- V-DESTROY. -/
theorem test_destroy : (after .destroy (live .four)).map (fun t => (t.live, t.status, t.trace.length))
    = some (false, some .ok, 0) := by decide

/-- L1-11; 44_codec_commands.md R136: the wait of CLEAR. -/
theorem test_clear : eventsOf .clear (live .eight) =
    some (.set .rs false :: lines 8 0x01 ++ pulse ++ [.wait 50, .wait 2000]) := by decide

/-- L1-11. -/
theorem test_home : bytesOf 0 .home (live .four) = some [cmd 0x02] := by decide

/-- 44_codec_commands.md R140 from `control = 0x0C`. -/
theorem test_display_off : (after (.display false) (live .four)).map State.control = some 0x08 ∧
    bytesOf 0 (.display false) (live .four) = some [cmd 0x08] := by decide

/-- 44_codec_commands.md R141 from `control = 0x0C`. -/
theorem test_cursor_on : (after (.cursor true) (live .four)).map State.control = some 0x0E ∧
    bytesOf 0 (.cursor true) (live .four) = some [cmd 0x0E] := by decide

/-- L1-2. -/
theorem test_blink_on : (after (.blink true) (live .four)).map State.control = some 0x0D ∧
    bytesOf 0 (.blink true) (live .four) = some [cmd 0x0D] := by decide

/-- 44_codec_commands.md R143 from `mode = 0x06`. -/
theorem test_direction_left : (after (.direction false) (live .four)).map State.mode = some 0x04 ∧
    bytesOf 0 (.direction false) (live .four) = some [cmd 0x04] := by decide

/-- 44_codec_commands.md R144 from `mode = 0x06`. -/
theorem test_autoscroll_on : (after (.autoscroll true) (live .four)).map State.mode = some 0x07 ∧
    bytesOf 0 (.autoscroll true) (live .four) = some [cmd 0x07] := by decide

/-- L1-9: `0x80 | (3 + 0x40)`. -/
theorem test_goto : bytesOf 0 (.goto 1 3) (live .four) = some [cmd 0xC3] := by decide

/-- 45_codec_address.md R151: beyond the field. -/
theorem test_goto_beyond : refusal (.goto 1 64) (live .four) = some .gotoOutOfRange := by decide

/-- L1-11. -/
theorem test_scroll : bytesOf 0 (.scroll true) (live .eight) = some [cmd 0x1C] ∧
    bytesOf 0 (.scroll false) (live .eight) = some [cmd 0x18] := by decide

/-- L1-8: index 10 is index 2. -/
theorem test_defchar : bytesOf 0 (.defchar 10 [1, 2, 3, 4, 5, 6, 7, 0xFF]) (live .eight) =
    some [cmd 0x50, dat 1, dat 2, dat 3, dat 4, dat 5, dat 6, dat 7, dat 0xFF] := by decide

/-- 46_codec_print.md R160. -/
theorem test_putc : bytesOf 0 (.putc 0x00) (live .four) = some [dat 0x00] := by decide

/-- L1-4, L1-9. -/
theorem test_puts : bytesOf 0 (.puts [0x68, 0x69, 0x00, 0x6A]) (live .four) = some [dat 0x68, dat 0x69] := by decide

/-- L1-3. -/
theorem test_puti : bytesOf 0 (.puti (-42)) (live .eight) = some [dat 0x2D, dat 0x34, dat 0x32] ∧
    bytesOf 0 (.puti 0) (live .eight) = some [dat 0x30] := by decide

/-- 46_codec_print.md R165 and D12: the most negative value. -/
theorem test_puti_min : (bytesOf 0 (.puti 0x80000000#32) (live .eight)) =
    some [dat 0x2D, dat 0x32, dat 0x31, dat 0x34, dat 0x37, dat 0x34, dat 0x38, dat 0x33, dat 0x36, dat 0x34,
      dat 0x38] := by decide

/-- 30_encoding.md R68, in a live and in a free device. -/
theorem test_reserved : refusal .reserved (live .four) = some .reservedOp ∧
    refusal .reserved State.reset = some .reservedOp := by decide

theorem test_cmd_clear : bytesOf 0 .cmdClear (live .four) = some [cmd 0b00000001#8] := by decide
theorem test_cmd_home : bytesOf 0 .cmdHome (live .four) = some [cmd 0b00000010#8] := by decide
theorem test_cmd_entry_mode : bytesOf 0 (.cmdEntryMode false true) (live .four) = some [cmd 0b00000101#8] := by decide
theorem test_cmd_display_control :
    bytesOf 0 (.cmdDisplayControl true false true) (live .four) = some [cmd 0b00001101#8] := by decide
theorem test_cmd_display_shift : bytesOf 0 (.cmdDisplayShift true) (live .four) = some [cmd 0b00011100#8] := by decide
theorem test_cmd_function_set :
    bytesOf 0 (.cmdFunctionSet true false true) (live .eight) = some [cmd 0b00110100#8] := by decide
theorem test_cmd_set_cgram : bytesOf 0 (.cmdSetCgram 5) (live .four) = some [cmd 0b01101000#8] := by decide
theorem test_cmd_set_ddram : bytesOf 0 (.cmdSetDdram 0x43) (live .four) = some [cmd 0xC3] := by decide
theorem test_cmd_reset_byte8 : bytesOf 0 (.cmdResetByte8 true false) (live .eight) = some [cmd 0b00011000#8] ∧
    refusal (.cmdResetByte8 true false) (live .four) = some .wrongWidth := by decide
theorem test_data_write : bytesOf 0 (.dataWrite 0x68) (live .four) = some [dat 0x68] := by decide

/-- A live device in the middle of a poll: RW at read, `MSB` an input (43_busy_poller.md R126). -/
def midPoll (w : Width) : State :=
  { polled w [] with pins := ({ drivenPins with rw := ⟨true, .output⟩ } : Pins).setDir (msbLine w) .input }

/-- 43_busy_poller.md R127: one iteration; the second pulse only with four lines. -/
theorem test_busy_read : eventsOf (.busyRead true 0x55) (midPoll .eight) =
      some [.set .en true, .wait 1, .get (.d 7) true, .set .en false] ∧
    eventsOf (.busyRead false 0) (midPoll .four) =
      some ([.set .en true, .wait 1, .get (.d 3) false, .set .en false] ++ pulse) := by decide

theorem test_reset_nibble3 : eventsOf .resetNibble3 (live .four) = some (lines 4 0x3 ++ pulse) := by decide
theorem test_reset_nibble2 : eventsOf .resetNibble2 (live .four) = some (lines 4 0x2 ++ pulse) := by decide
theorem test_high_nibble : eventsOf (.byteHighNibble true 0x6) (live .four) =
    some (.set .rs true :: lines 4 0x6 ++ pulse) := by decide
theorem test_low_nibble : eventsOf (.byteLowNibble false 0x8) (live .four) = some (lines 4 0x8 ++ pulse) ∧
    refusal (.byteLowNibble true 0x8) (live .four) = some .wrongRs := by decide

/-- V-WV: bits at and above `W` are ignored. -/
theorem test_write_value : eventsOf (.writeValue 0x1A5) (live .eight) = some (lines 8 0xA5 ++ pulse) ∧
    eventsOf (.writeValue 0xAC) (live .four) = some (lines 4 0xC ++ pulse) := by decide

/-- V-SEND: `Send(0x28, COMMAND)`, four lines, no polling. -/
theorem test_send : eventsOf (.send 0x28 .command) (live .four) =
    some (.set .rs false :: lines 4 0x2 ++ pulse ++ lines 4 0x8 ++ pulse ++ [.wait 50]) := by decide

/-- 43_busy_poller.md R130: `BusyWait()`, eight lines, answer 0. -/
theorem test_busy_wait : eventsOf .busyWait (clearing .eight) =
    some [.set .rs false, .set .rw true, .dir (.d 7) .input, .set .en true, .wait 1, .get (.d 7) false,
      .set .en false, .dir (.d 7) .output, .set .rw false] := by decide

/-- 43_busy_poller.md R129: a busy answer leaves the operation in progress. -/
theorem test_busy_wait_busy : (after .busyWait (polled .four [true])).map (fun t => (t.seq.head?, t.busy))
    = some (some .poll, true) := by decide

/-- Log 27: under `INIT8_OR_OPCODE` the frame goes out as the dance's byte, `config | 0x20` (V-INIT-8alt). -/
theorem test_cmd_reset_byte8_or : bytesOf 0 (.cmdResetByte8 true false)
    { live .eight with cfg := { Config.reference with init8OrOpcode := true } } = some [cmd 0x38] := by decide

/-- 70_reset_and_hazards.md R205: PUTC 0x68 reset after its first nibble; the broken-off trace is put aside and no
line is driven. -/
theorem test_reset_splits_a_byte :
    (match step { live .four with port := [.request ⟨0xC680000000000, []⟩], resets := [8] } with
      | .next t => some (t.live, t.past, t.pins.dir .en)
      | _ => none)
      = some (false, [.set .rs true :: lines 4 0x6 ++ pulse], .input) := by decide

/-- 70_reset_and_hazards.md R205: CLEAR reset right after its first busy sample; that answer alone is gone. -/
theorem test_reset_in_a_poll :
    (match step { polled .eight [true, false] with port := [.request ⟨0x2000000000000, []⟩], resets := [6, 4] } with
      | .next t => some (t.answers, t.polls, t.resets, t.past.map List.length)
      | _ => none)
      = some ([false], 1, [4], [6]) := by decide

/-- L1-6 with `MAX_DEVICES = 1`: another device holds the only slot, then gives it back. -/
def fullPool : State :=
  { State.reset with
    othersLive := 1
    port := [.request ⟨0x0080300000000, []⟩, .destroyOther, .request ⟨0x0080300000000, []⟩] }

theorem test_pool_full_then_free :
    (ran 1 fullPool).map (fun t => (t.live, t.status)) = some (false, some .noDevice) ∧
    (ran 3 fullPool).map (fun t => (t.live, t.status)) = some (true, some .ok) := by decide

/-- 40_registry_lifecycle.md R96: this live device is one of the `k`; another takes a slot only when one is free and
its lists are given. -/
theorem test_create_other :
    (ran 1 { live .four with port := [.createOther true] }).map State.othersLive = some 0 ∧
    (ran 1 { State.reset with port := [.createOther true] }).map State.othersLive = some 1 ∧
    (ran 1 { State.reset with port := [.createOther false] }).map State.othersLive = some 0 := by decide

/-- A request presented after reset is run by the next step (30_encoding.md R62, R63): CLEAR is refused on the
free device, CREATE runs. -/
theorem test_first_step :
    (match step (State.reset.withFetchWord 56 0x2000000000000) with | .refused r => some r | _ => none)
      = some .notLive ∧
    (match step (State.reset.withFetchWord 56 0x0180300000000) with | .next t => some t.live | _ => none)
      = some true := by decide

/-! ### Witnesses: the hypotheses of each statement can be met -/

theorem driven_live (w : Width) : Driven (live w) := by cases w <;> (unfold Driven; decide)

theorem driven_clearing (w : Width) : Driven (clearing w) := by cases w <;> (unfold Driven; decide)

theorem ready_live (w : Width) : Ready (live w) := ⟨rfl, rfl, driven_live w⟩

theorem ready_polled (w : Width) (a : List Bool) : Ready (polled w a) :=
  ⟨rfl, rfl, driven_clearing w⟩

theorem quiet_live (w : Width) (n : Nat) : Quiet n (live w) := fun h => by cases h

theorem quiet_clearing (w : Width) : Quiet 9 (clearing w) := by
  intro _ k hk
  revert k
  cases w <;> decide

/-- `FrameBitsSurviveDecoding`. -/
theorem witness_frames_decode :
    (∃ ph w i, decode (.bus ph w) = .ok i) ∧ ∃ ph w i, decode (.nibble ph w) = .ok i :=
  ⟨⟨.ordinary, 0b0011111111, .cmdSetDdram 0x7F, by decide⟩, ⟨.low, 0b101111, .byteLowNibble true 0xF, by decide⟩⟩

/-- `SelectorPicksOperationAndOperands`: every selector occurs. -/
theorem witness_selectors : ∀ o : BitVec 4, (reqWord o 0xFF 0xFF 0).extractLsb' 48 4 = o := by decide

/-- A CLEAR that waits for the controller: work in progress. -/
def working : State := (after .clear (polled .four [true, true])).getD State.reset

/-- `StepRunsTheDecodedRequest`: a state for each clause. -/
theorem witness_steps :
    ({ live .four with resets := [0] } : State).resets = [0] ∧
    (∃ r more, ({ live .four with port := [.request ⟨0x2000000000000, []⟩] } : State).port = .request r :: more) ∧
    (∃ more, ({ live .four with port := [.createOther true] } : State).port = .createOther true :: more) ∧
    (∃ more, ({ live .four with port := [.destroyOther] } : State).port = .destroyOther :: more) ∧
    ((live .four).resets = [] ∧ (live .four).seq = [] ∧ (live .four).port = []) ∧
    (∃ i rest, (State.reset.withFetchWord 16 0x001).seq = .issue i :: rest) ∧
    (working.resets = [] ∧ ∃ rest, working.seq = .poll :: rest) :=
  ⟨rfl, ⟨_, _, rfl⟩, ⟨_, rfl⟩, ⟨_, rfl⟩, ⟨rfl, rfl, rfl⟩, ⟨.cmdClear, [], rfl⟩, rfl, _, rfl⟩

/-- `PlacedWordIsTheNextToRun`: a request word, a frame and a nibble. -/
theorem witness_placed : decodeTableWord 56 0x2000000000000 = some .clear ∧
    decodeTableWord 16 0x0001 = some .cmdClear ∧ decodeTableWord 8 0x3F = none ∧
    decodeTableWord 8 0x2F = some (.byteHighNibble true 0xF) := by decide

/-- `PortIsNotLookedAtWhileWorking`: the step gives a next state; and one that is refused, in a state whose EN is
an input. -/
theorem witness_working :
    (match step working with | .next t => some t.port | _ => none) = some [] ∧
    (match step { State.reset with seq := [.pinSet .en true] } with | .refused r => some r | _ => none)
      = some (.pinSetOnInput .en) := by decide

/-- `RequestIsRefusedWhileWorking`. -/
theorem witness_request_while_working : Instr.isRequest .home = true ∧ working.seq ≠ [] := by decide

/-- `WriteValueDrivesTheLinesAndPulses`, `ByteFramesAreSends`, `SendIsTwoNibblesOrOneByte`: both widths, with and
without polls. -/
theorem witness_send (w : Width) :
    (Driven (live w) ∧ Quiet 1 (live w) ∧ (live w).pins.rw.level = false) ∧
    (Driven (clearing w) ∧ Quiet 1 (clearing w) ∧ (clearing w).pins.rw.level = false) :=
  ⟨⟨driven_live w, quiet_live w 1, rfl⟩, driven_clearing w, fun h k hk => quiet_clearing w h k (by omega), rfl⟩

/-- `SendPollsThenTransfersThenSettles`: two busy answers with polls, none without. -/
theorem witness_poll_ends (w : Width) :
    (Driven (live w) ∧ (live w).seq = [] ∧ (live w).resets = [] ∧ PollEnds 0 (live w)) ∧
    (Driven (polled w [true, true, false]) ∧ (polled w [true, true, false]).seq = [] ∧
      PollEnds 2 (polled w [true, true, false])) :=
  ⟨⟨driven_live w, rfl, rfl, rfl⟩, (ready_polled w _).driven, rfl, by cases w <;> (unfold PollEnds; decide)⟩

/-- `SendIsItsTwoNibbleFrames`: without and with polls. -/
theorem witness_nibble_frames :
    (Driven (live .four) ∧ (live .four).width = .four ∧ (live .four).cfg.busyPoll = false) ∧
    (Driven (clearing .four) ∧ (clearing .four).width = .four ∧ (clearing .four).cfg.busyPoll = true ∧
      (clearing .four).answerAt 0 = false) :=
  ⟨⟨driven_live _, rfl, rfl⟩, driven_clearing _, rfl, rfl, by decide⟩

/-- `BusyWaitRepeatsUntilReady`: two busy answers; no busy answer. -/
theorem witness_busy_wait (w : Width) :
    (Driven (polled w [true, true, false]) ∧ (∀ j < 2, (polled w [true, true, false]).answerAt j = true) ∧
      (polled w [true, true, false]).answerAt 2 = false) ∧
    (Driven (clearing w) ∧ (clearing w).cfg.busyPoll = true ∧ (clearing w).answerAt 0 = false) :=
  ⟨⟨(ready_polled w _).driven, by cases w <;> decide, by cases w <;> decide⟩, driven_clearing w, rfl,
    by cases w <;> decide⟩

/-- `NoPollerNoPinGet`: without polling an instruction gives a next state, and so does a step over work in progress,
with and without a reset. -/
theorem witness_no_poller : (live .four).cfg.busyPoll = false ∧ (after .clear (live .four)).isSome ∧
    (∀ m ∈ [Micro.wait 3, .finish .ok], m ≠ .poll) ∧
    (match step { live .four with seq := [.wait 3, .finish .ok] } with | .next t => some t.trace | _ => none)
      = some [.wait 3] ∧
    (match step { live .four with seq := [.wait 3, .finish .ok], resets := [1] } with
      | .next t => some t.past | _ => none) = some [[.wait 3]] := by decide

/-- `StuckControllerHangs`: three busy answers, two further steps; a GOTO at the end of its range, a PUTS of one
character, and a CREATE of each width. -/
theorem witness_stuck (w : Width) : Ready (polled w [true, true, true]) ∧
    (polled w [true, true, true]).cfg.busyPoll = true ∧ (polled w [true, true, true]).resets = [] ∧
    (∀ k ≤ 2, (polled w [true, true, true]).answerAt k = true) ∧
    (Instr.needsLive (.goto 1 63) = true ∧ Instr.wellFormed (.goto 1 63) = true ∧
      0 < requestPolls (polled w []).cfg (.goto 1 63)) ∧
    (Instr.needsLive (.puts [0x68, 0]) = true ∧ 0 < requestPolls (polled w []).cfg (.puts [0x68, 0])) ∧
    ((∀ k ≤ 2, ({ freePolled with answers := [true, true, true] } : State).answerAt k = true) ∧
      freePolled.live = false ∧ freePolled.seq = [] ∧ freePolled.resets = [] ∧
      freePolled.othersLive < freePolled.cfg.maxDevices ∧
      0 < requestPolls freePolled.cfg (.create 0x00 true true) ∧
      0 < requestPolls freePolled.cfg (.create 0x1C true true) ∧
      Instr.wellFormed (.create 0x1C true true) = true) :=
  ⟨ready_polled w _, rfl, rfl, by cases w <;> decide, by cases w <;> decide, by cases w <;> decide, by decide⟩

/-- `BusShowsTheEncodedFrame`: a command frame and a data frame. -/
theorem witness_bus_frames :
    (encode (.cmdSetDdram 0x7F) = some (.bus .ordinary 0b0011111111) ∧ (0b0011111111#10).getLsbD 8 = false) ∧
    (encode (.dataWrite 0xFF) = some (.bus .ordinary 0b1011111111) ∧ (0b1011111111#10).getLsbD 8 = false) := by
  decide

/-- `ResetByteFollowsItsParameters`: both primitives, and the other width. -/
theorem witness_reset_byte :
    ((live .eight).width = .eight ∧ Driven (live .eight) ∧ Quiet 1 (live .eight)) ∧
    (({ live .eight with cfg := { Config.reference with init8Via := .writeValue } } : State).cfg.init8Via
      = .writeValue ∧ (live .eight).pins.rs.level = false) ∧ (live .four).width = .four :=
  ⟨⟨rfl, driven_live _, quiet_live _ 1⟩, ⟨rfl, rfl⟩, rfl⟩

/-- A live device with RS at the data level. -/
def dataSelected (w : Width) : State := { live w with pins := { drivenPins with rs := ⟨true, .output⟩ } }

/-- `NibbleFramesAreSingleWrites`, `MisplacedNibbleFramesAreRefused`: RS at either level, either width. -/
theorem witness_nibbles :
    (Driven (live .four) ∧ (live .four).pins.rs.level = false) ∧
    (Driven (dataSelected .four) ∧ (dataSelected .four).pins.rs.level = true) ∧ (live .eight).width = .eight :=
  ⟨⟨driven_live _, rfl⟩, ⟨by unfold Driven; decide, rfl⟩, rfl⟩

/-- `BusyReadIsOneIteration`. -/
theorem witness_busy_read (w : Width) : (midPoll w).cfg.busyPoll = true ∧ (midPoll w).pins.rs.level = false ∧
    (midPoll w).pins.rw.level = true ∧ (midPoll w).pins.dir .en = .output ∧
    (midPoll w).pins.dir (msbLine (midPoll w).width) = .input := by
  cases w <;> decide

/-- The statements over a ready device and quiet polls (CLEAR and HOME, the merges, GOTO, SCROLL, DEFCHAR, PUTC,
PUTS, PUTI of up to nine characters): both widths, with and without polls. -/
theorem witness_ready (w : Width) :
    (Ready (live w) ∧ Quiet 9 (live w)) ∧ (Ready (clearing w) ∧ Quiet 9 (clearing w)) :=
  ⟨⟨ready_live w, quiet_live w 9⟩, ready_polled w _, quiet_clearing w⟩

/-- `GotoSendsOffsetPlusColumn`, `GotoBeyondTheFieldIsRefused`: the last column in range of each line and the
first beyond. -/
theorem witness_goto :
    ([0x00, 0x40, 0x10, 0x50].getD (0 : Fin 4) 0 + 127 ≤ 0x7F ∧ [0x00, 0x40, 0x10, 0x50].getD (1 : Fin 4) 0 + 63 ≤ 0x7F ∧
      [0x00, 0x40, 0x10, 0x50].getD (2 : Fin 4) 0 + 111 ≤ 0x7F ∧
      [0x00, 0x40, 0x10, 0x50].getD (3 : Fin 4) 0 + 47 ≤ 0x7F) ∧
    (0x7F < [0x00, 0x40, 0x10, 0x50].getD (0 : Fin 4) 0 + 128 ∧ 0x7F < [0x00, 0x40, 0x10, 0x50].getD (3 : Fin 4) 0 + 48) := by
  decide

/-- `LowerLinesContinueTheUpper`: the last column. -/
theorem witness_lower_lines : (239 : Byte).toNat < 240 := by decide

/-- `DefcharSendsAddressThenBitmap`, `DefcharMasksTheIndex`. -/
theorem witness_defchar : 8 ≤ [1, 2, 3, 4, 5, 6, 7, (8 : Byte)].length ∧
    (10 : Byte).toNat % 8 = (2 : Byte).toNat % 8 := by decide

/-- `StarvedStreamNeverCompletes`: a bitmap of seven bytes, a string without terminator. -/
theorem witness_starved (w : Width) : Ready (live w) ∧ (live w).resets = [] ∧
    Quiet (1 + 7) (live w) ∧ [1, 2, 3, 4, 5, 6, (7 : Byte)].length < 8 ∧ (0x00 : Byte) ∉ [0x68, (0x69 : Byte)] :=
  ⟨ready_live w, rfl, quiet_live w _, by decide, by decide⟩

/-- `PutsSendsUpToTheTerminator`, `PutiSendsSignAndDecimalDigits`: the empty string and nine bytes; a number of
nine characters. -/
theorem witness_print : (0x00 : Byte) ∉ ([] : List Byte) ∧ (0x00 : Byte) ∉ List.replicate 9 (0xFF : Byte) ∧
    (putiChars (-12345678)).length ≤ 9 := by
  refine ⟨by decide, by decide, ?_⟩
  simp [putiChars, decimalChars]

/-- `TogglingOneFlagKeepsTheOthers`, `OnlyMergesAndCreateChangeTheRegisters`,
`OnlyLifecycleChangesWidthAndLive`: the instructions give next states. -/
theorem witness_next : (after (.display true) (live .four)).isSome ∧ (after (.cursor true) (live .four)).isSome ∧
    (after (.blink true) (live .eight)).isSome ∧ (after (.direction true) (live .eight)).isSome ∧
    (after (.autoscroll true) (live .eight)).isSome ∧ (after .home (live .eight)).isSome ∧
    (liveDevices (live .four) ≤ (live .four).cfg.maxDevices ∧
      (ran 1 { live .four with port := [.createOther true] }).isSome) := by decide

/-- The device of V-INIT-4 after CREATE. -/
def created : State := (after (.create 0x08 true true) State.reset).getD State.reset

/-- `RegistersAreTheLastBytesSent`: a completed CREATE, and then a merge; a CREATE with one busy answer, complete one
step later. -/
theorem witness_synced : LatchInv State.reset ∧ State.reset.pins.rw.level = false ∧ LatchInv created ∧
    created.pins.rw.level = false ∧ Ready created ∧ Synced created ∧
    (after (.blink true) created).map (fun t => (t.seq, t.live)) = some ([], true) ∧
    (freePolled.port = [] ∧ freePolled.resets = []) ∧
    ((after (.create 0x08 true true) { freePolled with answers := [true, false, false, false, false] }).bind
      (ran 1)).map (fun t => (t.seq, t.live)) = some ([], true) :=
  ⟨rfl, rfl, by unfold LatchInv; decide, by decide, ⟨by decide, by decide, by unfold Driven; decide⟩,
    by unfold Synced; decide, by decide, ⟨rfl, rfl⟩, by decide⟩

/-- The statements about a CREATE that runs: both ends of the legal `config` values, with and without polls. -/
theorem witness_create : (State.reset.live = false ∧ State.reset.seq = [] ∧
      State.reset.othersLive < State.reset.cfg.maxDevices ∧ Quiet (createPolls State.reset.cfg 0x00) State.reset ∧
      State.reset.cfg.init8OrOpcode = false ∧
      State.reset.cfg.busyPoll = false ∧ State.reset.pins.rw.level = false) ∧
    (freePolled.live = false ∧ freePolled.othersLive < freePolled.cfg.maxDevices ∧
      Quiet (createPolls freePolled.cfg 0x1C) freePolled) :=
  ⟨⟨rfl, rfl, by decide, (fun h => by cases h), rfl, rfl, rfl⟩, rfl, by decide,
    fun _ => by decide⟩

/-- `CreateForgetsTheEarlierLife`: reset, and a device that was live, destroyed. -/
theorem witness_earlier_life :
    (({ live .eight with live := false, control := 0x0F } : State).cfg = State.reset.cfg ∧
      ({ live .eight with live := false, control := 0x0F } : State).seq = []) ∧
    (after (.create 0x08 true true) State.reset).isSome ∧
    (after (.create 0x08 true true) { live .eight with live := false, control := 0x0F }).isSome := by decide

/-- `CreateFailsExactlyWithoutListOrSlot`: no list; no slot; the status (L1-6, L1-7). -/
theorem witness_no_device :
    (after (.create 0x08 true false) State.reset).map State.status = some (some .noDevice) ∧
    ({ State.reset with othersLive := 1 } : State).cfg.maxDevices ≤ 1 ∧
    (after (.create 0x08 true true) { State.reset with othersLive := 1 }).map State.status
      = some (some .noDevice) ∧
    (fullPool.live = false ∧ fullPool.seq = [] ∧ fullPool.resets = [] ∧
      fullPool.othersLive = fullPool.cfg.maxDevices ∧ 0 < fullPool.cfg.maxDevices ∧
      fullPool.cfg.busyPoll = false ∧
      fullPool.port = .request ⟨reqWord 0x0 0x08 0x03 0, []⟩ :: .destroyOther ::
        .request ⟨reqWord 0x0 0x08 0x03 0, []⟩ :: []) := by decide

/-- `CreateRefusesLiveDeviceAndIllegalConfig`, `DestroyFreesAndChangesNothingElse`, `FreeDeviceRefusesRequests`. -/
theorem witness_refused_create : ((live .four).seq = [] ∧ (live .four).live = true) ∧
    (State.reset.live = false ∧ (0x02 : Byte) ∉ [0x00, 0x04, 0x08, 0x0C, 0x10, 0x14, 0x18, (0x1C : Byte)]) ∧
    Instr.needsLive .clear = true := by decide

/-- `ResetIsFreeAndIdle`. -/
theorem witness_reset_input : ({ working with resets := [0] } : State).resets = [0] := rfl

/-- `ResetBreaksTheStepOff`: a WriteValue of eight events, with a reset seven events ahead, at its last event, and
nine events ahead. -/
theorem witness_reset_ahead :
    let s := { live .four with seq := writeItems Config.reference .four 0x3 ++ [.wait 2] }
    (match step s with | .next t => some (newEvents s t).length | _ => none) = some 8 ∧
    (∀ n ∈ [7, 8], (match step { s with resets := [n] } with | .next t => some (t.past.map List.length) | _ => none)
      = some [n]) ∧
    (match step { s with resets := [9] } with | .next t => some t.resets | _ => none) = some [1] := by decide

/-- `ResetCanSplitAByte`. -/
theorem witness_split :
    let s := { live .four with port := [.request ⟨reqWord 0xC 0x68 0 0, []⟩], resets := [8] }
    Ready s ∧ s.width = .four ∧ s.cfg.busyPoll = false ∧ s.pins.rw.level = false :=
  ⟨⟨rfl, rfl, driven_live .four⟩, rfl, rfl, rfl⟩

/-- `StepKeepsTheGpioInvariant`, `StepNeverBreaksTheGpioContract`: a live device in the middle of a poll. -/
theorem witness_gpio : GpioInv working ∧ (match step working with | .next _ => true | _ => false) = true :=
  ⟨⟨by decide, by decide, by decide⟩, by decide⟩

/-- `StepKeepsTheLinesAtRest`, `StepKeepsTheRegistersLegal`: the same device; and the clause about `IDLE`. -/
theorem witness_rest : RestInv working ∧ RegistersInv working ∧
    (match step { polled .four [] with port := [.request ⟨0x1000000000000, []⟩] } with | .next _ => true | _ => false) = true ∧
    RestInv (polled .four []) ∧ RegistersInv (polled .four []) ∧
    (match step (polled .four []) with | .next t => some (t.live, t.seq) | _ => none) = some (true, []) := by
  have h : ∀ i, Micro.issue i ∉ working.seq := by
    intro i hi
    have : ∀ m ∈ working.seq, (match m with | .issue _ => false | _ => true) = true := by decide
    exact absurd (this _ hi) (by simp)
  exact ⟨⟨by decide, by decide, by decide, h⟩, ⟨by decide, by decide, by decide, h⟩, by decide,
    ⟨by decide, by decide, by decide, by intro i hi; cases hi⟩,
    ⟨by decide, by decide, by decide, by intro i hi; cases hi⟩, by decide⟩

/-- `StepKeepsLatchesEqualToTheTrace`. -/
theorem witness_latches : LatchInv State.reset ∧
    (match step (State.reset.withFetchWord 56 0x0180300000000) with | .next _ => true | _ => false) = true :=
  ⟨rfl, by decide⟩

/-- `RequestsEndWithOkWhenTheControllerClears`: CLEAR with two busy answers; CREATE with one in its second poll. -/
theorem witness_clears :
    (Ready (polled .four [true, true, false]) ∧ Clears [2] (polled .four [true, true, false]) ∧
      requestPolls (polled .four [true, true, false]).cfg .clear ≤ 1 ∧ Instr.wellFormed .clear = true ∧
      Instr.needsLive .clear = true) ∧
    (Clears [0, 1, 0, 0] { freePolled with answers := [false, true, false, false, false] } ∧
      requestPolls freePolled.cfg (.create 0x08 true true) ≤ 4 ∧
      Instr.wellFormed (.create 0x08 true true) = true) := by
  refine ⟨⟨ready_polled _ _, ?_, by decide, by decide, by decide⟩, ?_, by decide, by decide⟩
  · intro _ j a h
    have hj : j < 3 := by
      by_contra hc
      rw [List.getElem?_eq_none (by simp [pollAnswers]; omega)] at h
      cases h
    revert h
    revert a
    revert j
    decide
  · intro _ j a h
    have hj : j < 5 := by
      by_contra hc
      rw [List.getElem?_eq_none (by simp [pollAnswers]; omega)] at h
      cases h
    revert h
    revert a
    revert j
    decide

/-- `BusyAnswersOnlyDelay`: CLEAR with answers 0, and with 1 and 0 and one further step. -/
theorem witness_delay : Instr.isRequest .clear = true ∧
    (after .clear (polled .four [false])).map State.seq = some [] ∧
    ((after .clear (polled .four [true, false])).bind (ran 1)).map State.seq = some [] := by decide

end Sys2Proof.Tests
end

-- The requests of the host while an operation is in progress (00_scope.md R7, R9).
namespace Sys2Proof.Machine

/-! ### A request while another is in progress -/

/-- An operation is accepted as any request of a live device is. -/
theorem operate_eq_acceptLive (items : State → List Micro) (s : State) :
    operate items s = acceptLive (fun s => perform (items s ++ [.finish .ok]) s) s := rfl

/-- Every live-only request goes through the one acceptance of 30_encoding.md R62 and R63; what runs after it is
the instruction's own and the same in every state. -/
theorem exec_eq_acceptLive_of_needsLive {i : Instr} (hlive : Instr.needsLive i = true) :
    ∃ run, ∀ s, exec i s = acceptLive run s := by
  cases i with
  | clear | home | display | cursor | blink | direction | autoscroll | scroll | defchar | putc | puts | puti =>
    exact ⟨_, fun s => by rw [exec]; exact operate_eq_acceptLive _ s⟩
  | goto => exact ⟨_, fun s => by rw [exec]; rfl⟩
  | _ => cases hlive

/-- Every request that has a meaning goes through the acceptance of 30_encoding.md R62. -/
theorem exec_eq_accept_of_isRequest {i : Instr} (hreq : Instr.isRequest i = true) (hres : i ≠ .reserved) :
    ∃ run, ∀ s, exec i s = accept run s := by
  by_cases hlive : Instr.needsLive i = true
  · obtain ⟨run, hrun⟩ := exec_eq_acceptLive_of_needsLive hlive
    exact ⟨_, hrun⟩
  · cases i with
    | create | destroy => exact ⟨_, fun s => by rw [exec]; rfl⟩
    | reserved => exact absurd rfl hres
    | _ => exact absurd hreq hlive

/-- Settles O9: the acceptance every request goes through refuses outside `IDLE`. -/
theorem requestIsRefusedWhileWorking : Obligations.RequestIsRefusedWhileWorking := by
  intro i s hreq hres hbusy
  obtain ⟨run, hrun⟩ := exec_eq_accept_of_isRequest hreq hres
  rw [hrun, accept_busy hbusy]

/-! ### The work items do not depend on the port -/

/-- The state with other acts of the host ahead. -/
def State.withPort (p : List HostAct) (s : State) : State := { s with port := p }

/-- The result of a work item with other acts of the host ahead. -/
def MicroResult.withPort (p : List HostAct) : MicroResult → MicroResult
  | .done s => .done (s.withPort p)
  | .again s => .again (s.withPort p)
  | .refused r => .refused r

/-- The outcome of a step with other acts of the host ahead. -/
def outcomeWithPort (p : List HostAct) : Host.Outcome State Fault Refusal → Host.Outcome State Fault Refusal
  | .next s => .next (s.withPort p)
  | .fault r => .fault r
  | .refused r => .refused r

/-- An operation that commutes with a change of the port: it neither reads nor writes it. -/
def PortFree (f : State → MicroResult) : Prop :=
  ∀ p s, f (s.withPort p) = (f s).withPort p

theorem PortFree.andThen {f g : State → MicroResult} (hf : PortFree f) (hg : PortFree g) :
    PortFree fun s => (f s).andThen g := by
  intro p s
  simp only [hf p s]
  cases f s with
  | done t => exact hg p t
  | again t => rfl
  | refused r => rfl

theorem portFree_pinSet (l : Line) (v : Bool) : PortFree (pinSet l v) := by
  intro p s
  by_cases h : s.pins.dir l = .output
  · rw [pinSet_output h, pinSet_output (s := s.withPort p) h]; rfl
  · rw [pinSet, pinSet, if_neg h, if_neg (show (s.withPort p).pins.dir l ≠ .output from h)]; rfl

theorem portFree_pinGet (l : Line) (a : Bool) : PortFree (pinGet l a) := by
  intro p s
  by_cases h : s.pins.dir l = .input
  · rw [pinGet_input h, pinGet_input (s := s.withPort p) h]; rfl
  · rw [pinGet, pinGet, if_neg h, if_neg (show (s.withPort p).pins.dir l ≠ .input from h)]; rfl

/-- The wait of an enable pulse, whose length is a parameter. -/
theorem portFree_waitEn : PortFree fun s => waitFor s.cfg.tEn s := fun _ _ => rfl

theorem portFree_emptyPulse : PortFree emptyPulse :=
  (portFree_pinSet _ _).andThen (portFree_waitEn.andThen (portFree_pinSet _ _))

/-- The end of a poll iteration: the second pulse, in 4-bit mode only (43_busy_poller.md R127). -/
theorem portFree_secondPulse :
    PortFree fun s => match s.width with | .four => emptyPulse s | .eight => .done s := by
  intro p s
  have hw : (s.withPort p).width = s.width := rfl
  simp only [hw]
  cases s.width with
  | four => exact portFree_emptyPulse p s
  | eight => rfl

theorem portFree_pollIteration (a : Bool) : PortFree (pollIteration a) :=
  (portFree_pinSet _ _).andThen (portFree_waitEn.andThen
    (PortFree.andThen (fun p s => portFree_pinGet (msbLine s.width) a p s)
      ((portFree_pinSet _ _).andThen portFree_secondPulse)))

/-- The answer comes from the environment's stream, not from the port. -/
theorem portFree_pollLoop : PortFree pollLoop := by
  refine PortFree.andThen (f := fun s => pollIteration (s.answerAt 0) (s.takeAnswers 1))
    (fun p s => portFree_pollIteration (s.answerAt 0) p (s.takeAnswers 1)) fun p s => ?_
  have hb : (s.withPort p).busy = s.busy := rfl
  simp only [hb]
  cases s.busy <;> rfl

theorem portFree_runMicro (m : Micro) : PortFree (runMicro m) := by
  cases m with
  | pinSet l v => exact portFree_pinSet l v
  | poll => exact portFree_pollLoop
  | pinDir | wait | loadControl | loadMode | loadScratch | awaitStream | finish | issue => exact fun _ _ => rfl

/-- Neither does a list of work items depend on the port. -/
theorem perform_withPort (p : List HostAct) (items : List Micro) (s : State) :
    perform items (s.withPort p) = outcomeWithPort p (perform items s) := by
  induction items generalizing s with
  | nil => rfl
  | cons m rest ih =>
    rw [perform, perform, portFree_runMicro m p s]
    cases runMicro m s with
    | done t => exact ih t
    | again t => rfl
    | refused r => rfl

/-- A step of work in progress, with other acts of the host ahead. -/
theorem step_withPort_of_working {m : Micro} {rest : List Micro} {s : State} (hr : s.resets = [])
    (hs : s.seq = m :: rest) (hm : ∀ i, m ≠ .issue i) (p : List HostAct) :
    step (s.withPort p) = outcomeWithPort p (step s) := by
  rw [step_working hr hs hm, step_working (s := s.withPort p) hr hs hm]
  exact perform_withPort p (m :: rest) { s with seq := [] }

/-- Settles O8: the work in progress keeps the port (`Kept`) and commutes with a change of it. -/
theorem portIsNotLookedAtWhileWorking : Obligations.PortIsNotLookedAtWhileWorking := by
  intro s m rest other hr hs hm
  have hcomm : step { s with port := other } = outcomeWithPort other (step s) :=
    step_withPort_of_working hr hs hm other
  refine ⟨fun t ht => ⟨?_, ?_⟩, fun e he => ?_⟩
  · rw [step_working hr hs hm] at ht
    exact (perform_kept ht).1.port
  · rw [hcomm, ht]; rfl
  · rw [hcomm, he]; rfl

end Sys2Proof.Machine

-- What one work item and one instruction can do.
namespace Sys2Proof.Machine

/-! ### One work item -/

/-- The state after one poll iteration that sampled `a` (43_busy_poller.md R127). -/
def State.sampled (s : State) (a : Bool) : State :=
  State.moved { s with busy := a } { s.pins with en := { s.pins.en with level := false } }
    (pollEvents s.cfg s.width a)

/-- A poll iteration samples its answer or is refused. -/
theorem pollIteration_cases (a : Bool) (s : State) :
    pollIteration a s = .done (s.sampled a) ∨ ∃ r, pollIteration a s = .refused r := by
  by_cases hen : s.pins.dir .en = .output
  · by_cases hm : s.pins.dir (msbLine s.width) = .input
    · exact .inl (pollIteration_done hen hm)
    · refine .inr ⟨.pinGetOnOutput (msbLine s.width), ?_⟩
      rw [pollIteration, pinSet_output hen, MicroResult.andThen, waitFor, MicroResult.andThen, pinGet, if_neg]
      · rfl
      · simpa using hm
  · refine .inr ⟨.pinSetOnInput .en, ?_⟩
    rw [pollIteration, pinSet, if_neg hen]
    rfl

/-- A poll loop takes its next answer, ends at a 0 and stays at a 1, or is refused. -/
theorem pollLoop_cases (s : State) :
    pollLoop s = (if s.answerAt 0 then .again ((s.takeAnswers 1).sampled true)
      else .done ((s.takeAnswers 1).sampled false)) ∨ ∃ r, pollLoop s = .refused r := by
  rw [pollLoop]
  obtain h | ⟨r, h⟩ := pollIteration_cases (s.answerAt 0) (s.takeAnswers 1)
  · rw [h]
    left
    cases s.answerAt 0 <;> rfl
  · rw [h]
    exact .inr ⟨r, rfl⟩

/-- The state after an item that is done. -/
def Micro.effect (s : State) : Micro → State
  | .pinSet l v => s.moved (s.pins.setLevel l v) [.set l v]
  | .pinDir l d => s.turned l d
  | .wait t => s.waited t
  | .poll => (s.takeAnswers 1).sampled false
  | .loadControl v => { s with control := v }
  | .loadMode v => { s with mode := v }
  | .loadScratch p => { s with scratch := p }
  | .finish st => s.completed st
  | .awaitStream | .issue _ => s

/-- An item that is done has its effect. -/
theorem runMicro_done {m : Micro} {s u : State} (h : runMicro m s = .done u) : u = m.effect s := by
  cases m with
  | pinSet l v =>
    simp only [runMicro, pinSet] at h
    split at h <;> cases h
    rfl
  | poll =>
    rw [runMicro] at h
    obtain hp | ⟨r, hp⟩ := pollLoop_cases s
    · rw [hp] at h
      split at h <;> cases h
      rfl
    · rw [hp] at h
      cases h
  | pinDir | wait | loadControl | loadMode | loadScratch | finish => cases h; rfl
  | awaitStream | issue => cases h

/-- The items a step ends at: a poll that sampled a 1, a missing stream byte, a frame to be started. -/
theorem runMicro_again {m : Micro} {s u : State} (h : runMicro m s = .again u) :
    (m = .poll ∧ s.answerAt 0 = true ∧ u = (s.takeAnswers 1).sampled true) ∨
    ((m = .awaitStream ∨ ∃ i, m = .issue i) ∧ u = s) := by
  cases m with
  | pinSet l v =>
    simp only [runMicro, pinSet] at h
    split at h <;> cases h
  | poll =>
    rw [runMicro] at h
    obtain hp | ⟨r, hp⟩ := pollLoop_cases s
    · rw [hp] at h
      split at h <;> cases h
      exact .inl ⟨rfl, ‹_›, rfl⟩
    · rw [hp] at h
      cases h
  | awaitStream => cases h; exact .inr ⟨.inl rfl, rfl⟩
  | issue i => cases h; exact .inr ⟨.inr ⟨i, rfl⟩, rfl⟩
  | pinDir | wait | loadControl | loadMode | loadScratch | finish => cases h

@[simp] theorem Micro.effect_seq (m : Micro) (s : State) : (m.effect s).seq = s.seq := by cases m <;> rfl

@[simp] theorem State.sampled_trace (s : State) (a : Bool) :
    (s.sampled a).trace = s.trace ++ pollEvents s.cfg s.width a :=
  State.moved_trace _ _ _

/-! ### A quantity that the work in progress determines -/

/-- The quantity `f` changes from item to item as `g` says, as long as the state and the items still to do are
related by `I`. -/
structure Follows {α : Type} (f : State → α) (g : α → Micro → α) (I : State → List Micro → Prop) : Prop where
  done  : ∀ {s m rest}, I s (m :: rest) → f (m.effect s) = g (f s) m ∧ I (m.effect s) rest
  /-- An item done again later leads to the same end: a sampled 1, and an item that waits. -/
  busy  : ∀ {s rest}, I s (.poll :: rest) → g (f ((s.takeAnswers 1).sampled true)) .poll = g (f s) .poll ∧
    I ((s.takeAnswers 1).sampled true) (.poll :: rest)
  /-- The quantity is not about the sequencer's position. -/
  value_seq    : ∀ s q, f { s with seq := q } = f s
  relation_seq : ∀ {s items} q, I s items → I { s with seq := q } items

/-- A step of the sequencer keeps the value the quantity has once the work is done. -/
theorem Follows.perform_foldl {α : Type} {f : State → α} {g : α → Micro → α} {I : State → List Micro → Prop}
    (h : Follows f g I) {items : List Micro} {s t : State} (hp : perform items s = .next t) (hs : s.seq = [])
    (hi : I s items) : t.seq.foldl g (f t) = items.foldl g (f s) ∧ I t t.seq := by
  induction items generalizing s with
  | nil =>
    cases hp
    rw [hs]
    exact ⟨rfl, hi⟩
  | cons m rest ih =>
    rw [perform] at hp
    split at hp
    next u hu =>
      obtain rfl := runMicro_done hu
      obtain ⟨hf, hi'⟩ := h.done hi
      rw [List.foldl_cons, ← hf]
      exact ih hp (by simpa using hs) hi'
    next u hu =>
      cases hp
      have hseq : u.seq = [] := by obtain ⟨-, -, rfl⟩ | ⟨-, rfl⟩ := runMicro_again hu <;> exact hs
      simp only [hseq, List.append_nil, h.value_seq, List.foldl_cons]
      obtain ⟨rfl, -, rfl⟩ | ⟨-, rfl⟩ := runMicro_again hu
      · obtain ⟨hf, hi'⟩ := h.busy hi
        exact ⟨by rw [hf], h.relation_seq _ hi'⟩
      · exact ⟨rfl, h.relation_seq _ hi⟩
    next r hr => cases hp

/-! ### The pins follow the trace -/

/-- The pins of the later state are what the events between the two left of the earlier one's (10_state.md R21). -/
def Moves (s t : State) : Prop := ∃ es, t.trace = s.trace ++ es ∧ s.pins.afterAll es = t.pins

theorem Moves.of_eq {s t : State} (ht : t.trace = s.trace) (hp : t.pins = s.pins) : Moves s t :=
  ⟨[], by simp [ht], hp.symm⟩

theorem Moves.trans {s t u : State} (h : Moves s t) (k : Moves t u) : Moves s u := by
  obtain ⟨es, he, hp⟩ := h
  obtain ⟨fs, hf, hq⟩ := k
  exact ⟨es ++ fs, by rw [hf, he, List.append_assoc], by rw [← hq, ← hp, Pins.afterAll, List.foldl_append]; rfl⟩

theorem moves_sampled (s : State) (a : Bool) : Moves s (s.sampled a) := by
  refine ⟨_, State.sampled_trace s a, ?_⟩
  cases s.width <;> rfl

theorem moves_effect (m : Micro) (s : State) : Moves s (m.effect s) := by
  cases m with
  | pinSet l v => exact ⟨_, State.moved_trace _ _ _, rfl⟩
  | pinDir l d => exact ⟨_, State.moved_trace _ _ _, rfl⟩
  | wait t => exact ⟨_, State.record_trace _ _, rfl⟩
  | poll => exact moves_sampled (s.takeAnswers 1) false
  | loadControl | loadMode | loadScratch | finish | awaitStream | issue => exact .of_eq rfl rfl

theorem moves_perform {items : List Micro} {s t : State} (h : perform items s = .next t) : Moves s t := by
  induction items generalizing s with
  | nil => cases h; exact .of_eq rfl rfl
  | cons m rest ih =>
    rw [perform] at h
    split at h
    next u hu =>
      obtain rfl := runMicro_done hu
      exact (moves_effect m s).trans (ih h)
    next u hu =>
      cases h
      obtain ⟨-, -, rfl⟩ | ⟨-, rfl⟩ := runMicro_again hu
      · exact moves_sampled (s.takeAnswers 1) true
      · exact .of_eq rfl rfl
    next r hr => cases h

/-! ### A request as parts -/

/-- A part of an operation: one internal procedure, one wait, one store, or the wait for a missing stream byte. -/
inductive Part where
  | send (kind : Kind) (v : Byte)
  | write (v : Nat)
  | wait (t : Nat)
  | storeControl (v : Byte)
  | storeMode (v : Byte)
  | storeScratch (p : Scratch)
  | starve

/-- The work items of a part. -/
def Part.items (c : Config) (w : Width) : Part → List Micro
  | .send kind v => sendItems c w kind v
  | .write v => writeItems c w v
  | .wait t => [.wait t]
  | .storeControl v => [.loadControl v]
  | .storeMode v => [.loadMode v]
  | .storeScratch p => [.loadScratch p]
  | .starve => [.awaitStream]

/-- The work items of parts in order. -/
def partsItems (c : Config) (w : Width) (ps : List Part) : List Micro := ps.flatMap (Part.items c w)

@[simp] theorem partsItems_nil (c : Config) (w : Width) : partsItems c w [] = [] := rfl

@[simp] theorem partsItems_cons (c : Config) (w : Width) (p : Part) (ps : List Part) :
    partsItems c w (p :: ps) = p.items c w ++ partsItems c w ps := rfl

@[simp] theorem partsItems_append (c : Config) (w : Width) (ps qs : List Part) :
    partsItems c w (ps ++ qs) = partsItems c w ps ++ partsItems c w qs := List.flatMap_append

theorem partsItems_sends (c : Config) (w : Width) (kind : Kind) (vs : List Byte) :
    partsItems c w (vs.map (.send kind)) = sendAllItems c w kind vs := by
  rw [partsItems, List.flatMap_map]
  rfl

/-- The parts of a request on a live device (44_codec_commands.md, 45_codec_address.md, 46_codec_print.md). -/
def Instr.parts (s : State) : Instr → List Part
  | .clear => [.send .command clearCommand, .wait s.cfg.tSlow]
  | .home => [.send .command homeCommand, .wait s.cfg.tSlow]
  | .display f => [.storeControl (mergeFlag s.control displayOn f), .send .command (mergeFlag s.control displayOn f)]
  | .cursor f => [.storeControl (mergeFlag s.control cursorOn f), .send .command (mergeFlag s.control cursorOn f)]
  | .blink f => [.storeControl (mergeFlag s.control blinkOn f), .send .command (mergeFlag s.control blinkOn f)]
  | .direction f => [.storeMode (mergeFlag s.mode leftToRight f), .send .command (mergeFlag s.mode leftToRight f)]
  | .autoscroll f => [.storeMode (mergeFlag s.mode autoscrollOn f), .send .command (mergeFlag s.mode autoscrollOn f)]
  | .goto line col => [.send .command (setDdramByte (gotoAddress line col))]
  | .scroll right => [.send .command (displayShiftByte right)]
  | .defchar idx stream => .send .command (setCgramByte idx) :: (bitmapBytes stream).map (.send .data)
      ++ if stream.length < 8 then [.starve] else []
  | .putc c => [.send .data c]
  | .puts stream => (stringBytes stream).map (.send .data) ++ if terminated stream then [] else [.starve]
  | .puti n => (if n.msb then [.send .data minusSign] else [])
      ++ .storeScratch (convert (magnitude n) s.scratch)
      :: (digitChars (convert (magnitude n) s.scratch)).map (.send .data)
  | _ => []

/-- The parts of the reset dance of a width (41_init_sequence.md R103, R104). -/
def danceParts (c : Config) (w : Width) (config : Byte) : List Part :=
  match w with
  | .four => [.write 0x3, .wait c.tInit1, .write 0x3, .wait c.tInit2, .write 0x3, .wait c.tInit3, .write 0x2]
  | .eight =>
    let byte : Part := match c.init8Via with
      | .send => .send .command (danceByte c.init8OrOpcode config)
      | .writeValue => .write (danceByte c.init8OrOpcode config).toNat
    [byte, .wait c.tInit1, byte, .wait c.tInit2, byte, .wait c.tInit3]

/-- The parts of INIT after the reset dance (41_init_sequence.md R105 to R108). -/
def setupParts (c : Config) (config : Byte) : List Part :=
  [.send .command (functionSetByte config), .storeControl controlAfterCreate, .send .command controlAfterCreate,
    .send .command clearCommand, .wait c.tSlow, .storeMode modeAfterCreate, .send .command modeAfterCreate]

theorem initItems_eq_parts (c : Config) (w : Width) (config : Byte) :
    initItems c w config = .wait c.tPowerup :: .pinSet .rs false :: .pinSet .en false ::
      partsItems c w (danceParts c w config ++ setupParts c config) := by
  have hdance : danceItems c w config = partsItems c w (danceParts c w config) := by
    cases w with
    | four => simp [danceItems, nibbleDanceItems, danceParts, Part.items]
    | eight =>
      cases h : c.init8Via <;> simp [danceItems, byteDanceItems, danceByteItems, danceParts, Part.items, h]
  simp [initItems, hdance, setupParts, Part.items, storeControlItems, clearItems, storeModeItems]

/-- The whole work of CREATE on the claimed device (40_registry_lifecycle.md R90). -/
def bringUpItems (c : Config) (w : Width) (config : Byte) : List Micro :=
  configurePinsItems c w ++ initItems c w config ++ [.finish .ok]

/-- How a request that is not refused starts: the state its work begins in, and the work. -/
inductive Starts : Instr → State → State → List Micro → Prop
  | live {i : Instr} {s : State} (hneeds : Instr.needsLive i = true) (hidle : s.seq = []) (hlive : s.live = true) :
      Starts i s { s with status := none } (partsItems s.cfg s.width (Instr.parts s i) ++ [.finish .ok])
  | create {config : Byte} {s : State} (hidle : s.seq = []) (hfree : s.live = false)
      (hlegal : legalConfig config = true) (hslot : slotFree s = true) :
      Starts (.create config true true) s (claim config { s with status := none })
        (bringUpItems s.cfg (configWidth config) config)
  | noDevice {config : Byte} {c d : Bool} {s : State} (hidle : s.seq = []) (hfree : s.live = false)
      (hlacks : (!c || !d || !slotFree s) = true) :
      Starts (.create config c d) s { s with status := some .noDevice } []
  | destroy {s : State} (hidle : s.seq = []) :
      Starts .destroy s { s with live := false, status := some .ok } []

/-- A refusal that is not about the direction of a line. -/
def Refusal.formal (r : Refusal) : Prop := ∀ l, r ≠ .pinSetOnInput l ∧ r ≠ .pinGetOnOutput l

/-- How a request of a live device starts in `IDLE`, or that it is refused (30_encoding.md R62, R63). -/
theorem acceptLive_starts {i : Instr} {s : State} {run : State → Host.Outcome State Fault Refusal}
    (hneeds : Instr.needsLive i = true) (hidle : s.seq = [])
    (hrun : (∃ r, (∀ s, run s = .refused r) ∧ Refusal.formal r) ∨
      ∀ s, run s = perform (partsItems s.cfg s.width (Instr.parts s i) ++ [.finish .ok]) s) :
    (∃ r, acceptLive run s = .refused r ∧ Refusal.formal r) ∨
    ∃ s' items, Starts i s s' items ∧ acceptLive run s = perform items s' := by
  cases hlive : s.live
  · exact .inl ⟨_, acceptLive_free hidle hlive, by simp [Refusal.formal]⟩
  · have e : acceptLive run s = run { s with status := none } := by
      rw [acceptLive, accept_idle hidle]
      simp [hlive]
    obtain ⟨r, hr, hf⟩ | hw := hrun
    · exact .inl ⟨r, e.trans (hr _), hf⟩
    · exact .inr ⟨_, _, .live hneeds hidle hlive, by rw [e, hw]; cases i <;> rfl⟩

/-- The same for an operation whose work is its parts. -/
theorem operate_starts {i : Instr} {s : State} {items : State → List Micro} (hidle : s.seq = [])
    (hneeds : Instr.needsLive i = true)
    (hitems : ∀ s, items s = partsItems s.cfg s.width (Instr.parts s i)) :
    (∃ r, operate items s = .refused r ∧ Refusal.formal r) ∨
    ∃ s' work, Starts i s s' work ∧ operate items s = perform work s' := by
  rw [operate_eq_acceptLive]
  exact acceptLive_starts hneeds hidle (.inr fun s => by rw [hitems])

/-- CREATE in `IDLE`: refused, without a device, or the claimed device's work (40_registry_lifecycle.md R90). -/
theorem create_starts (config : Byte) (c d : Bool) {s : State} (hidle : s.seq = []) :
    (∃ r, exec (.create config c d) s = .refused r ∧ Refusal.formal r) ∨
    ∃ s' items, Starts (.create config c d) s s' items ∧ exec (.create config c d) s = perform items s' := by
  rw [exec, execCreate, accept_idle hidle]
  split
  · exact .inl ⟨_, rfl, by simp [Refusal.formal]⟩
  next hlive =>
    have hfree : s.live = false := by simpa using hlive
    split
    · exact .inl ⟨_, rfl, by simp [Refusal.formal]⟩
    next hlegal =>
      split
      next hlacks => exact .inr ⟨_, _, .noDevice hidle hfree hlacks, rfl⟩
      next hlacks =>
        have hslot : slotFree { s with status := none } = slotFree s := rfl
        simp only [hslot, Bool.or_eq_true, Bool.not_eq_true', not_or, Bool.not_eq_false] at hlacks hlegal
        obtain ⟨⟨rfl, rfl⟩, hs⟩ := hlacks
        exact .inr ⟨_, _, .create hidle hfree hlegal hs, rfl⟩

/-- A request is refused for its form, the device or the sequencer, or it starts and its work is performed
(30_encoding.md R62, R63). -/
theorem request_cases {i : Instr} (hreq : Instr.isRequest i = true) (s : State) :
    (∃ r, exec i s = .refused r ∧ Refusal.formal r) ∨
    ∃ s' items, Starts i s s' items ∧ exec i s = perform items s' := by
  by_cases hres : i = .reserved
  · subst hres
    exact .inl ⟨_, rfl, by simp [Refusal.formal]⟩
  by_cases hidle : s.seq = []
  swap
  · exact .inl ⟨_, requestIsRefusedWhileWorking i s hreq hres hidle, by simp [Refusal.formal]⟩
  cases i with
  | create config c d => exact create_starts config c d hidle
  | destroy =>
    refine .inr ⟨_, _, .destroy hidle, ?_⟩
    rw [exec, execDestroy, accept_idle hidle]
    rfl
  | reserved => exact absurd rfl hres
  | goto line col =>
    rw [exec, execGoto]
    refine acceptLive_starts rfl hidle ?_
    cases hr : gotoInRange line col
    · exact .inl ⟨_, fun _ => rfl, by simp [Refusal.formal]⟩
    · exact .inr fun s => by simp [Instr.parts, Part.items]
  | clear | home =>
    simp only [exec, execClear, execHome]
    refine operate_starts hidle ?_ fun s => ?_
    · rfl
    · simp [Instr.parts, Part.items, clearItems, homeItems]
  | display | cursor | blink | direction | autoscroll =>
    refine operate_starts hidle ?_ fun s => ?_
    · rfl
    · simp [Instr.parts, Part.items, mergeControl, storeControlItems, mergeMode, storeModeItems]
  | scroll | putc =>
    simp only [exec, execScroll, execPutc]
    refine operate_starts hidle ?_ fun s => ?_
    · rfl
    · simp [Instr.parts, Part.items]
  | defchar idx stream =>
    rw [exec, execDefchar]
    refine operate_starts hidle ?_ fun s => ?_
    · rfl
    · by_cases h : stream.length < 8 <;> simp [Instr.parts, Part.items, partsItems_sends, missingBitmapItems, h]
  | puts stream =>
    rw [exec, execPuts]
    refine operate_starts hidle ?_ fun s => ?_
    · rfl
    · cases h : terminated stream <;> simp [Instr.parts, Part.items, partsItems_sends, missingTerminatorItems, h]
  | puti n =>
    refine operate_starts hidle ?_ fun s => ?_
    · rfl
    · cases h : n.msb <;> simp [Instr.parts, Part.items, partsItems_sends, putiItems, h]
  | _ => cases hreq

namespace Starts
variable {i : Instr} {s s' : State} {items : List Micro} (h : Starts i s s' items)
include h

/-! What a request finds when its work begins: everything but `live`, `W` and the status as it was. -/

theorem idle : s.seq = [] := by cases h <;> assumption
theorem begins_seq : s'.seq = [] := by cases h <;> assumption
theorem begins_cfg : s'.cfg = s.cfg := by cases h <;> rfl
theorem begins_pins : s'.pins = s.pins := by cases h <;> rfl
theorem begins_trace : s'.trace = s.trace := by cases h <;> rfl
theorem begins_othersLive : s'.othersLive = s.othersLive := by cases h <;> rfl
theorem begins_resets : s'.resets = s.resets := by cases h <;> rfl
theorem begins_port : s'.port = s.port := by cases h <;> rfl

/-- A request that leaves the device free has no work. -/
theorem items_of_free (hfree : s'.live = false) : items = [] := by
  cases h with
  | live _ _ hlive => exact absurd (hlive.symm.trans hfree) (by decide)
  | create => cases hfree
  | noDevice | destroy => rfl
end Starts

/-- A frame or an internal procedure performs a list of items on the state as it is; `busy.read` samples its own
operand (log 9, log 25). -/
theorem frame_cases {i : Instr} {s t : State} (hreq : Instr.isRequest i = false) (h : exec i s = .next t) :
    (∃ items, perform items s = .next t) ∨ ∃ b, t = s.sampled b := by
  have nibble : ∀ rs v, emitNibble rs v s = .next t → ∃ items, perform items s = .next t := by
    intro rs v h
    unfold emitNibble at h
    split at h
    · split at h
      · exact ⟨_, h⟩
      · cases h
    · cases h
  cases i with
  | cmdClear | cmdHome | cmdEntryMode | cmdDisplayControl | cmdDisplayShift | cmdFunctionSet | cmdSetCgram
  | cmdSetDdram | dataWrite | writeValue | send => exact .inl ⟨_, h⟩
  | resetNibble3 | resetNibble2 | byteLowNibble => exact .inl (nibble _ _ h)
  | byteHighNibble =>
    simp only [exec, execByteHighNibble] at h
    split at h
    · exact .inl ⟨_, h⟩
    · cases h
  | cmdResetByte8 =>
    simp only [exec, execCmdResetByte8] at h
    split at h
    · cases h
    · split at h
      · cases h
      · exact .inl ⟨_, h⟩
  | busyWait =>
    simp only [exec, execBusyWait] at h
    split at h
    · exact .inl ⟨_, h⟩
    · cases h
  | busyRead b =>
    simp only [exec, execBusyRead] at h
    split at h
    · split at h
      · obtain hp | ⟨r, hp⟩ := pollIteration_cases b s
        · rw [hp] at h
          cases h
          exact .inr ⟨b, rfl⟩
        · rw [hp] at h
          cases h
      · cases h
    · cases h
  | _ => cases hreq

/-- The ways an instruction can end in a next state. -/
theorem exec_next_cases {i : Instr} {s t : State} (h : exec i s = .next t) :
    (∃ s' items, Starts i s s' items ∧ perform items s' = .next t) ∨
    Instr.isRequest i = false ∧ ((∃ items, perform items s = .next t) ∨ ∃ b, t = s.sampled b) := by
  cases hreq : Instr.isRequest i
  · exact .inr ⟨rfl, frame_cases hreq h⟩
  · obtain ⟨r, hr, -⟩ | ⟨s', items, hs, he⟩ := request_cases hreq s
    · rw [hr] at h
      cases h
    · exact .inl ⟨s', items, hs, he ▸ h⟩

theorem moves_exec {i : Instr} {s t : State} (h : exec i s = .next t) : Moves s t := by
  obtain ⟨s', items, hs, hp⟩ | ⟨-, ⟨items, hp⟩ | ⟨b, rfl⟩⟩ := exec_next_cases h
  · exact (Moves.of_eq hs.begins_trace hs.begins_pins).trans (moves_perform hp)
  · exact moves_perform hp
  · exact moves_sampled s b

/-! ### One step -/

/-- The host presents requests only (30_encoding.md R61). -/
theorem decodeRequest_isRequest (w : ReqWord) (stream : List Byte) :
    Instr.isRequest (decodeRequest w stream) = true := by
  unfold decodeRequest
  split <;> rfl

/-- A step without a reset runs a frame the sequencer starts, goes on with the work in progress, or in `IDLE` does
the host's next act (30_encoding.md R62; log 7, log 15). -/
theorem advance_cases (s : State) :
    (∃ i rest, s.seq = .issue i :: rest ∧ advance s = exec i { s with seq := rest }) ∨
    (∃ m rest, s.seq = m :: rest ∧ advance s = perform s.seq { s with seq := [] }) ∨
    (s.seq = [] ∧ ((s.port = [] ∧ advance s = .next s) ∨
      (∃ i more, Instr.isRequest i = true ∧ advance s = exec i { s with port := more }) ∨
      (∃ given more, advance s = .next (createOther given { s with port := more })) ∨
      ∃ more, advance s = .next (destroyOther { s with port := more }))) := by
  unfold advance
  split
  · exact .inl ⟨_, _, ‹_›, rfl⟩
  next m rest _ h => exact .inr (.inl ⟨m, rest, h, by rw [h]⟩)
  next h =>
    refine .inr (.inr ⟨h, ?_⟩)
    split
    · exact .inl ⟨‹_›, rfl⟩
    · exact .inr (.inl ⟨_, _, decodeRequest_isRequest _ _, rfl⟩)
    · exact .inr (.inr (.inl ⟨_, _, rfl⟩))
    · exact .inr (.inr (.inr ⟨_, rfl⟩))

/-- A property that a reset brings about, that is not about the resets ahead, and that a step without a reset
keeps, is kept by every step. -/
theorem step_keeps {P : State → Prop} (hreset : ∀ (s : State) later, P (s.hardwareReset later))
    (hresets : ∀ s r, P s → P { s with resets := r }) {s t : State}
    (hadvance : ∀ u, advance s = .next u → P u) (h : step s = .next t) : P t := by
  obtain ⟨-, ha⟩ | ⟨later, -, rfl⟩ | ⟨n, later, u, -, ha, ⟨-, rfl⟩ | ⟨-, rfl⟩⟩ := step_cases h
  · exact hadvance t ha
  · exact hreset s later
  · exact hresets u _ (hadvance u ha)
  · exact hreset _ later

theorem moves_advance {s t : State} (h : advance s = .next t) : Moves s t := by
  obtain ⟨i, rest, -, he⟩ | ⟨m, rest, -, he⟩ | ⟨-, ⟨-, he⟩ | ⟨i, more, -, he⟩ | ⟨given, more, he⟩ | ⟨more, he⟩⟩ :=
    advance_cases s
  all_goals rw [he] at h
  · exact (Moves.of_eq (t := { s with seq := rest }) rfl rfl).trans (moves_exec h)
  · exact (Moves.of_eq (t := { s with seq := [] }) rfl rfl).trans (moves_perform h)
  · cases h
    exact .of_eq rfl rfl
  · exact (Moves.of_eq (t := { s with port := more }) rfl rfl).trans (moves_exec h)
  · cases h
    rw [createOther_eq]
    exact .of_eq rfl rfl
  · cases h
    exact .of_eq rfl rfl

theorem LatchInv.moves {s t : State} (h : LatchInv s) (hm : Moves s t) : LatchInv t := by
  obtain ⟨es, he, hp⟩ := hm
  unfold LatchInv at h ⊢
  rw [he, Pins.afterAll, List.foldl_append, ← hp, ← h]
  rfl

/-- Settles O54: every event a step adds moves the pins as the trace says (`Moves`). -/
theorem stepKeepsLatchesEqualToTheTrace : Obligations.StepKeepsLatchesEqualToTheTrace := by
  intro s t hs h
  exact step_keeps (fun _ _ => rfl) (fun _ _ hu => hu) (fun u hu => hs.moves (moves_advance hu)) h

end Sys2Proof.Machine

-- Resets, the lifecycle, the registers and the lines at rest.
namespace Sys2Proof.Machine

/-! ### Reset -/

/-- Settles O50: a reset that has come is taken before anything else. -/
theorem resetIsFreeAndIdle : Obligations.ResetIsFreeAndIdle :=
  ⟨rfl, rfl, rfl, fun _ _ hr => ⟨_, step_resetNow hr, rfl, rfl, rfl, rfl, rfl, rfl⟩⟩

/-- Settles O51: after reset the device is free and `IDLE`, so every clause about a live device or about work is
empty, and the trace is empty. -/
theorem invariantsHoldAfterReset : Obligations.InvariantsHoldAfterReset := by
  have hfree : State.reset.live ≠ true := by decide
  have hidle : ∀ i, Micro.issue i ∉ State.reset.seq := fun _ => List.not_mem_nil
  exact ⟨⟨fun _ => rfl, fun h => absurd h hfree, fun h => absurd h hfree⟩,
    ⟨fun _ => rfl, fun h => absurd h hfree, fun h => absurd h hfree, hidle⟩,
    ⟨fun _ => rfl, fun h => absurd h hfree, fun h => absurd h hfree, hidle⟩, rfl⟩

/-! ### The lifecycle -/

/-- No instruction writes the parameters or the count of other devices. -/
theorem exec_cfg_othersLive {i : Instr} {s t : State} (h : exec i s = .next t) :
    t.cfg = s.cfg ∧ t.othersLive = s.othersLive := by
  obtain ⟨s', items, hs, hp⟩ | ⟨-, ⟨items, hp⟩ | ⟨b, rfl⟩⟩ := exec_next_cases h
  · obtain ⟨hk, -⟩ := perform_kept hp
    exact ⟨hk.cfg.trans hs.begins_cfg, hk.othersLive.trans hs.begins_othersLive⟩
  · obtain ⟨hk, -⟩ := perform_kept hp
    exact ⟨hk.cfg, hk.othersLive⟩
  · exact ⟨rfl, rfl⟩

/-- What an instruction may do to `live` and `W`: the start of a request decides it (10_state.md R13, R17). -/
theorem exec_live_width {i : Instr} {s t : State} (h : exec i s = .next t) :
    (t.live = s.live ∧ t.width = s.width) ∨
    (∃ c x y, i = .create c x y) ∧ (t.live = s.live ∨ slotFree s = true ∧ s.live = false) ∨
    i = .destroy ∧ t.live = false ∧ t.width = s.width := by
  obtain ⟨s', items, hs, hp⟩ | ⟨-, ⟨items, hp⟩ | ⟨b, rfl⟩⟩ := exec_next_cases h
  · obtain ⟨hk, -⟩ := perform_kept hp
    rw [hk.live, hk.width]
    cases hs with
    | live => exact .inl ⟨rfl, rfl⟩
    | create _ hfree _ hslot => exact .inr (.inl ⟨⟨_, _, _, rfl⟩, .inr ⟨hslot, hfree⟩⟩)
    | noDevice => exact .inl ⟨rfl, rfl⟩
    | destroy => exact .inr (.inr ⟨rfl, rfl, rfl⟩)
  · obtain ⟨hk, -⟩ := perform_kept hp
    exact .inl ⟨hk.live, hk.width⟩
  · exact .inl ⟨rfl, rfl⟩

/-- CREATE takes a slot only when one is free, so no instruction makes more devices live than `MAX_DEVICES`
(40_registry_lifecycle.md R92, R96). -/
theorem exec_liveDevices {i : Instr} {s t : State} (h : exec i s = .next t)
    (hmax : liveDevices s ≤ s.cfg.maxDevices) : liveDevices t ≤ s.cfg.maxDevices := by
  obtain ⟨-, ho⟩ := exec_cfg_othersLive h
  simp only [liveDevices, ho] at hmax ⊢
  obtain ⟨hl, -⟩ | ⟨-, hl | ⟨hslot, hfree⟩⟩ | ⟨-, hl, -⟩ := exec_live_width h
  · rwa [hl]
  · rwa [hl]
  · have : liveDevices s < s.cfg.maxDevices := of_decide_eq_true hslot
    simp only [liveDevices, hfree] at this
    split <;> simp at this <;> omega
  · rw [hl]
    exact Nat.le_trans (Nat.add_le_add_left (by simp) _) hmax

/-- A step without a reset keeps the parameters and the bound on the live devices. -/
theorem advance_liveDevices {s t : State} (h : advance s = .next t) :
    t.cfg = s.cfg ∧ (liveDevices s ≤ s.cfg.maxDevices → liveDevices t ≤ s.cfg.maxDevices) := by
  obtain ⟨i, rest, -, he⟩ | ⟨m, rest, -, he⟩ | ⟨-, ⟨-, he⟩ | ⟨i, more, -, he⟩ | ⟨given, more, he⟩ | ⟨more, he⟩⟩ :=
    advance_cases s
  all_goals rw [he] at h
  · exact ⟨(exec_cfg_othersLive h).1, exec_liveDevices (s := { s with seq := rest }) h⟩
  · obtain ⟨hk, -⟩ := perform_kept h
    refine ⟨hk.cfg, fun hmax => ?_⟩
    rwa [liveDevices, hk.live, hk.othersLive]
  · cases h
    exact ⟨rfl, id⟩
  · exact ⟨(exec_cfg_othersLive h).1, exec_liveDevices (s := { s with port := more }) h⟩
  · cases h
    exact ⟨createOther_cfg _ _, fun hmax => (liveDevices_others (s := { s with port := more }) hmax given).1⟩
  · cases h
    exact ⟨rfl, fun hmax => (liveDevices_others (s := { s with port := more }) hmax true).2⟩

/-- A reset frees this device and leaves the others. -/
theorem liveDevices_hardwareReset (s : State) (later : List Nat) :
    liveDevices (s.hardwareReset later) ≤ liveDevices s := by
  simp [liveDevices]

/-- Settles O49: an instruction by how it starts and what its work keeps, a step by the ways it can end. -/
theorem onlyLifecycleChangesWidthAndLive : Obligations.OnlyLifecycleChangesWidthAndLive := by
  refine ⟨fun i s t h => ?_, fun s t h => ?_⟩
  · obtain ⟨hc, ho⟩ := exec_cfg_othersLive h
    obtain ⟨es, he, -⟩ := moves_exec h
    refine ⟨hc, ho, ⟨es, he⟩, fun hcreate => ?_, fun hcreate hdestroy => ?_⟩
    · obtain ⟨-, hw⟩ | ⟨⟨c, x, y, rfl⟩, -⟩ | ⟨-, -, hw⟩ := exec_live_width h
      · exact hw
      · exact absurd rfl (hcreate c x y)
      · exact hw
    · obtain ⟨hl, -⟩ | ⟨⟨c, x, y, rfl⟩, -⟩ | ⟨hd, -⟩ := exec_live_width h
      · exact hl
      · exact absurd rfl (hcreate c x y)
      · exact absurd hd hdestroy
  · obtain ⟨-, ha⟩ | ⟨later, -, rfl⟩ | ⟨n, later, u, -, ha, ⟨-, rfl⟩ | ⟨-, rfl⟩⟩ := step_cases h
    · obtain ⟨hc, hl⟩ := advance_liveDevices ha
      exact ⟨hc, by rwa [hc]⟩
    · exact ⟨rfl, (liveDevices_hardwareReset s later).trans⟩
    · obtain ⟨hc, hl⟩ := advance_liveDevices ha
      exact ⟨hc, by rw [show State.cfg { u with resets := _ } = s.cfg from hc]; exact hl⟩
    · obtain ⟨hc, hl⟩ := advance_liveDevices ha
      refine ⟨hc, fun hmax => ?_⟩
      have hcut : liveDevices (s.cutAfter u (n + 1)) = liveDevices u := rfl
      rw [State.hardwareReset_cfg, State.cutAfter_cfg, hc]
      exact (liveDevices_hardwareReset _ later).trans (hcut ▸ hl hmax)

/-! ### What is left of the work holds no frame -/

theorem issue_not_mem_part (c : Config) (w : Width) (p : Part) (i : Instr) : Micro.issue i ∉ p.items c w := by
  have hwrite : ∀ w v, Micro.issue i ∉ writeItems c w v := fun w v => by simp [writeItems]
  cases p with
  | send kind v =>
    cases w <;> cases hb : c.busyPoll <;> simp [Part.items, sendItems, byteItems, busyWaitItems, hwrite, hb]
  | write v => exact hwrite w v
  | wait | storeControl | storeMode | storeScratch | starve => simp [Part.items]

theorem issue_not_mem_parts (c : Config) (w : Width) (ps : List Part) (i : Instr) :
    Micro.issue i ∉ partsItems c w ps := by
  rw [partsItems, List.mem_flatMap]
  rintro ⟨p, -, hp⟩
  exact issue_not_mem_part c w p i hp

/-- No request has a frame of its own in its work (log 9). -/
theorem Starts.no_issue {i : Instr} {s s' : State} {items : List Micro} (h : Starts i s s' items) (j : Instr) :
    Micro.issue j ∉ items := by
  cases h with
  | live => simp [issue_not_mem_parts]
  | create =>
    cases hb : s.cfg.busyPoll <;>
      simp [bringUpItems, configurePinsItems, initItems_eq_parts, issue_not_mem_parts, hb]
  | noDevice | destroy => exact List.not_mem_nil

/-- Nor has what a step leaves of such work. -/
theorem perform_no_issue {items : List Micro} {s t : State} (h : perform items s = .next t) (hs : s.seq = [])
    (hn : ∀ i, Micro.issue i ∉ items) (i : Instr) : Micro.issue i ∉ t.seq := by
  obtain ⟨-, rest, hr, he⟩ := perform_kept h
  rw [he, hs, List.append_nil]
  exact fun hi => hn i (hr.subset hi)

/-! ### The registers, the scratch and the status -/

/-- What the store items write. -/
structure Stored where
  control : Byte
  mode    : Byte
  scratch : Scratch
  status  : Option Status

/-- What a state has of it. -/
def State.stored (s : State) : Stored := ⟨s.control, s.mode, s.scratch, s.status⟩

/-- What an item stores. -/
def Stored.after (x : Stored) : Micro → Stored
  | .loadControl v => { x with control := v }
  | .loadMode v => { x with mode := v }
  | .loadScratch p => { x with scratch := p }
  | .finish st => { x with status := some st }
  | _ => x

theorem follows_stored : Follows State.stored Stored.after fun _ _ => True where
  done := fun {_ m _} _ => ⟨by cases m <;> rfl, trivial⟩
  busy := fun _ => ⟨rfl, trivial⟩
  value_seq := fun _ _ => rfl
  relation_seq := fun _ _ => trivial

theorem finalControl_eq_stored (x : Stored) (items : List Micro) :
    finalControl x.control items = (items.foldl Stored.after x).control := by
  induction items generalizing x with
  | nil => rfl
  | cons m rest ih =>
    rw [List.foldl_cons, ← ih]
    cases m <;> rfl

theorem finalMode_eq_stored (x : Stored) (items : List Micro) :
    finalMode x.mode items = (items.foldl Stored.after x).mode := by
  induction items generalizing x with
  | nil => rfl
  | cons m rest ih =>
    rw [List.foldl_cons, ← ih]
    cases m <;> rfl

/-- What a part stores. -/
def Stored.afterPart (x : Stored) : Part → Stored
  | .storeControl v => { x with control := v }
  | .storeMode v => { x with mode := v }
  | .storeScratch p => { x with scratch := p }
  | _ => x

theorem stored_part (c : Config) (w : Width) (p : Part) (x : Stored) :
    (p.items c w).foldl Stored.after x = x.afterPart p := by
  have hwrite : ∀ w v x, (writeItems c w v).foldl Stored.after x = x := fun w v x => by
    cases w <;> simp [writeItems, dataLines, Stored.after]
  cases p with
  | send kind v =>
    cases w <;> cases hb : c.busyPoll <;>
      simp [Part.items, sendItems, byteItems, busyWaitItems, hwrite, hb, Stored.after, Stored.afterPart]
  | write v => exact hwrite w v x
  | wait | storeControl | storeMode | storeScratch | starve => rfl

theorem stored_parts (c : Config) (w : Width) (ps : List Part) (x : Stored) :
    (partsItems c w ps).foldl Stored.after x = ps.foldl Stored.afterPart x := by
  rw [partsItems, List.foldl_flatMap]
  simp only [stored_part]

/-! ### Legal registers -/

/-- A merge keeps the bits of a register outside the flag (44_codec_commands.md R139). -/
theorem mergeFlag_and {bit mask : Byte} (h : bit &&& mask = 0) (r : Byte) (f : Bool) :
    mergeFlag r bit f &&& mask = r &&& mask := by
  apply BitVec.eq_of_getLsbD_eq
  intro j hj
  have hb := congrArg (BitVec.getLsbD · j) h
  simp only [BitVec.getLsbD_and] at hb
  cases f <;> simp only [mergeFlag, BitVec.getLsbD_and, BitVec.getLsbD_or, BitVec.getLsbD_not, hj] <;>
    cases hbit : bit.getLsbD j <;> simp_all

theorem legalControl_mergeFlag {r bit : Byte} (h : bit &&& 0xF8 = 0) (hr : legalControl r = true) (f : Bool) :
    legalControl (mergeFlag r bit f) = true := by
  rwa [legalControl, mergeFlag_and h]

theorem legalMode_mergeFlag {r bit : Byte} (h : bit &&& 0xFC = 0) (hr : legalMode r = true) (f : Bool) :
    legalMode (mergeFlag r bit f) = true := by
  rwa [legalMode, mergeFlag_and h]

/-- Both registers are legal (10_state.md R14, R15). -/
def Stored.Legal (x : Stored) : Prop := legalControl x.control = true ∧ legalMode x.mode = true

theorem legal_afterCreate : legalControl controlAfterCreate = true ∧ legalMode modeAfterCreate = true := by decide

/-- A command byte that sets neither register of the controller. -/
def NotRegister (v : Byte) : Prop := legalControl v = false ∧ legalMode v = false

/-- The legal values have no bit above bit 3. -/
theorem notRegister_of_bit {v : Byte} {j : Nat} (hj : 4 ≤ j) (hj8 : j < 8) (h : v.getLsbD j = true) :
    NotRegister v := by
  have hcase : j = 4 ∨ j = 5 ∨ j = 6 ∨ j = 7 := by omega
  have hbit : ∀ mask want : Byte, mask.getLsbD j = true → want.getLsbD j = false → (v &&& mask == want) = false := by
    intro mask want hm hw
    refine beq_false_of_ne fun heq => ?_
    have := congrArg (BitVec.getLsbD · j) heq
    simp [h, hm, hw] at this
  constructor
  · exact hbit _ _ (by rcases hcase with rfl | rfl | rfl | rfl <;> rfl)
      (by rcases hcase with rfl | rfl | rfl | rfl <;> rfl)
  · exact hbit _ _ (by rcases hcase with rfl | rfl | rfl | rfl <;> rfl)
      (by rcases hcase with rfl | rfl | rfl | rfl <;> rfl)

theorem notRegister_slow : NotRegister clearCommand ∧ NotRegister homeCommand := by
  unfold NotRegister
  decide

theorem notRegister_displayShift (right : Bool) : NotRegister (displayShiftByte right) :=
  notRegister_of_bit (j := 4) (by decide) (by decide) (by cases right <;> rfl)

theorem notRegister_setDdram (addr : Nat) : NotRegister (setDdramByte addr) :=
  notRegister_of_bit (j := 7) (by decide) (by decide) (by simp [setDdramByte])

theorem notRegister_setCgram (idx : Byte) : NotRegister (setCgramByte idx) :=
  notRegister_of_bit (j := 6) (by decide) (by decide) (by simp [setCgramByte])

/-- A part that touches neither `control` nor `mode`, of the device or of the controller, and is no lone write. -/
def Part.Neutral : Part → Prop
  | .send .command v => NotRegister v
  | .storeControl _ | .storeMode _ | .write _ => False
  | _ => True

/-- The parts of a request on a live device are neutral, or they store one register and send it
(44_codec_commands.md R139; 10_state.md R16). -/
theorem parts_cases (i : Instr) (s : State) :
    (∀ p ∈ Instr.parts s i, p.Neutral) ∨
    (∃ bit f, bit &&& 0xF8 = 0 ∧ Instr.parts s i
      = [.storeControl (mergeFlag s.control bit f), .send .command (mergeFlag s.control bit f)]) ∨
    (∃ bit f, bit &&& 0xFC = 0 ∧ Instr.parts s i
      = [.storeMode (mergeFlag s.mode bit f), .send .command (mergeFlag s.mode bit f)]) := by
  have hsends : ∀ vs : List Byte, ∀ p ∈ vs.map (Part.send .data), p.Neutral := by
    intro vs p hp
    obtain ⟨v, -, rfl⟩ := List.mem_map.mp hp
    trivial
  cases i with
  | display f => exact .inr (.inl ⟨displayOn, f, by decide, rfl⟩)
  | cursor f => exact .inr (.inl ⟨cursorOn, f, by decide, rfl⟩)
  | blink f => exact .inr (.inl ⟨blinkOn, f, by decide, rfl⟩)
  | direction f => exact .inr (.inr ⟨leftToRight, f, by decide, rfl⟩)
  | autoscroll f => exact .inr (.inr ⟨autoscrollOn, f, by decide, rfl⟩)
  | clear => exact .inl (by simp [Instr.parts, Part.Neutral, notRegister_slow])
  | home => exact .inl (by simp [Instr.parts, Part.Neutral, notRegister_slow])
  | scroll right => exact .inl (by simp [Instr.parts, Part.Neutral, notRegister_displayShift])
  | goto line col => exact .inl (by simp [Instr.parts, Part.Neutral, notRegister_setDdram])
  | defchar idx stream =>
    refine .inl fun p hp => ?_
    simp only [Instr.parts, List.cons_append, List.mem_cons, List.mem_append] at hp
    obtain rfl | hp | hp := hp
    · exact notRegister_setCgram idx
    · exact hsends _ p hp
    · split at hp <;> simp at hp
      subst hp
      trivial
  | puts stream =>
    refine .inl fun p hp => ?_
    obtain hp | hp := List.mem_append.mp hp
    · exact hsends _ p hp
    · split at hp <;> simp at hp
      subst hp
      trivial
  | puti n =>
    refine .inl fun p hp => ?_
    simp only [Instr.parts, List.mem_append, List.mem_cons] at hp
    obtain hp | rfl | hp := hp
    · split at hp <;> simp at hp
      subst hp
      trivial
    · trivial
    · exact hsends _ p hp
  | putc c => exact .inl (by simp [Instr.parts, Part.Neutral])
  | _ => exact .inl fun p hp => absurd hp List.not_mem_nil

/-- Neutral parts store neither register. -/
theorem stored_neutral {ps : List Part} (h : ∀ p ∈ ps, p.Neutral) (x : Stored) :
    (ps.foldl Stored.afterPart x).control = x.control ∧ (ps.foldl Stored.afterPart x).mode = x.mode := by
  induction ps generalizing x with
  | nil => exact ⟨rfl, rfl⟩
  | cons p ps ih =>
    obtain ⟨hc, hm⟩ := ih (fun q hq => h q (List.mem_cons_of_mem p hq)) (x.afterPart p)
    rw [List.foldl_cons, hc, hm]
    have hp := h p List.mem_cons_self
    cases p with
    | storeControl | storeMode | write => cases hp
    | _ => exact ⟨rfl, rfl⟩

theorem parts_legal (i : Instr) {s : State} {x : Stored} (hc : x.control = s.control) (hm : x.mode = s.mode)
    (h : x.Legal) : ((Instr.parts s i).foldl Stored.afterPart x).Legal := by
  obtain ⟨hx, hy⟩ := h
  obtain hn | ⟨bit, f, hbit, e⟩ | ⟨bit, f, hbit, e⟩ := parts_cases i s
  · obtain ⟨ec, em⟩ := stored_neutral hn x
    exact ⟨ec ▸ hx, em ▸ hy⟩
  · rw [e]
    exact ⟨legalControl_mergeFlag hbit (hc ▸ hx) f, hy⟩
  · rw [e]
    exact ⟨hx, legalMode_mergeFlag hbit (hm ▸ hy) f⟩

theorem stored_bringUp (c : Config) (w : Width) (config : Byte) (x : Stored) :
    (bringUpItems c w config).foldl Stored.after x
      = { x with control := controlAfterCreate, mode := modeAfterCreate, status := some .ok } := by
  have hdance : ∀ y, (danceParts c w config).foldl Stored.afterPart y = y := by
    intro y
    cases w with
    | four => rfl
    | eight => cases h : c.init8Via <;> simp [danceParts, h, Stored.afterPart]
  have hconfigure : (configurePinsItems c w).foldl Stored.after x = x := by
    cases w <;> cases h : c.busyPoll <;>
      simp [configurePinsItems, deviceLines, dataLines, h, Stored.after]
  simp [bringUpItems, List.foldl_append, hconfigure, initItems_eq_parts, stored_part, stored_parts, hdance,
    Stored.after, setupParts, Stored.afterPart]

/-- The work of a request that starts in `IDLE` on a device with legal registers ends with legal registers. -/
theorem Starts.legal {i : Instr} {s s' : State} {items : List Micro} (h : Starts i s s' items)
    (hs : s.live = true → s.stored.Legal) :
    s'.live = true → (items.foldl Stored.after s'.stored).Legal := by
  intro hl
  cases h with
  | live _ _ hlive =>
    obtain ⟨hx, hy⟩ := parts_legal i (s := s) (x := { s.stored with status := none }) rfl rfl (hs hlive)
    rw [List.foldl_append, stored_parts]
    exact ⟨hx, hy⟩
  | create =>
    rw [stored_bringUp]
    exact legal_afterCreate
  | noDevice _ hfree => exact absurd hl (by simp [hfree])
  | destroy => cases hl

/-! ### An invariant about how the work in progress ends -/

/-- On a live device the work in progress ends with a value of the quantity that is as it must be, and holds no
frame; a free device is `IDLE`. -/
structure WorkInv {α : Type} (f : State → α) (g : α → Micro → α) (G : Config → α → Prop) (s : State) : Prop where
  free_idle : s.live = false → s.seq = []
  ends      : s.live = true → G s.cfg (s.seq.foldl g (f s))
  no_issue  : ∀ i, Micro.issue i ∉ s.seq

section WorkInv
variable {α : Type} {f : State → α} {g : α → Micro → α} {G : Config → α → Prop}

/-- The work of the sequencer keeps it. -/
theorem WorkInv.perform (hf : Follows f g fun _ _ => True) {items : List Micro} {s t : State}
    (hp : perform items s = .next t) (hs : s.seq = []) (hfree : s.live = false → items = [])
    (hends : s.live = true → G s.cfg (items.foldl g (f s))) (hn : ∀ i, Micro.issue i ∉ items) : WorkInv f g G t := by
  obtain ⟨hk, -⟩ := perform_kept hp
  obtain ⟨hfold, -⟩ := hf.perform_foldl hp hs trivial
  refine ⟨fun hl => ?_, fun hl => ?_, perform_no_issue hp hs hn⟩
  · obtain rfl := hfree (hk.live ▸ hl)
    cases hp
    exact hs
  · rw [hk.cfg, hfold]
    exact hends (hk.live ▸ hl)

/-- A request keeps it when its work ends well on a device where the quantity is as it must be. -/
theorem WorkInv.exec (hf : Follows f g fun _ _ => True)
    (hstart : ∀ {i s s' items}, Starts i s s' items → (s.live = true → G s.cfg (f s)) →
      s'.live = true → G s.cfg (items.foldl g (f s')))
    {i : Instr} {s t : State} (h : WorkInv f g G s) (hreq : Instr.isRequest i = true)
    (ht : Machine.exec i s = .next t) : WorkInv f g G t := by
  obtain ⟨r, hr, -⟩ | ⟨s', items, hs, hp⟩ := request_cases hreq s
  · rw [hr] at ht
    cases ht
  · have hgood : s.live = true → G s.cfg (f s) := fun hl => by simpa [hs.idle] using h.ends hl
    exact WorkInv.perform hf (hp ▸ ht) hs.begins_seq hs.items_of_free
      (fun hl => hs.begins_cfg ▸ hstart hs hgood hl) hs.no_issue

/-- Every step keeps it when every request does, and the quantity is the device's own. -/
theorem WorkInv.step (hf : Follows f g fun _ _ => True)
    (henv : ∀ s p r o, f { s with port := p, resets := r, othersLive := o } = f s)
    (hstart : ∀ {i s s' items}, Starts i s s' items → (s.live = true → G s.cfg (f s)) →
      s'.live = true → G s.cfg (items.foldl g (f s')))
    {s t : State} (h : WorkInv f g G s) (hstep : step s = .next t) : WorkInv f g G t := by
  have henv' : ∀ s p r o, WorkInv f g G s → WorkInv f g G { s with port := p, resets := r, othersLive := o } :=
    fun s p r o hs => ⟨hs.free_idle, fun hl => by rw [henv]; exact hs.ends hl, hs.no_issue⟩
  refine step_keeps (fun _ _ => ⟨fun _ => rfl, fun hl => Bool.noConfusion hl, fun _ => List.not_mem_nil⟩)
    (fun s r hs => henv' s s.port r s.othersLive hs) (fun u hu => ?_) hstep
  obtain ⟨i, rest, hseq, -⟩ | ⟨m, rest, -, he⟩ |
    ⟨-, ⟨-, he⟩ | ⟨i, more, hreq, he⟩ | ⟨given, more, he⟩ | ⟨more, he⟩⟩ := advance_cases s
  · exact absurd (hseq ▸ List.mem_cons_self) (h.no_issue i)
  all_goals rw [he] at hu
  · exact WorkInv.perform hf hu rfl h.free_idle (fun hl => by rw [hf.value_seq]; exact h.ends hl) h.no_issue
  · cases hu
    exact h
  · exact WorkInv.exec hf hstart (henv' s more s.resets s.othersLive h) hreq hu
  · cases hu
    rw [createOther_eq]
    exact henv' s more s.resets _ h
  · cases hu
    exact henv' s more s.resets _ h
end WorkInv

theorem registersInv_iff (s : State) :
    RegistersInv s ↔ WorkInv State.stored Stored.after (fun _ => Stored.Legal) s := by
  have hc : finalControl s.control s.seq = (s.seq.foldl Stored.after s.stored).control :=
    finalControl_eq_stored s.stored s.seq
  have hm : finalMode s.mode s.seq = (s.seq.foldl Stored.after s.stored).mode := finalMode_eq_stored s.stored s.seq
  constructor
  · rintro ⟨hfree, hcontrol, hmode, hn⟩
    exact ⟨hfree, fun hl => ⟨hc ▸ hcontrol hl, hm ▸ hmode hl⟩, hn⟩
  · rintro ⟨hfree, hends, hn⟩
    exact ⟨hfree, fun hl => hc ▸ (hends hl).1, fun hl => hm ▸ (hends hl).2, hn⟩

/-- The legal registers as numbers. -/
theorem legalControl_bounds : ∀ r : Byte, legalControl r = true → 0x08 ≤ r.toNat ∧ r.toNat ≤ 0x0F := by decide

theorem legalMode_bounds : ∀ r : Byte, legalMode r = true → 0x04 ≤ r.toNat ∧ r.toNat ≤ 0x07 := by decide

/-- Settles O55: the stores still to do end legally, and every request's do when it starts from legal registers. -/
theorem stepKeepsTheRegistersLegal : Obligations.StepKeepsTheRegistersLegal := by
  intro s t hs h
  have ht : RegistersInv t := (registersInv_iff t).mpr
    (((registersInv_iff s).mp hs).step follows_stored (fun _ _ _ _ => rfl) (fun hst hl => hst.legal hl) h)
  refine ⟨ht, fun hlive hidle => ?_⟩
  have hc := ht.control_ok hlive
  have hm := ht.mode_ok hlive
  rw [hidle] at hc hm
  obtain ⟨c1, c2⟩ := legalControl_bounds _ hc
  obtain ⟨m1, m2⟩ := legalMode_bounds _ hm
  exact ⟨c1, c2, m1, m2⟩

/-! ### The lines at rest -/

/-- The pins after an item; a poll leaves EN 0. -/
def Pins.afterItem (p : Pins) : Micro → Pins
  | .pinSet l v => p.setLevel l v
  | .pinDir l d => p.setDir l d
  | .poll => { p with en := { p.en with level := false } }
  | _ => p

theorem follows_pins : Follows State.pins Pins.afterItem fun _ _ => True where
  done := fun {_ m _} _ => ⟨by cases m <;> rfl, trivial⟩
  busy := fun _ => ⟨rfl, trivial⟩
  value_seq := fun _ _ => rfl
  relation_seq := fun _ _ => trivial

theorem finalLevel_eq_pins (l : Line) (p : Pins) (items : List Micro) :
    finalLevel l (p.level l) items = (items.foldl Pins.afterItem p).level l := by
  induction items generalizing p with
  | nil => rfl
  | cons m rest ih =>
    rw [List.foldl_cons, ← ih]
    cases m with
    | pinSet l' v => simp [finalLevel, Pins.afterItem, eq_comm]
    | pinDir l' d => simp [finalLevel, Pins.afterItem]
    | poll => cases l <;> rfl
    | _ => rfl

/-- A `WriteValue` leaves the value on the data lines and EN 0 (42_bus_transmitter.md R115). -/
theorem pins_write (c : Config) (w : Width) (v : Nat) (p : Pins) :
    (writeItems c w v).foldl Pins.afterItem p
      = { p with data := onLines w p.data v, en := { p.en with level := false } } := by
  have hdata : ((dataLines w).map fun i => Micro.pinSet (.d i) (v.testBit i)).foldl Pins.afterItem p
      = { p with data := onLines w p.data v } := by
    rw [List.foldl_map]
    exact setLevel_dataLines p w v
  rw [writeItems, List.foldl_append, hdata]
  rfl

/-- EN is 0 and RW, where it exists, at its write level (42_bus_transmitter.md R115; 43_busy_poller.md R128). -/
def AtRest (c : Config) (p : Pins) : Prop := p.en.level = false ∧ (c.busyPoll = true → p.rw.level = rwWrite)

/-- Every part starts and ends at rest. -/
theorem atRest_part (c : Config) (w : Width) (part : Part) {p : Pins} (h : AtRest c p) :
    AtRest c ((part.items c w).foldl Pins.afterItem p) := by
  obtain ⟨hen, hrw⟩ := h
  cases part with
  | send kind v =>
    cases w <;> cases hb : c.busyPoll <;>
      simp [Part.items, sendItems, byteItems, busyWaitItems, hb, List.foldl_append, pins_write, Pins.afterItem,
        AtRest, Pins.setLevel]
  | write v => exact ⟨by simp [Part.items, pins_write], by simpa [Part.items, pins_write] using hrw⟩
  | wait | storeControl | storeMode | storeScratch | starve => exact ⟨hen, hrw⟩

theorem atRest_parts (c : Config) (w : Width) (ps : List Part) {p : Pins} (h : AtRest c p) :
    AtRest c ((partsItems c w ps).foldl Pins.afterItem p) := by
  induction ps generalizing p with
  | nil => exact h
  | cons q qs ih =>
    rw [partsItems_cons, List.foldl_append]
    exact ih (atRest_part c w q h)

/-- `ConfigurePins()` puts RW at its write level, and INIT takes EN to 0 before its first transfer
(40_registry_lifecycle.md R91, 41_init_sequence.md R102). -/
theorem atRest_bringUp (c : Config) (w : Width) (config : Byte) (p : Pins) :
    AtRest c ((bringUpItems c w config).foldl Pins.afterItem p) := by
  have hsettled : AtRest c
      ((([.wait c.tPowerup, .pinSet .rs false, .pinSet .en false] : List Micro).foldl Pins.afterItem
        ((configurePinsItems c w).foldl Pins.afterItem p))) := by
    cases hb : c.busyPoll <;>
      simp [AtRest, configurePinsItems, hb, List.foldl_append, Pins.afterItem, Pins.setLevel]
  have hdone := atRest_parts c w (danceParts c w config ++ setupParts c config) hsettled
  rw [bringUpItems, initItems_eq_parts, List.foldl_append, List.foldl_append, List.foldl_cons, List.foldl_cons,
    List.foldl_cons]
  exact hdone

/-- The work of a request that starts at rest ends at rest. -/
theorem Starts.atRest {i : Instr} {s s' : State} {items : List Micro} (h : Starts i s s' items)
    (hs : s.live = true → AtRest s.cfg s.pins) :
    s'.live = true → AtRest s.cfg (items.foldl Pins.afterItem s'.pins) := by
  intro hl
  cases h with
  | live _ _ hlive =>
    rw [List.foldl_append]
    exact atRest_parts _ _ _ (hs hlive)
  | create => exact atRest_bringUp _ _ _ _
  | noDevice _ hfree => exact absurd hl (by simp [hfree])
  | destroy => cases hl

theorem restInv_iff (s : State) : RestInv s ↔ WorkInv State.pins Pins.afterItem AtRest s := by
  have hen : finalLevel .en s.pins.en.level s.seq = (s.seq.foldl Pins.afterItem s.pins).en.level :=
    finalLevel_eq_pins .en s.pins s.seq
  have hrw : finalLevel .rw s.pins.rw.level s.seq = (s.seq.foldl Pins.afterItem s.pins).rw.level :=
    finalLevel_eq_pins .rw s.pins s.seq
  constructor
  · rintro ⟨hfree, hlow, hwrite, hn⟩
    exact ⟨hfree, fun hl => ⟨hen ▸ hlow hl, hrw ▸ hwrite hl⟩, hn⟩
  · rintro ⟨hfree, hends, hn⟩
    exact ⟨hfree, fun hl => hen ▸ (hends hl).1, fun hl => hrw ▸ (hends hl).2, hn⟩

/-- Settles O56: the levels still to be set end at rest, and every request's do when it starts at rest. -/
theorem stepKeepsTheLinesAtRest : Obligations.StepKeepsTheLinesAtRest := by
  intro s t hs h
  have ht : RestInv t := (restInv_iff t).mpr
    (((restInv_iff s).mp hs).step follows_pins (fun _ _ _ _ => rfl) (fun hst hl => hst.atRest hl) h)
  refine ⟨ht, fun hlive hidle => ?_⟩
  have hen := ht.en_low hlive
  have hrw := ht.rw_write hlive
  rw [hidle] at hen hrw
  exact ⟨hen, hrw⟩

end Sys2Proof.Machine

-- The GPIO contract and the completed CREATE.
namespace Sys2Proof.Machine

/-! ### The contract from item to item -/

/-- Every line but `MSB` is an output and the items respect the contract from here (10_state.md R22). -/
structure Contract (s : State) (items : List Micro) : Prop where
  lines : ∀ l ∈ deviceLines s.cfg s.width, l ≠ msbLine s.width → s.pins.dir l = .output
  kept  : contractItems s.cfg s.width (polling s) items = true

/-- The contract is about the directions, the parameters and the width alone. -/
theorem Contract.congr {s t : State} {items : List Micro} (h : Contract s items) (hc : t.cfg = s.cfg)
    (hw : t.width = s.width) (hd : ∀ l, t.pins.dir l = s.pins.dir l) : Contract t items := by
  obtain ⟨hl, hk⟩ := h
  refine ⟨fun l hm hne => ?_, ?_⟩
  · rw [hc, hw] at hm
    rw [hw] at hne
    rw [hd]
    exact hl l hm hne
  · rwa [polling, hc, hw, hd]

theorem contract_of_driven {s : State} {items : List Micro} (h : Driven s)
    (hk : contractItems s.cfg s.width false items = true) : Contract s items :=
  ⟨fun l hl _ => h l hl, by rwa [polling, dir_msb s h]⟩

/-- With no work the contract says that every line is driven. -/
theorem Contract.driven {s : State} (h : Contract s []) : Driven s := by
  obtain ⟨hl, hk⟩ := h
  intro l hm
  by_cases hmsb : l = msbLine s.width
  · subst hmsb
    simp only [contractItems, polling, Bool.not_eq_true', decide_eq_false_iff_not] at hk
    revert hk
    cases s.pins.dir (msbLine s.width) <;> simp
  · exact hl l hm hmsb

theorem en_mem_deviceLines (c : Config) (w : Width) : Line.en ∈ deviceLines c w := by simp [deviceLines]

/-- A line the contract lets be set is an output. -/
theorem Contract.dir_of_pinSet {l : Line} {v : Bool} {rest : List Micro} {s : State}
    (h : Contract s (.pinSet l v :: rest)) :
    s.pins.dir l = .output ∧ contractItems s.cfg s.width (polling s) rest = true := by
  obtain ⟨hl, hk⟩ := h
  simp only [contractItems, Bool.and_eq_true, Bool.not_eq_true', Bool.and_eq_false_iff, beq_eq_false_iff_ne] at hk
  obtain ⟨⟨hp, hmsb⟩, hr⟩ := hk
  refine ⟨?_, hr⟩
  by_cases he : l = msbLine s.width
  · subst he
    simp only [ne_eq, not_true_eq_false, or_false, polling, decide_eq_false_iff_not] at hmsb
    revert hmsb
    cases s.pins.dir (msbLine s.width) <;> simp
  · exact hl l (by simpa [present] using hp) he

/-- Giving a line its direction respects the contract. -/
theorem Contract.turned {l : Line} {d : Dir} {rest : List Micro} {s : State}
    (h : Contract s (.pinDir l d :: rest)) : Contract (s.turned l d) rest := by
  obtain ⟨hl, hk⟩ := h
  simp only [contractItems, Bool.and_eq_true] at hk
  obtain ⟨-, hk⟩ := hk
  by_cases he : l = msbLine s.width
  · subst he
    rw [if_pos rfl] at hk
    refine ⟨fun l' hm hne => ?_, ?_⟩
    · have hne' : l' ≠ msbLine s.width := hne
      simpa [State.turned, hne'] using hl l' hm hne'
    · have hpoll : polling (s.turned (msbLine s.width) d) = (d == .input) := by
        cases d <;> simp [polling, State.turned]
      rw [hpoll]
      exact hk
  · rw [if_neg he, Bool.and_eq_true, beq_iff_eq] at hk
    obtain ⟨rfl, hr⟩ := hk
    refine ⟨fun l' hm hne => ?_, ?_⟩
    · have := hl l' hm hne
      simp only [State.turned, State.moved_pins, Pins.dir_setDir]
      split
      · rfl
      · exact this
    · have hpoll : polling (s.turned l .output) = polling s := by
        simp [polling, State.turned, Ne.symm he]
      rw [hpoll]
      exact hr

/-- An item under the contract is never refused, and leaves the contract for what is still to do. -/
theorem Contract.item {m : Micro} {rest : List Micro} {s : State} (h : Contract s (m :: rest)) :
    (runMicro m s = .done (m.effect s) ∧ Contract (m.effect s) rest) ∨
    ∃ u, runMicro m s = .again u ∧ u.seq = s.seq ∧ Contract u (m :: rest) := by
  cases m with
  | pinSet l v =>
    obtain ⟨hdir, hr⟩ := h.dir_of_pinSet
    exact .inl ⟨pinSet_output hdir, Contract.congr (s := s) ⟨h.lines, hr⟩ rfl rfl fun l' => by simp [Micro.effect]⟩
  | pinDir l d => exact .inl ⟨rfl, h.turned⟩
  | poll =>
    obtain ⟨hl, hk⟩ := h
    have hk' := hk
    simp only [contractItems, Bool.and_eq_true, polling, decide_eq_true_eq] at hk'
    obtain ⟨hm, -⟩ := hk'
    have hen := hl .en (en_mem_deviceLines _ _) (msbLine_ne s.width).2.2
    rw [runMicro, pollLoop,
      pollIteration_done (s := s.takeAnswers 1) (by exact hen) (by exact hm)]
    cases s.answerAt 0 with
    | false =>
      refine .inl ⟨rfl, Contract.congr (s := s) ⟨hl, ?_⟩ rfl rfl fun l => ?_⟩
      · exact (Bool.and_eq_true_iff.mp hk).2
      · exact Pins.dir_enLow _ l
    | true =>
      refine .inr ⟨_, rfl, rfl, Contract.congr (s := s) ⟨hl, hk⟩ rfl rfl fun l => ?_⟩
      exact Pins.dir_enLow _ l
  | wait | loadControl | loadMode | loadScratch | finish =>
    exact .inl ⟨rfl, Contract.congr (s := s) ⟨h.lines, h.kept⟩ rfl rfl fun _ => rfl⟩
  | awaitStream => exact .inr ⟨s, rfl, rfl, h⟩
  | issue i => exact absurd h.kept (by simp [contractItems])

/-- Work under the contract is never refused. -/
theorem Contract.perform {items : List Micro} {s : State} (h : Contract s items) (hs : s.seq = []) :
    ∃ t, perform items s = .next t ∧ Contract t t.seq := by
  induction items generalizing s with
  | nil => exact ⟨s, rfl, hs ▸ h⟩
  | cons m rest ih =>
    obtain ⟨hm, hr⟩ | ⟨u, hu, hseq, hc⟩ := h.item
    · rw [perform_done hm]
      exact ih hr (by simpa using hs)
    · refine ⟨_, perform_again hu, ?_⟩
      rw [hseq, hs, List.append_nil]
      exact hc.congr rfl rfl fun _ => rfl

/-! ### The work of the requests respects the contract -/

theorem contract_write (c : Config) (w : Width) (v : Nat) (rest : List Micro) :
    contractItems c w false (writeItems c w v ++ rest) = contractItems c w false rest := by
  cases w <;> simp [writeItems, dataLines, contractItems, present, deviceLines]

theorem contract_part (c : Config) (w : Width) (p : Part) (rest : List Micro) :
    contractItems c w false (p.items c w ++ rest) = contractItems c w false rest := by
  cases p with
  | send kind v =>
    have hbyte : contractItems c w false (byteItems c w v ++ rest) = contractItems c w false rest := by
      cases w <;> simp only [byteItems, List.append_assoc, contract_write]
    have hbyte' : ∀ t, contractItems c w false (byteItems c w v ++ .wait t :: rest)
        = contractItems c w false rest := by
      intro t
      cases w <;> simp only [byteItems, List.append_assoc, contract_write, contractItems]
    cases w <;> cases hb : c.busyPoll <;>
      simp [Part.items, sendItems, busyWaitItems, hb, contractItems, present, deviceLines, dataLines, msbLine, hbyte,
        hbyte', show (Dir.output == Dir.input) = false from rfl]
  | write v => exact contract_write c w v rest
  | wait | storeControl | storeMode | storeScratch | starve => rfl

theorem contract_parts (c : Config) (w : Width) (ps : List Part) (rest : List Micro) :
    contractItems c w false (partsItems c w ps ++ rest) = contractItems c w false rest := by
  induction ps with
  | nil => rfl
  | cons p ps ih => rw [partsItems_cons, List.append_assoc, contract_part, ih]

theorem contract_initItems (c : Config) (w : Width) (config : Byte) :
    contractItems c w false (initItems c w config ++ [.finish .ok]) = true := by
  rw [initItems_eq_parts]
  simp only [List.cons_append, contractItems, contract_parts]
  simp [present, deviceLines]

/-! ### CREATE drives the lines -/

theorem perform_turns (ls : List Line) (rest : List Micro) (s : State) :
    perform (ls.map (fun l => .pinDir l .output) ++ rest) s
      = perform rest (ls.foldl (fun s l => s.turned l .output) s) := by
  induction ls generalizing s with
  | nil => rfl
  | cons l ls ih => exact perform_pinDir.trans (ih _)

/-- Lines given the direction output one after the other. -/
theorem dir_foldl_turned (ls : List Line) (s : State) (l : Line) :
    (ls.foldl (fun s l => s.turned l .output) s).pins.dir l = if l ∈ ls then .output else s.pins.dir l := by
  induction ls generalizing s with
  | nil => rfl
  | cons k ls ih =>
    rw [List.foldl_cons, ih]
    by_cases hk : l = k <;> simp [State.turned, hk]

theorem foldl_turned_cfg_width (ls : List Line) (s : State) :
    (ls.foldl (fun s l => s.turned l .output) s).cfg = s.cfg ∧
    (ls.foldl (fun s l => s.turned l .output) s).width = s.width ∧
    (ls.foldl (fun s l => s.turned l .output) s).seq = s.seq := by
  induction ls generalizing s with
  | nil => exact ⟨rfl, rfl, rfl⟩
  | cons k ls ih => exact ih (s.turned k .output)

/-- `ConfigurePins()` leaves every line an output, then RW at its write level (40_registry_lifecycle.md R91). -/
theorem perform_configurePinsItems (rest : List Micro) (s : State) :
    ∃ t, perform (configurePinsItems s.cfg s.width ++ rest) s = perform rest t ∧ Driven t ∧
      t.cfg = s.cfg ∧ t.width = s.width ∧ t.seq = s.seq := by
  rw [configurePinsItems, List.append_assoc, perform_turns]
  have hdir := dir_foldl_turned (deviceLines s.cfg s.width) s
  obtain ⟨hc, hw, hs⟩ := foldl_turned_cfg_width (deviceLines s.cfg s.width) s
  revert hdir hc hw hs
  generalize (deviceLines s.cfg s.width).foldl (fun s l => s.turned l .output) s = u
  intro hdir hc hw hs
  have hdriven : Driven u := by
    intro l hl
    rw [hc, hw] at hl
    rw [hdir, if_pos hl]
  cases hb : s.cfg.busyPoll with
  | false => exact ⟨u, rfl, hdriven, hc, hw, hs⟩
  | true =>
    refine ⟨_, perform_pinSet (dir_rw u hdriven (hc ▸ hb)), hdriven.congr rfl rfl fun l => ?_, hc, hw, hs⟩
    simp

/-- A request that starts in `IDLE` on a device whose lines are driven if it is live is never refused for a line. -/
theorem Starts.contract {i : Instr} {s s' : State} {items : List Micro} (h : Starts i s s' items)
    (hd : s.live = true → Driven s) :
    ∃ t, perform items s' = .next t ∧ (t.live = true → Contract t t.seq) := by
  cases h with
  | live _ hidle hlive =>
    have hk : Contract { s with status := none } (partsItems s.cfg s.width (Instr.parts s i) ++ [.finish .ok]) :=
      contract_of_driven ((hd hlive).congr rfl rfl fun _ => rfl) (contract_parts _ _ _ _)
    obtain ⟨t, ht, hc⟩ := hk.perform hidle
    exact ⟨t, ht, fun _ => hc⟩
  | @create config _ hidle =>
    obtain ⟨u, hu, hdu, hc, hw, hs⟩ := perform_configurePinsItems
      (initItems s.cfg (configWidth config) config ++ [.finish .ok]) (claim config { s with status := none })
    have hk : Contract u (initItems s.cfg (configWidth config) config ++ [.finish .ok]) := by
      refine contract_of_driven hdu ?_
      rw [hc, hw]
      exact contract_initItems _ _ _
    obtain ⟨t, ht, hct⟩ := hk.perform (hs.trans hidle)
    refine ⟨t, ?_, fun _ => hct⟩
    rw [bringUpItems, List.append_assoc]
    exact hu.trans ht
  | noDevice _ hfree => exact ⟨_, rfl, fun hl => absurd (hl.symm.trans hfree) (by decide)⟩
  | destroy => exact ⟨_, rfl, fun hl => Bool.noConfusion hl⟩

/-! ### Every step -/

theorem gpioInv_iff (s : State) :
    GpioInv s ↔ (s.live = false → s.seq = []) ∧ (s.live = true → Contract s s.seq) :=
  ⟨fun ⟨hf, hl, hk⟩ => ⟨hf, fun h => ⟨hl h, hk h⟩⟩, fun ⟨hf, hc⟩ => ⟨hf, fun h => (hc h).lines, fun h => (hc h).kept⟩⟩

/-- The invariant is about the device, not about its environment. -/
theorem GpioInv.environment {s : State} (h : GpioInv s) (p : List HostAct) (r : List Nat) (o : Nat) :
    GpioInv { s with port := p, resets := r, othersLive := o } :=
  ⟨h.free_idle, h.lines_out, h.items_kept⟩

/-- A state with the invariant goes on to one, or its request is refused for no line. -/
def GoesOn (o : Host.Outcome State Fault Refusal) : Prop :=
  (∃ t, o = .next t ∧ GpioInv t) ∨ ∃ r, o = .refused r ∧ Refusal.formal r

/-- A request keeps the invariant. -/
theorem GpioInv.exec {i : Instr} {s : State} (h : GpioInv s) (hreq : Instr.isRequest i = true) :
    GoesOn (exec i s) := by
  obtain ⟨r, hr, hf⟩ | ⟨s', items, hs, hp⟩ := request_cases hreq s
  · exact .inr ⟨r, hr, hf⟩
  · obtain ⟨-, hc⟩ := (gpioInv_iff s).mp h
    obtain ⟨t, ht, hct⟩ := hs.contract fun hl => Contract.driven (hs.idle ▸ hc hl)
    refine .inl ⟨t, hp.trans ht, (gpioInv_iff t).mpr ⟨fun hl => ?_, hct⟩⟩
    obtain ⟨hk, -⟩ := perform_kept ht
    obtain rfl := hs.items_of_free (hk.live ▸ hl)
    cases ht
    exact hs.begins_seq

theorem GpioInv.advance {s : State} (h : GpioInv s) : GoesOn (advance s) := by
  obtain ⟨hfree, hc⟩ := (gpioInv_iff s).mp h
  have hworking : ∀ {m rest}, s.seq = m :: rest → s.live = true := by
    intro m rest hseq
    by_contra hl
    exact absurd (hfree (by simpa using hl)) (by simp [hseq])
  obtain ⟨i, rest, hseq, -⟩ | ⟨m, rest, hseq, he⟩ |
    ⟨-, ⟨-, he⟩ | ⟨i, more, hreq, he⟩ | ⟨given, more, he⟩ | ⟨more, he⟩⟩ := advance_cases s
  · have hk := (hc (hworking hseq)).kept
    simp [hseq, contractItems] at hk
  all_goals rw [he]
  · have hlive := hworking hseq
    obtain ⟨t, ht, hct⟩ := ((hc hlive).congr (t := { s with seq := [] }) rfl rfl fun _ => rfl).perform rfl
    obtain ⟨hk, -⟩ := perform_kept ht
    exact .inl ⟨t, ht, (gpioInv_iff t).mpr
      ⟨fun hl => absurd (hlive.symm.trans (hk.live.symm.trans hl)) (by decide), fun _ => hct⟩⟩
  · exact .inl ⟨s, rfl, h⟩
  · exact GpioInv.exec (h.environment more s.resets s.othersLive) hreq
  · rw [createOther_eq]
    exact .inl ⟨_, rfl, h.environment more s.resets _⟩
  · exact .inl ⟨_, rfl, h.environment more s.resets _⟩

/-- Settles O52: a reset frees the device, and every other step goes on under the contract. -/
theorem stepKeepsTheGpioInvariant : Obligations.StepKeepsTheGpioInvariant := by
  intro s t h hstep
  refine step_keeps (fun _ _ => ⟨fun _ => rfl, fun hl => Bool.noConfusion hl, fun hl => Bool.noConfusion hl⟩)
    (fun s r hs => hs.environment s.port r s.othersLive) (fun u hu => ?_) hstep
  obtain ⟨v, hv, hinv⟩ | ⟨r, hr, -⟩ := h.advance
  · cases hv.symm.trans hu
    exact hinv
  · cases hr.symm.trans hu

/-- A step is refused only for what it would do without a reset (log 16). -/
theorem advance_of_step_refused {s : State} {r : Refusal} (h : step s = .refused r) : advance s = .refused r := by
  unfold step at h
  split at h
  · exact h
  · cases h
  · split at h <;> cases h
    assumption

/-- Settles O53: a refused step is refused by its advance, which the contract lets be refused for no line. -/
theorem stepNeverBreaksTheGpioContract : Obligations.StepNeverBreaksTheGpioContract := by
  intro s l h
  have key : ∀ r, step s = .refused r → Refusal.formal r := by
    intro r hr
    have ha := advance_of_step_refused hr
    obtain ⟨v, hv, -⟩ | ⟨r', hr', hf⟩ := h.advance
    · cases hv.symm.trans ha
    · cases hr'.symm.trans ha
      exact hf
  exact ⟨fun hr => (key _ hr l).1 rfl, fun hr => (key _ hr l).2 rfl⟩

/-! ### Work that completes at once -/

/-- Work whose polls are all answered 0, with no missing stream byte and no frame in it, is done in one step. -/
theorem perform_completes {items : List Micro} {s t : State} (h : perform items s = .next t) (hs : s.seq = [])
    (hquiet : ∀ k < items.count .poll, s.answerAt k = false) (hstream : .awaitStream ∉ items)
    (hissue : ∀ i, .issue i ∉ items) : t.seq = [] := by
  induction items generalizing s with
  | nil =>
    cases h
    exact hs
  | cons m rest ih =>
    have hstream' : .awaitStream ∉ rest := fun hm => hstream (List.mem_cons_of_mem m hm)
    have hissue' : ∀ i, .issue i ∉ rest := fun i hm => hissue i (List.mem_cons_of_mem m hm)
    rw [perform] at h
    split at h
    next u hu =>
      obtain rfl := runMicro_done hu
      refine ih h (by simpa using hs) (fun k hk => ?_) hstream' hissue'
      cases m with
      | poll =>
        have hnext : (Micro.poll.effect s).answerAt k = s.answerAt (1 + k) :=
          (State.answerAt_congr rfl rfl k).trans (State.takeAnswers_answerAt s 1 k)
        rw [hnext]
        exact hquiet _ (by rw [List.count_cons_self]; omega)
      | _ => exact (State.answerAt_congr rfl rfl k).trans (hquiet k (by simpa using hk))
    next u hu =>
      obtain ⟨rfl, ha, -⟩ | ⟨rfl | ⟨i, rfl⟩, -⟩ := runMicro_again hu
      · exact absurd (ha.symm.trans (hquiet 0 (by simp))) (by decide)
      · exact absurd List.mem_cons_self hstream
      · exact absurd List.mem_cons_self (hissue i)
    next r hr => cases h

/-- A part polls when it sends and polls exist (43_busy_poller.md R131). -/
def Part.polls (c : Config) : Part → Nat
  | .send _ _ => if c.busyPoll then 1 else 0
  | _ => 0

theorem count_poll_part (c : Config) (w : Width) (p : Part) : (p.items c w).count .poll = p.polls c := by
  have hwrite : ∀ w v, (writeItems c w v).count .poll = 0 := fun w v => by cases w <;> simp [writeItems, dataLines]
  cases p with
  | send kind v =>
    cases w <;> cases hb : c.busyPoll <;>
      simp [Part.items, Part.polls, sendItems, byteItems, busyWaitItems, hb, List.count_append, hwrite]
  | write v => exact hwrite w v
  | wait | storeControl | storeMode | storeScratch | starve => rfl

/-- CREATE polls once before each of its sends (43_busy_poller.md R131). -/
theorem count_poll_bringUp (c : Config) (config : Byte) :
    (bringUpItems c (configWidth config) config).count .poll = if c.busyPoll then createPolls c config else 0 := by
  have hconfigure : (configurePinsItems c (configWidth config)).count .poll = 0 := by
    rw [List.count_eq_zero]
    cases hb : c.busyPoll <;> simp [configurePinsItems, hb]
  simp only [bringUpItems, initItems_eq_parts, List.count_append, hconfigure, createPolls]
  cases configWidth config <;> cases hv : c.init8Via <;> cases hb : c.busyPoll <;>
    simp [danceParts, setupParts, Part.polls, count_poll_part, hv, hb]

theorem awaitStream_not_mem_bringUp (c : Config) (w : Width) (config : Byte) :
    Micro.awaitStream ∉ bringUpItems c w config := by
  have hwrite : ∀ w v, Micro.awaitStream ∉ writeItems c w v := fun w v => by simp [writeItems]
  have hsend : ∀ kind v, Micro.awaitStream ∉ sendItems c w kind v := fun kind v => by
    cases w <;> cases hb : c.busyPoll <;> simp [sendItems, byteItems, busyWaitItems, hwrite, hb]
  have hdance : Micro.awaitStream ∉ partsItems c w (danceParts c w config) := by
    cases w with
    | four => simp [danceParts, Part.items, hwrite]
    | eight => cases hv : c.init8Via <;> simp [danceParts, Part.items, hwrite, hsend, hv]
  cases hb : c.busyPoll <;>
    simp [bringUpItems, configurePinsItems, initItems_eq_parts, hdance, setupParts, Part.items, hsend, hb]

/-- The pins after a `Send` of a command: RS 0, EN 0, the byte on the data lines (42_bus_transmitter.md R117). -/
theorem pins_sendCommand (c : Config) (w : Width) (v : Byte) (p : Pins) :
    ((sendItems c w .command v).foldl Pins.afterItem p).rs.level = false ∧
    ∃ x, ((sendItems c w .command v).foldl Pins.afterItem p).data = onLines w x v.toNat := by
  cases w <;> cases hb : c.busyPoll <;>
    refine ⟨by simp [sendItems, byteItems, busyWaitItems, hb, List.foldl_append, pins_write, Pins.afterItem,
      Pins.setLevel, Pins.setDir, rsLevel], _, by
      simp only [sendItems, byteItems, busyWaitItems, hb, List.foldl_append, pins_write]
      rfl⟩

/-- CREATE ends with the `Send` of the entry mode and its status (41_init_sequence.md R108). -/
theorem bringUpItems_eq_append (c : Config) (w : Width) (config : Byte) :
    ∃ before, bringUpItems c w config = before ++ (sendItems c w .command modeAfterCreate ++ [.finish .ok]) := by
  refine ⟨configurePinsItems c w ++ .wait c.tPowerup :: .pinSet .rs false :: .pinSet .en false ::
    partsItems c w (danceParts c w config ++ (setupParts c config).dropLast), ?_⟩
  simp [bringUpItems, initItems_eq_parts, setupParts, Part.items]

/-- The last byte of CREATE stays on the lines (10_state.md R31). -/
theorem pins_bringUp (c : Config) (w : Width) (config : Byte) (p : Pins) :
    ((bringUpItems c w config).foldl Pins.afterItem p).rs.level = false ∧
    ∃ x, ((bringUpItems c w config).foldl Pins.afterItem p).data = onLines w x modeAfterCreate.toNat := by
  obtain ⟨before, e⟩ := bringUpItems_eq_append c w config
  rw [e, List.foldl_append, List.foldl_append]
  exact pins_sendCommand c w modeAfterCreate _

theorem onLines_low (x : BitVec 8) (v : BitVec 4) : (onLines .four x v.toNat).extractLsb' 0 4 = v := by
  apply BitVec.eq_of_getLsbD_eq
  intro i hi
  have hcase : i = 0 ∨ i = 1 ∨ i = 2 ∨ i = 3 := by omega
  rcases hcase with rfl | rfl | rfl | rfl <;> simp [onLines, lineMask]

theorem onLines_eight (x v : BitVec 8) : onLines .eight x v.toNat = v := by
  have hall : v &&& 0xFF = v := BitVec.and_allOnes
  simpa [onLines, lineMask] using hall

theorem legalConfig_of_mem {config : Byte} (h : config ∈ [0x00, 0x04, 0x08, 0x0C, 0x10, 0x14, 0x18, (0x1C : Byte)]) :
    legalConfig config = true ∧ configWidth config = if config.getLsbD 4 then .eight else .four := by
  revert config
  decide

/-- A CREATE with a legal `config`, both lists and a free slot (40_registry_lifecycle.md R90). -/
theorem exec_create {config : Byte} {s : State} (hidle : s.seq = []) (hfree : s.live = false)
    (hlegal : legalConfig config = true) (hslot : slotFree s = true) :
    exec (.create config true true) s
      = perform (bringUpItems s.cfg (configWidth config) config) (claim config { s with status := none }) := by
  have hslot' : slotFree { s with status := none } = true := hslot
  rw [exec, execCreate, accept_idle hidle]
  rw [if_neg (by simp [hfree]), if_neg (by simp [hlegal]), if_neg (by simp [hslot'])]
  rfl

/-- Settles O41: under the contract CREATE is not refused, quiet polls let it complete, and what its work stores and
sets is what it leaves. -/
theorem createLeavesTheStatedValues : Obligations.CreateLeavesTheStatedValues := by
  intro config s hfree hidle hmem hslot hq
  obtain ⟨hlegal, hwidth⟩ := legalConfig_of_mem hmem
  have hslot' : slotFree s = true := by simpa [slotFree, liveDevices, hfree] using hslot
  have hst := Starts.create hidle hfree hlegal hslot'
  obtain ⟨t, ht, hc⟩ := hst.contract fun hl => absurd (hl.symm.trans hfree) (by decide)
  obtain ⟨hk, -⟩ := perform_kept ht
  have hidle' : (claim config { s with status := none }).seq = [] := hidle
  have hdone : t.seq = [] := by
    refine perform_completes ht hidle' (fun k hk => ?_) (awaitStream_not_mem_bringUp _ _ _) hst.no_issue
    rw [count_poll_bringUp] at hk
    split at hk
    next hb => exact (State.answerAt_congr rfl rfl k).trans (hq hb k hk)
    next => exact absurd hk (Nat.not_lt_zero k)
  obtain ⟨hstored, -⟩ := follows_stored.perform_foldl ht hidle' trivial
  obtain ⟨hpins, -⟩ := follows_pins.perform_foldl ht hidle' trivial
  rw [hdone, List.foldl_nil] at hstored hpins
  rw [stored_bringUp] at hstored
  obtain ⟨hen, hrw⟩ := atRest_bringUp s.cfg (configWidth config) config s.pins
  obtain ⟨hrs, x, hdata⟩ := pins_bringUp s.cfg (configWidth config) config s.pins
  have hw : t.width = configWidth config := hk.width
  have hdata' : t.pins.data = onLines t.width x modeAfterCreate.toNat := by
    rw [hw, ← hdata]
    exact congrArg Pins.data hpins
  refine ⟨t, (exec_create hidle hfree hlegal hslot').trans ht, hk.live, hw.trans hwidth,
    congrArg Stored.control hstored, congrArg Stored.mode hstored, hdone, congrArg Stored.status hstored, ?_, ?_, ?_, ?_, ?_, ?_⟩
  · exact (congrArg (fun p => p.rs.level) hpins).trans hrs
  · exact (congrArg (fun p => p.en.level) hpins).trans hen
  · exact fun hb => (congrArg (fun p => p.rw.level) hpins).trans (hrw (hk.cfg ▸ hb))
  · exact Contract.driven (hdone ▸ hc hk.live)
  · intro h4
    rw [hdata', h4]
    exact onLines_low x 6
  · intro h8
    rw [hdata', h8]
    exact onLines_eight x 6

end Sys2Proof.Machine

-- Whole runs of a request: the transfers, the registers and the busy answers.
namespace Sys2Proof.Machine

/-! ### A request run to its end -/

section Run
variable {α : Type} {f : State → α} {g : α → Micro → α} {I : State → List Micro → Prop}

/-- Steps with no reset ahead and no further request keep the value the quantity has once the work is done. -/
theorem Follows.run_foldl (hf : Follows f g I) {n : Nat} {s t : State} (h : Sys2Proof.core.run n s = .next t)
    (hn : n = 0 ∨ s.port = [] ∧ s.resets = []) (hissue : ∀ i, .issue i ∉ s.seq) (hi : I s s.seq) :
    Kept s t ∧ t.seq.foldl g (f t) = s.seq.foldl g (f s) ∧ I t t.seq := by
  induction n generalizing s with
  | zero =>
    cases h
    exact ⟨Kept.refl _, rfl, hi⟩
  | succ n ih =>
    obtain ⟨hport, hresets⟩ := hn.resolve_left (Nat.succ_ne_zero n)
    have hrun : ∀ u, step s = .next u → Sys2Proof.core.run n u = .next t := by
      intro u hu
      simpa only [Host.Core.run, show Sys2Proof.core.step s = .next u from hu] using h
    cases hseq : s.seq with
    | nil =>
      have hstep : step s = .next s := by simp [step, hresets, advance, hseq, hport]
      have := ih (hrun s hstep) (.inr ⟨hport, hresets⟩) hissue hi
      rwa [hseq] at this
    | cons m rest =>
      have hm : ∀ i, m ≠ .issue i := fun i hm => hissue i (by simp [hseq, hm])
      have hstep := step_working hresets hseq hm
      rw [← hseq] at hstep ⊢
      cases hp : perform s.seq { s with seq := [] } with
      | next u =>
        obtain ⟨hk, -⟩ := perform_kept hp
        obtain ⟨hfold, hi'⟩ := hf.perform_foldl hp rfl (hf.relation_seq [] hi)
        obtain ⟨hk', hfold', hi''⟩ := ih (hrun u (hstep.trans hp))
          (.inr ⟨hk.port.trans hport, hk.resets.trans hresets⟩)
          (perform_no_issue hp rfl hissue) hi'
        have hks : Kept s u := ⟨hk.cfg, hk.live, hk.width, hk.othersLive, hk.resets, hk.past, hk.port, hk.grows⟩
        exact ⟨hks.trans hk', by rw [hfold', hfold, hf.value_seq], hi''⟩
      | fault r => cases r
      | refused r =>
        rw [hp] at hstep
        simp only [Host.Core.run, show Sys2Proof.core.step s = .refused r from hstep] at h
        cases h

/-- A request run to its end leaves the value its work determines. -/
theorem Starts.run_foldl (hf : Follows f g I) {i : Instr} {s s' s1 t : State} {items : List Micro} {n : Nat}
    (hst : Starts i s s' items) (hp : perform items s' = .next s1) (h : Sys2Proof.core.run n s1 = .next t)
    (hn : n = 0 ∨ s.port = [] ∧ s.resets = []) (hi : I s' items) (hdone : t.seq = []) :
    Kept s' t ∧ f t = items.foldl g (f s') := by
  obtain ⟨hk, -⟩ := perform_kept hp
  obtain ⟨hfold, hi1⟩ := hf.perform_foldl hp hst.begins_seq hi
  have hn' : n = 0 ∨ s1.port = [] ∧ s1.resets = [] := by
    rwa [hk.port, hk.resets, hst.begins_port, hst.begins_resets]
  obtain ⟨hk', hfold', -⟩ := hf.run_foldl h hn' (perform_no_issue hp hst.begins_seq hst.no_issue) hi1
  rw [hdone, List.foldl_nil] at hfold'
  exact ⟨hk.trans hk', hfold'.trans hfold⟩
end Run

/-! ### What the bus has shown -/

theorem transfers_append (w : Width) (p : Pins) (es fs : List Event) :
    transfers w p (es ++ fs) = transfers w p es ++ transfers w (p.afterAll es) fs := by
  induction es generalizing p with
  | nil => rfl
  | cons e es ih =>
    simp only [List.cons_append, transfers, ih, List.append_assoc]
    rfl

/-- The pins, and the transfers since some moment. -/
structure Shown where
  pins : Pins
  sent : List Transfer

/-- What the bus has shown since the trace had `k` events, when the pins were `p`. -/
def State.shown (p : Pins) (k : Nat) (s : State) : Shown := ⟨s.pins, transfers s.width p (s.trace.drop k)⟩

/-- What the bus has shown after an item, in a width; a poll shows no transfer. -/
def Shown.after (w : Width) (x : Shown) (m : Micro) : Shown :=
  ⟨x.pins.afterItem m, x.sent ++ match m with
    | .pinSet l v => transfers w x.pins [.set l v]
    | _ => []⟩

/-- RW is at its read level at every poll, from a level of RW on (43_busy_poller.md R126). -/
def readsAtPolls : Bool → List Micro → Bool
  | _, [] => true
  | _, .pinSet .rw v :: rest => readsAtPolls v rest
  | rw, .poll :: rest => rw == rwRead && readsAtPolls rw rest
  | rw, _ :: rest => readsAtPolls rw rest

/-- The pins are what the events since that moment left, and the polls still to come read. -/
structure Showing (w : Width) (p : Pins) (k : Nat) (s : State) (items : List Micro) : Prop where
  width : s.width = w
  since : k ≤ s.trace.length
  pins  : p.afterAll (s.trace.drop k) = s.pins
  reads : readsAtPolls s.pins.rw.level items = true

/-- Further events show their transfers and move the pins. -/
theorem Showing.events {w : Width} {p : Pins} {k : Nat} {s t : State} {items rest : List Micro} {es : List Event}
    (h : Showing w p k s items) (hw : t.width = s.width) (he : t.trace = s.trace ++ es)
    (hp : s.pins.afterAll es = t.pins) (hr : readsAtPolls t.pins.rw.level rest = true) :
    t.shown p k = ⟨t.pins, (s.shown p k).sent ++ transfers w s.pins es⟩ ∧ Showing w p k t rest := by
  obtain ⟨hsw, hk, hpins, -⟩ := h
  have hdrop : t.trace.drop k = s.trace.drop k ++ es := by rw [he, List.drop_append_of_le_length hk]
  refine ⟨?_, ⟨hw.trans hsw, ?_, ?_, hr⟩⟩
  · simp only [State.shown, hdrop, transfers_append, hpins, hw, hsw]
  · rw [he, List.length_append]
    omega
  · rw [hdrop, ← hp, ← hpins, Pins.afterAll, List.foldl_append]
    rfl

/-- The enable pulses of a poll are no write transfers (00_scope.md R6). -/
theorem transfers_pollEvents (w : Width) {p : Pins} (h : p.rw.level = rwRead) (c : Config) (w' : Width) (a : Bool) :
    transfers w p (pollEvents c w' a) = [] := by
  cases w' <;> simp [pollEvents, transfers, Pins.after, Pins.setLevel, h, rwRead, rwWrite]

/-- A poll iteration shows nothing, whatever it samples. -/
theorem Showing.sampled {w : Width} {p : Pins} {k : Nat} {s : State} {rest items : List Micro}
    (h : Showing w p k s (.poll :: rest)) (a : Bool) (hr : readsAtPolls s.pins.rw.level items = true) :
    ((s.takeAnswers 1).sampled a).shown p k = ⟨s.pins.afterItem .poll, (s.shown p k).sent⟩ ∧
    Showing w p k ((s.takeAnswers 1).sampled a) items := by
  have hread : s.pins.rw.level = rwRead := by
    have := h.reads
    simp only [readsAtPolls, Bool.and_eq_true, beq_iff_eq] at this
    exact this.1
  have hmove : s.pins.afterAll (pollEvents s.cfg s.width a) = s.pins.afterItem .poll := by
    cases s.width <;> rfl
  obtain ⟨e, hs⟩ := h.events (t := (s.takeAnswers 1).sampled a) (rest := items) rfl
    (State.sampled_trace (s.takeAnswers 1) a) hmove hr
  rw [State.takeAnswers_cfg, State.takeAnswers_width, transfers_pollEvents w hread, List.append_nil] at e
  exact ⟨e, hs⟩

theorem follows_shown (w : Width) (p : Pins) (k : Nat) :
    Follows (State.shown p k) (Shown.after w) (Showing w p k) where
  done := by
    intro s m rest h
    have hreads := h.reads
    cases m with
    | pinSet l v =>
      refine h.events (t := (Micro.pinSet l v).effect s) (es := [.set l v]) rfl (State.moved_trace _ _ _) rfl ?_
      cases l <;> exact hreads
    | pinDir l d =>
      refine h.events (t := (Micro.pinDir l d).effect s) (es := [.dir l d]) rfl (State.moved_trace _ _ _) rfl ?_
      cases l <;> exact hreads
    | wait t =>
      exact h.events (t := (Micro.wait t).effect s) (es := [.wait t]) rfl (State.record_trace _ _) rfl hreads
    | poll =>
      obtain ⟨e, hs⟩ := h.sampled (items := rest) false (Bool.and_eq_true_iff.mp hreads).2
      exact ⟨e.trans (congrArg (Shown.mk _) (List.append_nil _).symm), hs⟩
    | loadControl | loadMode | loadScratch | finish | awaitStream | issue =>
      exact h.events (t := Micro.effect s _) (es := []) rfl (List.append_nil _).symm rfl hreads
  busy := by
    intro s rest h
    obtain ⟨e, hs⟩ := h.sampled true h.reads
    exact ⟨by rw [e]; rfl, hs⟩
  value_seq := fun _ _ => rfl
  relation_seq := fun _ h => ⟨h.width, h.since, h.pins, h.reads⟩

/-! ### The polls of a request read -/

theorem reads_write (c : Config) (w : Width) (v : Nat) (rw : Bool) (rest : List Micro) :
    readsAtPolls rw (writeItems c w v ++ rest) = readsAtPolls rw rest := by
  cases w <;> simp [writeItems, dataLines, readsAtPolls]

theorem reads_part (c : Config) (w : Width) (p : Part) (rest : List Micro) :
    readsAtPolls false (p.items c w ++ rest) = readsAtPolls false rest := by
  cases p with
  | send kind v =>
    cases w <;> cases hb : c.busyPoll <;>
      simp [Part.items, sendItems, byteItems, busyWaitItems, hb, readsAtPolls, reads_write, rwRead, rwWrite]
  | write v => exact reads_write c w v false rest
  | wait | storeControl | storeMode | storeScratch | starve => rfl

theorem reads_parts (c : Config) (w : Width) (ps : List Part) (rest : List Micro) :
    readsAtPolls false (partsItems c w ps ++ rest) = readsAtPolls false rest := by
  induction ps with
  | nil => rfl
  | cons p ps ih => rw [partsItems_cons, List.append_assoc, reads_part, ih]

theorem reads_bringUp (c : Config) (w : Width) (config : Byte) :
    readsAtPolls false (bringUpItems c w config) = true := by
  have hdirs : ∀ (ls : List Line) rest, readsAtPolls false (ls.map (fun l => .pinDir l .output) ++ rest)
      = readsAtPolls false rest := by
    intro ls rest
    induction ls with
    | nil => rfl
    | cons l ls ih => exact ih
  rw [bringUpItems, configurePinsItems, initItems_eq_parts]
  simp only [List.append_assoc, hdirs]
  cases hb : c.busyPoll <;> simp [readsAtPolls, reads_parts, rwWrite]

/-- Every request polls with RW at its read level, when RW is at write before it. -/
theorem Starts.reads {i : Instr} {s s' : State} {items : List Micro} (h : Starts i s s' items) :
    readsAtPolls false items = true := by
  cases h with
  | live => exact reads_parts _ _ _ _
  | create => exact reads_bringUp _ _ _
  | noDevice | destroy => rfl

/-! ### The busy answers only delay -/

/-- The same state with other busy answers. -/
def State.answered (s : State) (answers : List Bool) (polls : Nat) : State :=
  { s with answers := answers, polls := polls }

/-- A request starts in the same way whatever the answers are. -/
theorem Starts.answered {i : Instr} {s a b : State} {items items' : List Micro} {answers : List Bool} {polls : Nat}
    (ha : Starts i s a items) (hb : Starts i (s.answered answers polls) b items') :
    b = a.answered answers polls ∧ items' = items := by
  have hparts : Instr.parts (s.answered answers polls) i = Instr.parts s i := by cases i <;> rfl
  have hslot : slotFree (s.answered answers polls) = slotFree s := rfl
  cases ha with
  | live hneeds =>
    cases hb with
    | live => exact ⟨rfl, by rw [hparts]; rfl⟩
    | create | noDevice | destroy => cases hneeds
  | create _ _ _ hs =>
    cases hb with
    | live hneeds => cases hneeds
    | create => exact ⟨rfl, rfl⟩
    | noDevice _ _ hlacks => simp [hslot, hs] at hlacks
  | noDevice _ _ hlacks =>
    cases hb with
    | live hneeds => cases hneeds
    | create _ _ _ hs => simp [hslot ▸ hs] at hlacks
    | noDevice => exact ⟨rfl, rfl⟩
  | destroy =>
    cases hb with
    | live hneeds => cases hneeds
    | destroy => exact ⟨rfl, rfl⟩

/-- A request that starts has shown nothing yet. -/
theorem Starts.showing {i : Instr} {s s' : State} {items : List Micro} (h : Starts i s s' items)
    (hrw : s.pins.rw.level = false) : Showing s'.width s.pins s.trace.length s' items := by
  refine ⟨rfl, by rw [h.begins_trace], ?_, ?_⟩
  · rw [h.begins_trace, List.drop_length, h.begins_pins]
    rfl
  · rw [h.begins_pins, hrw]
    exact h.reads

/-- How a request that is not refused starts. -/
theorem starts_of_exec_next {i : Instr} {s t : State} (hreq : Instr.isRequest i = true) (h : exec i s = .next t) :
    ∃ s' items, Starts i s s' items ∧ perform items s' = .next t := by
  obtain hs | ⟨hno, -⟩ := exec_next_cases h
  · exact hs
  · exact absurd (hreq.symm.trans hno) (by decide)

/-- Settles O58: both runs do the same work, and its end is determined by the start (`Starts.run_foldl`). -/
theorem busyAnswersOnlyDelay : Obligations.BusyAnswersOnlyDelay := by
  intro i s answers polls s1 s1' t t' n n' hreq hresets hport hrw h1 hrun hdone h1' hrun' hdone'
  obtain ⟨a, items, ha, hp⟩ := starts_of_exec_next hreq h1
  obtain ⟨b, items', hb, hp'⟩ := starts_of_exec_next hreq h1'
  obtain ⟨rfl, rfl⟩ := ha.answered hb
  have hshow := ha.showing hrw
  have hshow' := hb.showing hrw
  obtain ⟨hk, hst⟩ := ha.run_foldl follows_stored hp hrun (.inr ⟨hport, hresets⟩) trivial hdone
  obtain ⟨hk', hst'⟩ := hb.run_foldl follows_stored hp' hrun' (.inr ⟨hport, hresets⟩) trivial hdone'
  obtain ⟨-, hsh⟩ := ha.run_foldl (follows_shown _ _ _) hp hrun (.inr ⟨hport, hresets⟩) hshow hdone
  obtain ⟨-, hsh'⟩ := hb.run_foldl (follows_shown _ _ _) hp' hrun' (.inr ⟨hport, hresets⟩) hshow' hdone'
  have hstored : t.stored = t'.stored := hst.trans hst'.symm
  have hshown : t.shown s.pins s.trace.length = t'.shown s.pins s.trace.length := hsh.trans hsh'.symm
  exact ⟨hk.live.trans hk'.live.symm, hk.width.trans hk'.width.symm, congrArg Stored.control hstored,
    congrArg Stored.mode hstored, congrArg Shown.pins hshown, congrArg Stored.status hstored,
    congrArg Stored.scratch hstored, congrArg Shown.sent hshown⟩

end Sys2Proof.Machine

-- The registers are the last bytes on the bus.
namespace Sys2Proof.Machine

/-! ### The transfers of a part -/

/-- The transfers of one byte (20_memory.md R45). -/
def byteTransfers (w : Width) (kind : Kind) (v : Byte) : List Transfer :=
  match w with
  | .four => [⟨rsLevel kind, v >>> 4⟩, ⟨rsLevel kind, v &&& 0x0F⟩]
  | .eight => [⟨rsLevel kind, v⟩]

theorem onLines_and_lineMask (w : Width) (x : BitVec 8) (v : Nat) :
    onLines w x v &&& lineMask w = BitVec.ofNat 8 v &&& lineMask w := by
  apply BitVec.eq_of_getLsbD_eq
  intro i hi
  simp only [onLines, BitVec.getLsbD_and, BitVec.getLsbD_or, BitVec.getLsbD_not, hi]
  cases (lineMask w).getLsbD i <;> simp

/-- A `WriteValue` shows one transfer, RW at write (42_bus_transmitter.md R115). -/
theorem shown_write (c : Config) (w : Width) (v : Nat) {x : Shown} (hrw : x.pins.rw.level = rwWrite) :
    (writeItems c w v).foldl (Shown.after w) x = ⟨(writeItems c w v).foldl Pins.afterItem x.pins,
      x.sent ++ [⟨x.pins.rs.level, BitVec.ofNat 8 v &&& lineMask w⟩]⟩ := by
  have hdata : ∀ (is : List (Fin 8)) (y : Shown),
      (is.map fun i => Micro.pinSet (.d i) (v.testBit i)).foldl (Shown.after w) y
        = ⟨is.foldl (fun p i => p.setLevel (.d i) (v.testBit i)) y.pins, y.sent⟩ := by
    intro is
    induction is with
    | nil => exact fun _ => rfl
    | cons i is ih =>
      intro y
      rw [List.map_cons, List.foldl_cons, ih]
      simp [Shown.after, Pins.afterItem, transfers]
  rw [pins_write, writeItems, List.foldl_append, hdata, setLevel_dataLines]
  simp [Shown.after, Pins.afterItem, transfers, Pins.setLevel, hrw, onLines_and_lineMask]

/-- What the four lines show of a byte's nibbles. -/
theorem nibbles_and_lineMask : ∀ v : Byte,
    BitVec.ofNat 8 (v.toNat >>> 4) &&& lineMask .four = v >>> 4 := by decide

/-- The transfers of a byte, RW at write and RS at the kind's level. -/
theorem shown_byte (c : Config) (w : Width) (kind : Kind) (v : Byte) {x : Shown}
    (hrw : x.pins.rw.level = rwWrite) (hrs : x.pins.rs.level = rsLevel kind) :
    ((byteItems c w v).foldl (Shown.after w) x).sent = x.sent ++ byteTransfers w kind v ∧
    ((byteItems c w v).foldl (Shown.after w) x).pins.rw.level = rwWrite := by
  cases w with
  | four =>
    rw [byteItems, List.foldl_append, shown_write c .four _ hrw, shown_write c .four v.toNat, nibbles_and_lineMask]
    · simp [pins_write, hrw, hrs, byteTransfers, lineMask]
    · rwa [pins_write]
  | eight =>
    have hall : v &&& 0xFF = v := BitVec.and_allOnes
    rw [byteItems, shown_write c .eight _ hrw]
    exact ⟨by simpa [hrs, byteTransfers, lineMask] using hall, by rwa [pins_write]⟩

/-- A poll shows no transfer, and leaves RW at write (43_busy_poller.md R128). -/
theorem shown_busyWait (w : Width) (x : Shown) : ((busyWaitItems w).foldl (Shown.after w) x).sent = x.sent ∧
    ((busyWaitItems w).foldl (Shown.after w) x).pins.rw.level = rwWrite := by
  simp [busyWaitItems, Shown.after, Pins.afterItem, Pins.setLevel, transfers]

/-- A `Send` shows the transfers of its byte, and RW is at write again (42_bus_transmitter.md R118). -/
theorem shown_send (c : Config) (w : Width) (kind : Kind) (v : Byte) {x : Shown}
    (hrw : x.pins.rw.level = rwWrite) :
    ((sendItems c w kind v).foldl (Shown.after w) x).sent = x.sent ++ byteTransfers w kind v ∧
    ((sendItems c w kind v).foldl (Shown.after w) x).pins.rw.level = rwWrite := by
  have hbyte : ∀ y : Shown, y.sent = x.sent → y.pins.rw.level = rwWrite →
      ((byteItems c w v).foldl (Shown.after w) (y.after w (.pinSet .rs (rsLevel kind)))).sent
        = x.sent ++ byteTransfers w kind v ∧
      ((byteItems c w v).foldl (Shown.after w) (y.after w (.pinSet .rs (rsLevel kind)))).pins.rw.level = rwWrite := by
    intro y hsent hy
    obtain ⟨h1, h2⟩ := shown_byte c w kind v (x := y.after w (.pinSet .rs (rsLevel kind))) hy rfl
    exact ⟨by rw [h1, ← hsent]; simp [Shown.after, transfers], h2⟩
  cases hb : c.busyPoll with
  | false =>
    obtain ⟨h1, h2⟩ := hbyte x rfl hrw
    simp only [sendItems, hb, Bool.false_eq_true, if_false, List.foldl_append, List.foldl_cons, List.foldl_nil]
    exact ⟨(List.append_nil _).trans h1, h2⟩
  | true =>
    obtain ⟨hsent, hy⟩ := shown_busyWait w x
    simp only [sendItems, hb, if_true, List.foldl_append, List.foldl_cons, List.foldl_nil]
    exact hbyte _ hsent hy

/-- The bytes a part sends. -/
def Part.bytes : Part → List (Kind × Byte)
  | .send kind v => [(kind, v)]
  | _ => []

/-- The newest bytes stand first (20_memory.md R45). -/
theorem bytesNewestFirst_append (w : Width) (ts : List Transfer) (kind : Kind) (v : Byte) :
    bytesNewestFirst w (ts ++ byteTransfers w kind v) = (kind, v) :: bytesNewestFirst w ts := by
  have hkind : kindOf (rsLevel kind) = kind := by cases kind <;> rfl
  have hv : ∀ v : Byte, (v >>> 4) <<< 4 ||| (v &&& 0x0F &&& 0x0F) = v := by decide
  cases w with
  | four => simp only [byteTransfers, bytesNewestFirst, List.reverse_append, List.reverse_cons, List.reverse_nil,
      List.nil_append, List.cons_append, pairsNewestFirst, hkind, hv]
  | eight => simp [byteTransfers, bytesNewestFirst, hkind]

/-- Parts without a lone write add their bytes to what the bus has shown. -/
theorem shown_parts (c : Config) (w : Width) {ps : List Part} (hps : ∀ v, .write v ∉ ps) {x : Shown}
    (hrw : x.pins.rw.level = rwWrite) :
    bytesNewestFirst w ((partsItems c w ps).foldl (Shown.after w) x).sent
      = (ps.flatMap Part.bytes).reverse ++ bytesNewestFirst w x.sent := by
  induction ps generalizing x with
  | nil => rfl
  | cons p ps ih =>
    have hps' : ∀ v, .write v ∉ ps := fun v hv => hps v (List.mem_cons_of_mem p hv)
    rw [partsItems_cons, List.foldl_append]
    cases p with
    | send kind v =>
      obtain ⟨hsent, hrw'⟩ := shown_send c w kind v hrw
      rw [Part.items, ih hps' hrw', hsent, bytesNewestFirst_append]
      simp [Part.bytes]
    | write v => exact absurd List.mem_cons_self (hps v)
    | wait | storeControl | storeMode | storeScratch | starve =>
      rw [ih hps' (by exact hrw)]
      simp [Part.items, Part.bytes, Shown.after]

/-! ### The last display-control and entry-mode bytes -/

/-- The newest command byte with a property. -/
def lastOf (p : Byte → Bool) (bytes : List (Kind × Byte)) : Option Byte :=
  (bytes.find? fun b => decide (b.1 = .command) && p b.2).map Prod.snd

/-- The registers are the last display-control and entry-mode bytes among these (10_state.md R16). -/
def Stored.SyncedWith (x : Stored) (bytes : List (Kind × Byte)) : Prop :=
  lastOf legalControl bytes = some x.control ∧ lastOf legalMode bytes = some x.mode

theorem synced_iff (s : State) :
    Synced s ↔ s.stored.SyncedWith (bytesNewestFirst s.width (s.shown .reset 0).sent) := Iff.rfl

/-- The newest byte with a property has it. -/
theorem lastOf_property {p : Byte → Bool} {bytes : List (Kind × Byte)} {v : Byte} (h : lastOf p bytes = some v) :
    p v = true := by
  obtain ⟨b, hb, rfl⟩ := Option.map_eq_some_iff.mp h
  have := List.find?_some hb
  simp only [Bool.and_eq_true] at this
  exact this.2

/-- No legal value of one register is one of the other. -/
theorem legalMode_of_legalControl : ∀ v : Byte, legalControl v = true → legalMode v = false := by decide

/-- Neutral parts keep the registers and the last bytes. -/
theorem syncedWith_neutral {ps : List Part} (h : ∀ p ∈ ps, p.Neutral) {x : Stored} {bytes : List (Kind × Byte)}
    (hx : x.SyncedWith bytes) :
    (ps.foldl Stored.afterPart x).SyncedWith ((ps.flatMap Part.bytes).reverse ++ bytes) := by
  have hskip : ∀ b ∈ (ps.flatMap Part.bytes).reverse, b.1 = .command → NotRegister b.2 := by
    intro b hb hc
    obtain ⟨p, hp, hbp⟩ := List.mem_flatMap.mp (List.mem_reverse.mp hb)
    have hn := h p hp
    cases p with
    | send kind v =>
      obtain rfl := List.mem_singleton.mp hbp
      obtain rfl : kind = .command := hc
      exact hn
    | write | wait | storeControl | storeMode | storeScratch | starve => cases hbp
  have hlast : ∀ p : Byte → Bool, (∀ v, NotRegister v → p v = false) →
      lastOf p ((ps.flatMap Part.bytes).reverse ++ bytes) = lastOf p bytes := by
    intro p hp
    have hnone : (ps.flatMap Part.bytes).reverse.find? (fun b => decide (b.1 = .command) && p b.2) = none := by
      rw [List.find?_eq_none]
      intro b hb hpb
      simp only [Bool.and_eq_true, decide_eq_true_eq] at hpb
      exact absurd hpb.2 (by simp [hp _ (hskip b hb hpb.1)])
    rw [lastOf, List.find?_append, hnone]
    rfl
  obtain ⟨hc, hm⟩ := stored_neutral h x
  rw [Stored.SyncedWith, hlast _ fun _ hv => hv.1, hlast _ fun _ hv => hv.2, hc, hm]
  exact hx

/-- The parts of a request on a live device keep the registers the last bytes on the bus. -/
theorem syncedWith_parts (i : Instr) {s : State} {x : Stored} {bytes : List (Kind × Byte)}
    (hc : x.control = s.control) (hm : x.mode = s.mode) (hx : x.SyncedWith bytes) :
    ((Instr.parts s i).foldl Stored.afterPart x).SyncedWith
      (((Instr.parts s i).flatMap Part.bytes).reverse ++ bytes) := by
  obtain hn | ⟨bit, f, hbit, e⟩ | ⟨bit, f, hbit, e⟩ := parts_cases i s
  · exact syncedWith_neutral hn hx
  · obtain ⟨hcontrol, hmode⟩ := hx
    have hlegal := legalControl_mergeFlag hbit (hc ▸ lastOf_property hcontrol) f
    have hother := legalMode_of_legalControl _ hlegal
    rw [e]
    exact ⟨by simp [lastOf, Part.bytes, hlegal, Stored.afterPart],
      by simpa [lastOf, Part.bytes, hother, Stored.afterPart] using hmode⟩
  · obtain ⟨hcontrol, hmode⟩ := hx
    have hlegal := legalMode_mergeFlag hbit (hm ▸ lastOf_property hmode) f
    have hother : legalControl (mergeFlag s.mode bit f) = false := by
      by_contra hl
      simp [legalMode_of_legalControl _ (by simpa using hl)] at hlegal
    rw [e]
    exact ⟨by simpa [lastOf, Part.bytes, hother, Stored.afterPart] using hcontrol,
      by simp [lastOf, Part.bytes, hlegal, Stored.afterPart]⟩

/-- A request on a live device has no lone write in its work. -/
theorem write_not_mem_parts (i : Instr) (s : State) (v : Nat) : .write v ∉ Instr.parts s i := by
  obtain hn | ⟨bit, f, -, e⟩ | ⟨bit, f, -, e⟩ := parts_cases i s
  · exact fun hv => hn _ hv
  · simp [e]
  · simp [e]

/-- The work of a request on a live device keeps the registers the last bytes on the bus. -/
theorem syncedWith_work (i : Instr) {s : State} {x : Stored} {y : Shown} (hc : x.control = s.control)
    (hm : x.mode = s.mode) (hrw : y.pins.rw.level = rwWrite) (hx : x.SyncedWith (bytesNewestFirst s.width y.sent)) :
    ((partsItems s.cfg s.width (Instr.parts s i) ++ [Micro.finish .ok]).foldl Stored.after x).SyncedWith
      (bytesNewestFirst s.width
        ((partsItems s.cfg s.width (Instr.parts s i) ++ [Micro.finish .ok]).foldl (Shown.after s.width) y).sent) := by
  have hparts := syncedWith_parts i hc hm hx
  rw [← shown_parts s.cfg s.width (write_not_mem_parts i s) hrw, ← stored_parts s.cfg s.width] at hparts
  rw [List.foldl_append, List.foldl_append]
  simpa [Shown.after, Stored.after, Stored.SyncedWith] using hparts

/-! ### CREATE -/

/-- No part leaves RW at its read level. -/
theorem shown_rw_parts (c : Config) (w : Width) (ps : List Part) {x : Shown} (hrw : x.pins.rw.level = rwWrite) :
    ((partsItems c w ps).foldl (Shown.after w) x).pins.rw.level = rwWrite := by
  induction ps generalizing x with
  | nil => exact hrw
  | cons p ps ih =>
    rw [partsItems_cons, List.foldl_append]
    refine ih ?_
    cases p with
    | send kind v => exact (shown_send c w kind v hrw).2
    | write v =>
      rw [Part.items, shown_write c w v hrw]
      simpa [pins_write] using hrw
    | wait | storeControl | storeMode | storeScratch | starve => exact hrw

/-- Whatever the bus has shown before the reset dance is over, the bytes of INIT after it are the newest
(41_init_sequence.md R105 to R108). -/
theorem shown_bringUp (c : Config) (w : Width) (config : Byte) {x : Shown} (hrw : x.pins.rw.level = rwWrite) :
    ∃ older, bytesNewestFirst w ((bringUpItems c w config).foldl (Shown.after w) x).sent
      = (.command, modeAfterCreate) :: (.command, clearCommand) :: (.command, controlAfterCreate)
        :: (.command, functionSetByte config) :: older := by
  have hconfigure : ((configurePinsItems c w).foldl (Shown.after w) x).pins.rw.level = rwWrite := by
    have hdirs : ∀ (ls : List Line) (y : Shown), y.pins.rw.level = rwWrite →
        ((ls.map fun l => Micro.pinDir l .output).foldl (Shown.after w) y).pins.rw.level = rwWrite := by
      intro ls
      induction ls with
      | nil => exact fun _ hy => hy
      | cons l ls ih => exact fun y hy => ih _ (by cases l <;> exact hy)
    rw [configurePinsItems, List.foldl_append]
    split
    · rfl
    · exact hdirs _ x hrw
  have hdance := shown_rw_parts c w (danceParts c w config)
    (x := (((((configurePinsItems c w).foldl (Shown.after w) x).after w (.wait c.tPowerup)).after w
      (.pinSet .rs false)).after w (.pinSet .en false))) hconfigure
  have hsetup := shown_parts c w (ps := setupParts c config) (by simp [setupParts]) hdance
  rw [bringUpItems, initItems_eq_parts, partsItems_append]
  simp only [List.foldl_append, List.foldl_cons, List.foldl_nil]
  exact ⟨_, (congrArg (bytesNewestFirst w) (List.append_nil _)).trans hsetup⟩

/-- The work of CREATE makes the registers the last bytes on the bus. -/
theorem syncedWith_bringUp (c : Config) (w : Width) (config : Byte) (x : Stored) {y : Shown}
    (hrw : y.pins.rw.level = rwWrite) :
    ((bringUpItems c w config).foldl Stored.after x).SyncedWith
      (bytesNewestFirst w ((bringUpItems c w config).foldl (Shown.after w) y).sent) := by
  obtain ⟨older, e⟩ := shown_bringUp c w config hrw
  rw [stored_bringUp, e]
  exact ⟨rfl, rfl⟩

/-- Settles O28: a request's bytes follow its stores (`syncedWith_parts`), and those of CREATE end with the bytes of
its registers. -/
theorem registersAreTheLastBytesSent : Obligations.RegistersAreTheLastBytesSent := by
  intro i s s1 t n hreq h1 hrun hn hdone hlive hlatch hrw hcase
  obtain ⟨a, items, hst, hp⟩ := starts_of_exec_next hreq h1
  have hpins : Pins.reset.afterAll (a.trace.drop 0) = a.pins := by
    rw [List.drop_zero, hst.begins_trace, hst.begins_pins]
    exact hlatch
  have hreads : readsAtPolls a.pins.rw.level items = true := by
    rw [hst.begins_pins, hrw]
    exact hst.reads
  obtain ⟨hk, hstored⟩ := hst.run_foldl follows_stored hp hrun hn trivial hdone
  obtain ⟨-, hshown⟩ := hst.run_foldl (follows_shown a.width .reset 0) hp hrun hn
    ⟨rfl, Nat.zero_le _, hpins, hreads⟩ hdone
  rw [synced_iff, hk.width, hstored, hshown]
  cases hst with
  | live hneeds =>
    have hsynced : Synced s := by
      obtain ⟨c, x, y, rfl⟩ | ⟨-, hs⟩ := hcase
      · cases hneeds
      · exact hs
    exact syncedWith_work i rfl rfl hrw hsynced
  | create => exact syncedWith_bringUp _ _ _ _ hrw
  | noDevice _ hfree => exact absurd (hlive.symm.trans (hk.live.trans hfree)) (by decide)
  | destroy => exact Bool.noConfusion (hlive.symm.trans hk.live)

end Sys2Proof.Machine

-- The encodings: the fields of a word, and the decoder and the encoder undo each other (30_encoding.md).
namespace Sys2Proof.Machine

/-! ### Request words -/

@[simp] theorem getElem_zero_flagField (f : Bool) : (flagField f)[0] = f := by cases f <;> rfl

/-- The pin-list bits of CREATE, 0 and 1 of one field, do not overlap (30_encoding.md R61). -/
@[simp] theorem getElem_one_flagField (f : Bool) : (flagField f)[1] = false := by cases f <;> rfl

/-- The line of a GOTO is the low two bits of its field (30_encoding.md R61). -/
theorem extractLsb'_lineField (line : BitVec 2) : BitVec.extractLsb' 0 2 (0#6 ++ line : Byte) = line :=
  BitVec.extractLsb'_append_eq_right

/-- A request's word decodes to the request: the fields that carry its operands do not overlap
(30_encoding.md R60, R61). -/
theorem decode_encode_of_isRequest {i : Instr} (hreq : Instr.isRequest i = true) :
    ∃ e, encode i = some e ∧ decode e = .ok i := by
  cases i with
  | goto line col => exact ⟨_, rfl, by simp [decode, decodeRequest, extractLsb'_lineField]⟩
  | create | destroy | clear | home | display | cursor | blink | direction | autoscroll | scroll | defchar | putc
  | puts | puti | reserved => exact ⟨_, rfl, by simp [decode, decodeRequest]⟩
  | _ => cases hreq

/-- Settles O4: the decoder branches on `op` alone, and each branch reads its fields. -/
theorem selectorPicksOperationAndOperands : Obligations.SelectorPicksOperationAndOperands := by
  intro w st
  have hbit : (reqA w).getLsbD 0 = w.getLsbD 40 := by simp [reqA]
  obtain ⟨hcontrol, hdata⟩ : (reqB w).getLsbD 0 = w.getLsbD 32 ∧ (reqB w).getLsbD 1 = w.getLsbD 33 := by
    simp [reqB]
  have hline : (reqA w).extractLsb' 0 2 = w.extractLsb' 40 2 := by
    apply BitVec.eq_of_getLsbD_eq
    intro i hi
    simp [reqA, hi, show i < 8 by omega]
  have hop : ∀ o, w.extractLsb' 48 4 = o → reqOp w = o := fun _ h => h
  refine ⟨?_, ?_, ?_, ?_, ?_, ?_, ?_, ?_, ?_, ?_, ?_, ?_, ?_, ?_, ?_, ?_⟩ <;> intro h <;>
    simp only [decodeRequest, hop _ h, hbit, hcontrol, hdata, hline] <;> rfl

/-! ### Frame words -/

section Frames
variable (rs rw : Bool)

/-- The fields of a bus frame `RS RW DB7 .. DB0` (30_encoding.md R64). -/
theorem busWord_fields (v : Byte) : (busWord rs rw v).getLsbD 9 = rs ∧ (busWord rs rw v).getLsbD 8 = rw ∧
    (busWord rs rw v).extractLsb' 0 8 = v := by
  refine ⟨?_, ?_, BitVec.extractLsb'_append_eq_right⟩ <;> rw [busWord] <;>
    simp only [BitVec.getLsbD_append, BitVec.getLsbD_ofBool] <;> simp

/-- The fields of a nibble frame `RS RW D3 .. D0`, RW 0 (30_encoding.md R64). -/
theorem nibbleWord_fields (v : BitVec 4) : (nibbleWord rs v).getLsbD 5 = rs ∧
    (nibbleWord rs v).getLsbD 4 = false ∧ (nibbleWord rs v).extractLsb' 0 4 = v := by
  refine ⟨?_, ?_, BitVec.extractLsb'_append_eq_right⟩ <;> rw [nibbleWord] <;>
    simp only [BitVec.getLsbD_append, BitVec.getLsbD_ofBool] <;> simp

end Frames

/-- A bus frame has no bits but its fields. -/
theorem eq_busWord (w : BusWord) : w = busWord (w.getLsbD 9) (w.getLsbD 8) (w.extractLsb' 0 8) := by
  apply BitVec.eq_of_getLsbD_eq
  intro j hj
  have hcase : j < 8 ∨ j = 8 ∨ j = 9 := by omega
  rw [busWord]
  simp only [BitVec.getLsbD_append, BitVec.getLsbD_ofBool]
  obtain h | rfl | rfl := hcase <;> simp [*]

/-- A nibble frame that is a write has no bits but RS and the nibble. -/
theorem eq_nibbleWord {w : NibbleWord} (hrw : w.getLsbD 4 = false) :
    w = nibbleWord (w.getLsbD 5) (w.extractLsb' 0 4) := by
  apply BitVec.eq_of_getLsbD_eq
  intro j hj
  have hcase : j < 4 ∨ j = 4 ∨ j = 5 := by omega
  rw [nibbleWord]
  simp only [BitVec.getLsbD_append, BitVec.getLsbD_ofBool]
  obtain h | rfl | rfl := hcase <;> simp_all

section DecodeFrames
variable (v : Byte)

theorem decodeBus_dataRead (ph : BusPhase) : decodeBus ph (busWord true true v) = .error .dataRead := by
  obtain ⟨hrs, hrw, -⟩ := busWord_fields true true v
  simp only [decodeBus, hrs, hrw]

theorem decodeBus_dataWrite (ph : BusPhase) : decodeBus ph (busWord true false v) = .ok (.dataWrite v) := by
  obtain ⟨hrs, hrw, hv⟩ := busWord_fields true false v
  simp only [decodeBus, hrs, hrw, hv]

theorem decodeBus_busyRead (ph : BusPhase) :
    decodeBus ph (busWord false true v) = .ok (.busyRead (v.getLsbD 7) (v.extractLsb' 0 7)) := by
  obtain ⟨hrs, hrw, hv⟩ := busWord_fields false true v
  simp only [decodeBus, hrs, hrw, hv]

theorem decodeBus_command : decodeBus .ordinary (busWord false false v) = decodeCommand v := by
  obtain ⟨hrs, hrw, hv⟩ := busWord_fields false false v
  simp only [decodeBus, hrs, hrw, hv]

theorem decodeBus_dance : decodeBus .resetDance (busWord false false v) = decodeDanceCommand v := by
  obtain ⟨hrs, hrw, hv⟩ := busWord_fields false false v
  simp only [decodeBus, hrs, hrw, hv]
end DecodeFrames

/-- A nibble of a byte is any nibble, by its place in the `Send` (30_encoding.md R64; log 10). -/
theorem decodeNibble_byte (rs : Bool) (v : BitVec 4) :
    decodeNibble .high (nibbleWord rs v) = .ok (.byteHighNibble rs v) ∧
    decodeNibble .low (nibbleWord rs v) = .ok (.byteLowNibble rs v) := by
  obtain ⟨hrs, hrw, hv⟩ := nibbleWord_fields rs v
  simp only [decodeNibble, hrs, hrw, hv]
  exact ⟨rfl, rfl⟩

/-- A lone nibble of the reset dance is 3 or 2, with RS 0 (41_init_sequence.md R103). -/
theorem decodeNibble_dance (rs : Bool) (v : BitVec 4) : decodeNibble .resetDance (nibbleWord rs v) =
    if rs = false ∧ v = 0x3 then .ok .resetNibble3
    else if rs = false ∧ v = 0x2 then .ok .resetNibble2
    else .error (.notDanceNibble rs v) := by
  obtain ⟨hrs, hrw, hv⟩ := nibbleWord_fields rs v
  simp only [decodeNibble, hrs, hrw, hv]
  rfl

/-! ### Byte frames -/

/-- The kind and the byte of a byte frame, `cmd.reset_byte8` aside: its byte depends on two parameters
(30_encoding.md R65; log 27). -/
def Instr.busByte : Instr → Option (Kind × Byte)
  | .cmdClear => some (.command, 0b00000001#8)
  | .cmdHome => some (.command, 0b00000010#8)
  | .cmdEntryMode i s => some (.command, 0b000001#6 ++ BitVec.ofBool i ++ BitVec.ofBool s)
  | .cmdDisplayControl d c b =>
    some (.command, 0b00001#5 ++ BitVec.ofBool d ++ BitVec.ofBool c ++ BitVec.ofBool b)
  | .cmdDisplayShift r => some (.command, 0b00011#5 ++ BitVec.ofBool r ++ 0b00#2)
  | .cmdFunctionSet l n f =>
    some (.command, 0b001#3 ++ BitVec.ofBool l ++ BitVec.ofBool n ++ BitVec.ofBool f ++ 0b00#2)
  | .cmdSetCgram i => some (.command, 0b01#2 ++ i ++ 0b000#3)
  | .cmdSetDdram a => some (.command, 0b1#1 ++ a)
  | .dataWrite d => some (.data, d)
  | _ => none

/-- The frame of a byte frame's kind and byte is its encoding (30_encoding.md R64). -/
theorem encode_of_busByte {i : Instr} {kind : Kind} {v : Byte} (h : Instr.busByte i = some (kind, v)) :
    encode i = some (.bus .ordinary (byteFrame kind v)) := by
  cases i <;> cases h <;> rfl

/-- The ordinary write frames are the byte frames (30_encoding.md R65). -/
theorem busByte_of_encode {i : Instr} {w : BusWord} (h : encode i = some (.bus .ordinary w))
    (hrw : w.getLsbD 8 = false) : ∃ kind v, Instr.busByte i = some (kind, v) ∧ byteFrame kind v = w := by
  cases i with
  | busyRead b x =>
    cases h
    rw [(busWord_fields false true (BitVec.ofBool b ++ x)).2.1] at hrw
    cases hrw
  | _ => cases h <;> exact ⟨_, _, rfl, rfl⟩

/-- A command byte is told by its highest set bit (30_encoding.md R65). -/
theorem decodeCommand_of_busByte {i : Instr} {v : Byte} (h : Instr.busByte i = some (.command, v)) :
    decodeCommand v = .ok i := by
  cases i with
  | cmdSetDdram a =>
    cases h
    have htop : BitVec.getLsbD (0b1#1 ++ a : Byte) 7 = true := by
      simp only [BitVec.getLsbD_append]
      rfl
    have haddr : BitVec.extractLsb' 0 7 (0b1#1 ++ a : Byte) = a := BitVec.extractLsb'_append_eq_right
    rw [decodeCommand, if_pos htop, haddr]
  | cmdSetCgram i => cases h; revert i; decide
  | cmdClear | cmdHome => cases h; rfl
  | cmdDisplayShift r => cases h; cases r <;> rfl
  | cmdEntryMode l s => cases h; cases l <;> cases s <;> rfl
  | cmdDisplayControl d c b => cases h; cases d <;> cases c <;> cases b <;> rfl
  | cmdFunctionSet l n f => cases h; cases l <;> cases n <;> cases f <;> rfl
  | _ => cases h

theorem byte_eq_of_bits {u v : Byte} (h : u.getLsbD 0 = v.getLsbD 0 ∧ u.getLsbD 1 = v.getLsbD 1 ∧
    u.getLsbD 2 = v.getLsbD 2 ∧ u.getLsbD 3 = v.getLsbD 3 ∧ u.getLsbD 4 = v.getLsbD 4 ∧
    u.getLsbD 5 = v.getLsbD 5 ∧ u.getLsbD 6 = v.getLsbD 6 ∧ u.getLsbD 7 = v.getLsbD 7) : u = v := by
  obtain ⟨h0, h1, h2, h3, h4, h5, h6, h7⟩ := h
  apply BitVec.eq_of_getLsbD_eq
  intro j hj
  have hcase : j = 0 ∨ j = 1 ∨ j = 2 ∨ j = 3 ∨ j = 4 ∨ j = 5 ∨ j = 6 ∨ j = 7 := by omega
  rcases hcase with rfl | rfl | rfl | rfl | rfl | rfl | rfl | rfl <;> assumption

theorem getLsbD_of_lowBits_zero {v : Byte} {n : Nat} (h : v.extractLsb' 0 n = 0) {j : Nat} (hj : j < n) :
    v.getLsbD j = false := by
  simpa [hj] using congrArg (BitVec.getLsbD · j) h

/-- A command byte that decodes is the byte of what it decodes to: the bits above the highest set one are 0, and
the low bits that a row does not name are checked to be 0 (30_encoding.md R65). -/
theorem busByte_of_decodeCommand {i : Instr} {v : Byte} (h : decodeCommand v = .ok i) :
    Instr.busByte i = some (.command, v) := by
  unfold decodeCommand at h
  split_ifs at h with h7 h6 hlow h5 hlow h4 hlow h3 h2 hhome hclear <;> cases h
  · refine congrArg (fun u => some (Kind.command, u)) (byte_eq_of_bits ?_)
    simp only [BitVec.getLsbD_append, BitVec.getLsbD_extractLsb']
    simpa using h7.symm
  · have zero : ∀ j < 3, v.getLsbD j = false := fun _ => getLsbD_of_lowBits_zero hlow
    refine congrArg (fun u => some (Kind.command, u)) (byte_eq_of_bits ?_)
    simp only [BitVec.getLsbD_append, BitVec.getLsbD_extractLsb', h7, h6, zero 0 (by decide),
      zero 1 (by decide), zero 2 (by decide)]
    simp
  · have zero : ∀ j < 2, v.getLsbD j = false := fun _ => getLsbD_of_lowBits_zero hlow
    refine congrArg (fun u => some (Kind.command, u)) (byte_eq_of_bits ?_)
    simp only [BitVec.getLsbD_append, BitVec.getLsbD_ofBool, h7, h6, h5, zero 0 (by decide), zero 1 (by decide)]
    simp
  · obtain ⟨h3, hlow⟩ := Bool.and_eq_true_iff.mp hlow
    have zero : ∀ j < 2, v.getLsbD j = false := fun _ => getLsbD_of_lowBits_zero (beq_iff_eq.mp hlow)
    refine congrArg (fun u => some (Kind.command, u)) (byte_eq_of_bits ?_)
    simp only [BitVec.getLsbD_append, BitVec.getLsbD_ofBool, h7, h6, h5, h4, h3, zero 0 (by decide),
      zero 1 (by decide)]
    simp
  · refine congrArg (fun u => some (Kind.command, u)) (byte_eq_of_bits ?_)
    simp only [BitVec.getLsbD_append, BitVec.getLsbD_ofBool, h7, h6, h5, h4, h3]
    simp
  · refine congrArg (fun u => some (Kind.command, u)) (byte_eq_of_bits ?_)
    simp only [BitVec.getLsbD_append, BitVec.getLsbD_ofBool, h7, h6, h5, h4, h3, h2]
    simp
  · rw [hhome]; rfl
  · rw [hclear]; rfl

/-- The top bit and the other seven make up a byte. -/
theorem topBit_append (v : Byte) : (BitVec.ofBool (v.getLsbD 7) ++ v.extractLsb' 0 7 : Byte) = v := by
  apply byte_eq_of_bits
  simp only [BitVec.getLsbD_append, BitVec.getLsbD_ofBool, BitVec.getLsbD_extractLsb']
  simp

theorem topBit_fields (b : Bool) (x : BitVec 7) : BitVec.getLsbD (BitVec.ofBool b ++ x : Byte) 7 = b ∧
    BitVec.extractLsb' 0 7 (BitVec.ofBool b ++ x : Byte) = x := by
  refine ⟨?_, BitVec.extractLsb'_append_eq_right⟩
  simp only [BitVec.getLsbD_append, BitVec.getLsbD_ofBool]
  rfl

/-! ### The reset dance -/

/-- The byte of `cmd.reset_byte8`, `000 DL N F 00` with DL 1 (30_encoding.md R65). -/
def danceFrameByte (n f : Bool) : Byte := 0b0001#4 ++ BitVec.ofBool n ++ BitVec.ofBool f ++ 0b00#2

theorem decodeDanceCommand_danceFrameByte (n f : Bool) :
    decodeDanceCommand (danceFrameByte n f) = .ok (.cmdResetByte8 n f) := by
  cases n <;> cases f <;> rfl

/-- A byte of the reset dance that decodes is the dance's own frame, or an ordinary command. -/
theorem decodeDanceCommand_cases {i : Instr} {v : Byte} (h : decodeDanceCommand v = .ok i) :
    (∃ n f, i = .cmdResetByte8 n f ∧ danceFrameByte n f = v) ∨ decodeCommand v = .ok i := by
  unfold decodeDanceCommand at h
  split at h
  next hfields =>
    cases h
    obtain ⟨hhigh, hlow⟩ := hfields
    refine .inl ⟨_, _, rfl, ?_⟩
    have zero : ∀ j < 2, v.getLsbD j = false := fun _ => getLsbD_of_lowBits_zero hlow
    have high : ∀ j < 4, v.getLsbD (4 + j) = (0x1#4).getLsbD j := by
      intro j hj
      simpa [hj] using congrArg (BitVec.getLsbD · j) hhigh
    refine byte_eq_of_bits ?_
    rw [danceFrameByte]
    simp only [BitVec.getLsbD_append, BitVec.getLsbD_ofBool, zero 0 (by decide), zero 1 (by decide),
      high 0 (by decide), high 1 (by decide), high 2 (by decide), high 3 (by decide)]
    simp
  · exact .inr h

/-! ### Decoding undoes encoding, and encoding decoding -/

@[simp] theorem byteFrame_command (v : Byte) : byteFrame .command v = busWord false false v := rfl

@[simp] theorem byteFrame_data (v : Byte) : byteFrame .data v = busWord true false v := rfl

/-- A byte frame decodes from its kind and byte (30_encoding.md R65). -/
theorem decodeBus_byteFrame {i : Instr} {kind : Kind} {v : Byte} (h : Instr.busByte i = some (kind, v)) :
    decodeBus .ordinary (byteFrame kind v) = .ok i := by
  cases kind with
  | command => rw [byteFrame_command, decodeBus_command, decodeCommand_of_busByte h]
  | data =>
    rw [byteFrame_data, decodeBus_dataWrite]
    cases i <;> cases h
    rfl

/-- A frame's word decodes to the frame (30_encoding.md R64, R65). -/
theorem decode_encode_of_frame {i : Instr} {e : Encoded} (hreq : Instr.isRequest i = false)
    (he : encode i = some e) : decode e = .ok i := by
  cases hb : Instr.busByte i with
  | some b =>
    obtain ⟨kind, v⟩ := b
    rw [encode_of_busByte hb] at he
    cases he
    exact decodeBus_byteFrame hb
  | none =>
    cases i with
    | cmdResetByte8 n f =>
      cases he
      rw [decode, ← danceFrameByte, decodeBus_dance, decodeDanceCommand_danceFrameByte]
    | busyRead b x =>
      cases he
      obtain ⟨htop, hlow⟩ := topBit_fields b x
      rw [decode, decodeBus_busyRead, htop, hlow]
    | resetNibble3 | resetNibble2 =>
      cases he
      rw [decode, decodeNibble_dance]
      rfl
    | byteHighNibble rs h =>
      cases he
      exact (decodeNibble_byte rs h).1
    | byteLowNibble rs l =>
      cases he
      exact (decodeNibble_byte rs l).2
    | writeValue | send | busyWait => cases he
    | cmdClear | cmdHome | cmdEntryMode | cmdDisplayControl | cmdDisplayShift | cmdFunctionSet | cmdSetCgram
    | cmdSetDdram | dataWrite => cases hb
    | _ => cases hreq

/-- Settles O2: a request by the fields of its word, a frame by its phase, RS, RW and highest set bit. -/
theorem encodedInstructionDecodesToItself : Obligations.EncodedInstructionDecodesToItself := by
  intro i
  cases hreq : Instr.isRequest i with
  | true => exact .inl (decode_encode_of_isRequest hreq)
  | false =>
    cases he : encode i with
    | some e => exact .inl ⟨e, rfl, decode_encode_of_frame hreq he⟩
    | none =>
      cases i with
      | writeValue v => exact .inr (.inl ⟨v, rfl⟩)
      | send v k => exact .inr (.inr (.inl ⟨v, k, rfl⟩))
      | busyWait => exact .inr (.inr (.inr rfl))
      | _ => cases he

theorem encode_of_decodeCommand {i : Instr} {v : Byte} (h : decodeCommand v = .ok i) :
    encode i = some (.bus .ordinary (busWord false false v)) := by
  rw [encode_of_busByte (busByte_of_decodeCommand h), byteFrame_command]

/-- A bus frame that decodes is the encoding of its row, up to the phase tag (30_encoding.md R64, R65; log 10). -/
theorem encode_of_decodeBus {ph : BusPhase} {rs rw : Bool} {v : Byte} {i : Instr}
    (h : decodeBus ph (busWord rs rw v) = .ok i) : ∃ ph', encode i = some (.bus ph' (busWord rs rw v)) := by
  cases rs <;> cases rw
  · cases ph with
    | ordinary => exact ⟨.ordinary, encode_of_decodeCommand (decodeBus_command v ▸ h)⟩
    | resetDance =>
      obtain ⟨n, f, rfl, rfl⟩ | hc := decodeDanceCommand_cases (decodeBus_dance v ▸ h)
      · exact ⟨.resetDance, rfl⟩
      · exact ⟨.ordinary, encode_of_decodeCommand hc⟩
  · rw [decodeBus_busyRead] at h
    cases h
    exact ⟨.ordinary, by rw [encode, topBit_append]⟩
  · rw [decodeBus_dataWrite] at h
    cases h
    exact ⟨.ordinary, rfl⟩
  · rw [decodeBus_dataRead] at h
    cases h

/-- A nibble frame that decodes is the encoding of its row (30_encoding.md R64). -/
theorem encode_of_decodeNibble {ph : NibblePhase} {rs : Bool} {v : BitVec 4} {i : Instr}
    (h : decodeNibble ph (nibbleWord rs v) = .ok i) : encode i = some (.nibble ph (nibbleWord rs v)) := by
  cases ph with
  | high =>
    rw [(decodeNibble_byte rs v).1] at h
    cases h
    rfl
  | low =>
    rw [(decodeNibble_byte rs v).2] at h
    cases h
    rfl
  | resetDance =>
    rw [decodeNibble_dance] at h
    split_ifs at h with h3 h2 <;> cases h
    · obtain ⟨rfl, rfl⟩ := h3
      rfl
    · obtain ⟨rfl, rfl⟩ := h2
      rfl

/-- A nibble frame with RW 1 is no row (30_encoding.md R64). -/
theorem decodeNibble_read {ph : NibblePhase} {w : NibbleWord} (hrw : w.getLsbD 4 = true) :
    decodeNibble ph w = .error .nibbleRead := by
  simp only [decodeNibble, hrw, if_true]

/-- Settles O3: a frame is its fields, and every field of a row that decodes is in the row or checked. -/
theorem frameBitsSurviveDecoding : Obligations.FrameBitsSurviveDecoding := by
  constructor
  · intro ph w i h
    rw [eq_busWord w] at h ⊢
    exact encode_of_decodeBus h
  · intro ph w i h
    cases hrw : w.getLsbD 4 with
    | true => exact absurd ((decodeNibble_read hrw).symm.trans h) nofun
    | false =>
      rw [eq_nibbleWord hrw] at h ⊢
      exact encode_of_decodeNibble h

/-- Settles O1: each word is read by the decoder. -/
theorem specWordsDecodeAsListed : Obligations.SpecWordsDecodeAsListed := by
  unfold Obligations.SpecWordsDecodeAsListed
  decide

end Sys2Proof.Machine

-- The frames put on the bus (30_encoding.md R64, R65; log 9).
namespace Sys2Proof.Machine

/-! ### A byte frame is one `Send` -/

/-- The byte of a flag command is the pattern of its row (30_encoding.md R65). -/
theorem flagBytes_eq_patterns :
    (∀ i a, entryModeByte i a = 0b000001#6 ++ BitVec.ofBool i ++ BitVec.ofBool a) ∧
    (∀ d c b, displayControlByte d c b = 0b00001#5 ++ BitVec.ofBool d ++ BitVec.ofBool c ++ BitVec.ofBool b) ∧
    (∀ r, displayShiftByte r = 0b00011#5 ++ BitVec.ofBool r ++ 0b00#2) ∧
    (∀ l n f, functionSetByte (configOf l n f)
      = 0b001#3 ++ BitVec.ofBool l ++ BitVec.ofBool n ++ BitVec.ofBool f ++ 0b00#2) := by
  decide

/-- The CGRAM index goes into bits 5:3 of its command (45_codec_address.md R155). -/
theorem setCgramByte_setWidth : ∀ i : BitVec 3, setCgramByte (i.setWidth 8) = 0b01#2 ++ i ++ 0b000#3 := by
  decide

/-- The DDRAM address fills the seven bits below the opcode bit (30_encoding.md R65). -/
theorem setDdramByte_toNat (a : BitVec 7) : setDdramByte a.toNat = 0b1#1 ++ a := by
  apply byte_eq_of_bits
  simp only [setDdramByte, BitVec.getLsbD_append, BitVec.getLsbD_or, BitVec.getLsbD_ofNat, BitVec.testBit_toNat]
  simp

/-- A byte frame by itself performs one `Send` of its byte (44_codec_commands.md R135). -/
theorem exec_of_busByte {i : Instr} {kind : Kind} {v : Byte} (h : Instr.busByte i = some (kind, v)) (s : State) :
    exec i s = perform (sendItems s.cfg s.width kind v) s := by
  obtain ⟨hentry, hcontrol, hshift, hfunction⟩ := flagBytes_eq_patterns
  cases i with
  | cmdEntryMode l a => cases h; rw [← hentry]; rfl
  | cmdDisplayControl d c b => cases h; rw [← hcontrol]; rfl
  | cmdDisplayShift r => cases h; rw [← hshift]; rfl
  | cmdFunctionSet l n f => cases h; rw [← hfunction]; rfl
  | cmdSetCgram i => cases h; rw [← setCgramByte_setWidth]; rfl
  | cmdSetDdram a => cases h; rw [← setDdramByte_toNat]; rfl
  | cmdClear | cmdHome | dataWrite => cases h; rfl
  | _ => cases h

theorem exec_busByte {i : Instr} {kind : Kind} {v : Byte} {s : State} (h : Instr.busByte i = some (kind, v))
    (hd : Driven s) (hq : Quiet 1 s) : exec i s = .next (s.afterSend kind v) := by
  have := perform_sendItems (kind := kind) (v := v) (rest := []) hd hq
  rwa [List.append_nil, perform_nil, ← exec_of_busByte h] at this

/-- Settles O17: the nine rows with a kind and a byte of their own. -/
theorem byteFramesAreSends : Obligations.ByteFramesAreSends := by
  intro s hd hq
  have send : ∀ {i kind v}, Instr.busByte i = some (kind, v) → exec i s = .next (s.afterSend kind v) :=
    fun h => exec_busByte h hd hq
  exact ⟨send rfl, send rfl, fun _ _ => send rfl, fun _ _ _ => send rfl, fun _ => send rfl, fun _ _ _ => send rfl,
    fun _ => send rfl, fun _ => send rfl, fun _ => send rfl⟩

/-! ### What the bus shows of a `Send` -/

/-- The items waiting at the sequencer do not matter to a `Send`. -/
theorem State.afterSend_withSeq (s : State) (kind : Kind) (v : Byte) (q : List Micro) :
    State.afterSend { s with seq := q } kind v = { s.afterSend kind v with seq := q } := by
  unfold State.afterSend State.afterBusySend
  split <;> rfl

/-- The write transfers of a `Send` are those of its byte (42_bus_transmitter.md R118). -/
theorem newTransfers_afterSend {s : State} (hd : Driven s) (hq : Quiet 1 s) (hrw : s.pins.rw.level = false)
    (kind : Kind) (v : Byte) : newTransfers s (s.afterSend kind v) = byteTransfers s.width kind v := by
  have hperform : perform (sendItems s.cfg s.width kind v) { s with seq := [] }
      = .next { s.afterSend kind v with seq := [] } := by
    have := perform_sendItems (kind := kind) (v := v) (rest := []) (s := { s with seq := [] }) hd hq
    rwa [List.append_nil, perform_nil, State.afterSend_withSeq] at this
  have hstart : Showing s.width s.pins s.trace.length { s with seq := [] } (sendItems s.cfg s.width kind v) := by
    refine ⟨rfl, Nat.le_refl _, congrArg s.pins.afterAll List.drop_length, ?_⟩
    have := reads_part s.cfg s.width (.send kind v) []
    rwa [List.append_nil, ← hrw] at this
  obtain ⟨hshown, -⟩ := (follows_shown s.width s.pins s.trace.length).perform_foldl hperform rfl hstart
  obtain ⟨hsent, -⟩ := shown_send s.cfg s.width kind v (x := State.shown s.pins s.trace.length s) hrw
  calc newTransfers s (s.afterSend kind v)
      = (State.shown s.pins s.trace.length s).sent ++ byteTransfers s.width kind v :=
        (congrArg Shown.sent hshown).trans hsent
    _ = byteTransfers s.width kind v := by
        rw [State.shown, List.drop_length]
        rfl

theorem byteTrace_byteTransfers (w : Width) (kind : Kind) (v : Byte) :
    byteTrace w 0 (byteTransfers w kind v) = [.byte kind v] := by
  have hkind : kindOf (rsLevel kind) = kind := by cases kind <;> rfl
  have hv : ∀ v : Byte, (v >>> 4) <<< 4 ||| (v &&& 0x0F &&& 0x0F) = v := by decide
  cases w with
  | four => simp only [byteTransfers, byteTrace, List.take_zero, List.drop_zero, List.map_nil, List.nil_append,
      pairNibbles, hkind, hv]
  | eight => simp [byteTransfers, byteTrace, hkind]

/-- Settles O18: the frame's instruction sends the byte of its word, and the bus shows what is sent. -/
theorem busShowsTheEncodedFrame : Obligations.BusShowsTheEncodedFrame := by
  intro i w s he hw hd hq hrw
  obtain ⟨kind, v, hb, rfl⟩ := busByte_of_encode he hw
  refine ⟨_, kind, v, exec_busByte hb hd hq, ?_, rfl⟩
  rw [newTransfers_afterSend hd hq hrw, byteTrace_byteTransfers]

/-! ### Nibble frames out of their place -/

theorem emitNibble_eight {s : State} (hw : s.width = .eight) (rs : Bool) (v : BitVec 4) :
    emitNibble rs v s = .refused .wrongWidth := by
  rw [emitNibble, hw]

theorem emitNibble_wrongRs {s : State} (hw : s.width = .four) {rs : Bool} (hrs : s.pins.rs.level = !rs)
    (v : BitVec 4) : emitNibble rs v s = .refused .wrongRs := by
  have hne : s.pins.rs.level ≠ rs := by rw [hrs]; cases rs <;> decide
  simp only [emitNibble, hw, if_neg hne]

/-- Settles O21: three of the four frames are `emitNibble`; the high nibble asks for the width alone. -/
theorem misplacedNibbleFramesAreRefused : Obligations.MisplacedNibbleFramesAreRefused := by
  refine fun s => ⟨fun hw => ⟨?_, ?_, ?_, ?_⟩, fun hw => ⟨fun hrs => ⟨?_, ?_⟩, ?_⟩⟩
  · exact emitNibble_eight hw _ _
  · exact emitNibble_eight hw _ _
  · intro rs h
    rw [exec, execByteHighNibble, hw]
  · exact fun rs l => emitNibble_eight hw rs l
  · exact emitNibble_wrongRs hw (rs := false) hrs _
  · exact emitNibble_wrongRs hw (rs := false) hrs _
  · exact fun rs l hrs => emitNibble_wrongRs hw hrs l

end Sys2Proof.Machine

-- The requests that are refused, and what a step runs (30_encoding.md R62, R63, R68).
namespace Sys2Proof.Machine

/-! ### Refusals -/

/-- Settles O5: RESERVED has the one refusal as its meaning. -/
theorem reservedSelectorIsRefused : Obligations.ReservedSelectorIsRefused := fun _ => rfl

/-- The legal values of `config` are the eight of 30_encoding.md R66. -/
theorem mem_of_legalConfig : ∀ config : Byte, legalConfig config = true →
    config ∈ [0x00, 0x04, 0x08, 0x0C, 0x10, 0x14, 0x18, (0x1C : Byte)] := by
  decide

/-- Settles O46: in `IDLE` the request is looked at, first for the device, then for its `config`. -/
theorem createRefusesLiveDeviceAndIllegalConfig : Obligations.CreateRefusesLiveDeviceAndIllegalConfig := by
  intro config c d s hidle
  refine ⟨fun hlive => ?_, fun hfree hmem => ?_⟩ <;> rw [exec, execCreate, accept_idle hidle]
  · rw [if_pos hlive]
  · have hillegal : legalConfig config = false := by
      simpa using mt (mem_of_legalConfig config) hmem
    rw [if_neg (by simp [hfree]), if_pos (by simp [hillegal])]

/-- Settles O48: every such request goes through the one acceptance, which refuses on a free device. -/
theorem freeDeviceRefusesRequests : Obligations.FreeDeviceRefusesRequests := by
  intro i s hneeds hfree hidle
  obtain ⟨run, hrun⟩ := exec_eq_acceptLive_of_needsLive hneeds
  rw [hrun, acceptLive_free hidle hfree]

/-! ### What a step runs -/

section Idle
variable {s : State} (hr : s.resets = []) (hs : s.seq = [])
include hr hs

theorem step_waiting (hp : s.port = []) : step s = .next s := by
  simp only [step_noReset hr, advance, hs, hp]

theorem step_request {r : Request} {more : List HostAct} (hp : s.port = .request r :: more) :
    step s = exec (decodeRequest r.word r.stream) { s with port := more } := by
  simp only [step_noReset hr, advance, hs, hp, Request.instr]

theorem step_createOther {given : Bool} {more : List HostAct} (hp : s.port = .createOther given :: more) :
    step s = .next (createOther given { s with port := more }) := by
  simp only [step_noReset hr, advance, hs, hp]

theorem step_destroyOther {more : List HostAct} (hp : s.port = .destroyOther :: more) :
    step s = .next (destroyOther { s with port := more }) := by
  simp only [step_noReset hr, advance, hs, hp]
end Idle

theorem step_issue {s : State} {i : Instr} {rest : List Micro} (hr : s.resets = []) (hs : s.seq = .issue i :: rest) :
    step s = exec i { s with seq := rest } := by
  simp only [step_noReset hr, advance, hs]

/-- Settles O6: a lemma for each clause. -/
theorem stepRunsTheDecodedRequest : Obligations.StepRunsTheDecodedRequest := by
  refine fun s => ⟨fun _ => step_resetNow, fun _ _ hr hs hp => step_request hr hs hp, fun given more hr hs hp => ?_,
    fun _ hr hs hp => step_destroyOther hr hs hp, step_waiting, fun _ _ => step_issue, fun _ _ => step_working⟩
  rw [step_createOther hr hs hp, createOther_eq]
  rfl

/-- A placed request word is the host's next request, with the stream of a table word (log 7, log 23). -/
theorem State.withFetchWord_request (s : State) {nbits : Nat} (hn : 16 < nbits) (w : Nat) :
    s.withFetchWord nbits w
      = { s with resets := [], seq := [], port := [.request ⟨BitVec.ofNat 52 w, zeroStream⟩] } :=
  if_neg (by omega)

/-- A placed frame is issued at the sequencer (log 9). -/
theorem State.withFetchWord_frame (s : State) {nbits w : Nat} {i : Instr} (hn : nbits ≤ 16)
    (hi : decodeTableWord nbits w = some i) : s.withFetchWord nbits w = { s with resets := [], seq := [.issue i] } := by
  simp only [State.withFetchWord, if_pos hn, hi]

/-- A table word longer than a frame is read as a request word (log 23). -/
theorem decodeTableWord_request {nbits : Nat} (hn : 16 < nbits) (w : Nat) :
    decodeTableWord nbits w = some (decodeRequest (BitVec.ofNat 52 w) zeroStream) := by
  rw [decodeTableWord, if_neg (by omega), if_neg (by omega), if_neg (by omega)]
  rfl

/-- Settles O7: a request word goes through the port, a frame through the sequencer. -/
theorem placedWordIsTheNextToRun : Obligations.PlacedWordIsTheNextToRun := by
  intro s nbits w i hi
  refine ⟨fun hn => ?_, fun hn => ?_⟩
  · rw [decodeTableWord_request hn] at hi
    cases hi
    rw [s.withFetchWord_request hn, step_request rfl rfl rfl]
  · rw [s.withFetchWord_frame hn hi, step_issue rfl rfl]

end Sys2Proof.Machine

-- DESTROY, and CREATE performed part by part (40_registry_lifecycle.md R90, R91, R94).
namespace Sys2Proof.Machine

/-! ### DESTROY -/

/-- Settles O47: in `IDLE` the request is accepted and reports at once. -/
theorem destroyFreesAndChangesNothingElse : Obligations.DestroyFreesAndChangesNothingElse := by
  intro s hidle
  rw [exec, execDestroy, accept_idle hidle]
  rfl

/-! ### The parts of an operation, performed -/

/-- The state after a part whose poll, if it has one, is answered 0 at once; a missing stream byte changes nothing. -/
def Part.effect (s : State) : Part → State
  | .send kind v => s.afterSend kind v
  | .write v => s.afterWrite v
  | .wait t => s.waited t
  | .storeControl v => { s with control := v }
  | .storeMode v => { s with mode := v }
  | .storeScratch p => { s with scratch := p }
  | .starve => s

@[simp] theorem Part.effect_cfg (p : Part) (s : State) : (p.effect s).cfg = s.cfg := by
  cases p with
  | send kind v => exact State.afterSend_cfg s kind v
  | _ => rfl

@[simp] theorem Part.effect_width (p : Part) (s : State) : (p.effect s).width = s.width := by
  cases p with
  | send kind v => exact State.afterSend_width s kind v
  | _ => rfl

theorem Driven.part {s : State} (h : Driven s) (p : Part) : Driven (p.effect s) := by
  cases p with
  | send kind v => exact h.afterSend kind v
  | write v => exact h.afterWrite v
  | _ => exact h

/-- A part uses up the answers of its own polls. -/
theorem Quiet.part {n : Nat} {s : State} (p : Part) (h : Quiet (p.polls s.cfg + n) s) : Quiet n (p.effect s) := by
  cases p with
  | send kind v =>
    cases hb : s.cfg.busyPoll with
    | false => exact fun hp => by simp [hb] at hp
    | true =>
      rw [Part.polls, if_pos hb, Nat.add_comm] at h
      exact h.afterSend kind v
  | _ => exact (h.mono (Nat.le_add_left n _)).congr rfl rfl rfl

/-- A part on driven lines, its poll answered 0, then the rest. -/
theorem perform_part {p : Part} {rest : List Micro} {s : State} (hd : Driven s) (hq : Quiet (p.polls s.cfg) s)
    (hp : p ≠ .starve) : perform (p.items s.cfg s.width ++ rest) s = perform rest (p.effect s) := by
  cases p with
  | send kind v =>
    refine perform_sendItems hd fun hb => ?_
    rw [Part.polls, if_pos hb] at hq
    exact hq hb
  | write v => exact perform_writeItems hd
  | wait t => exact perform_wait
  | storeControl v => exact perform_loadControl
  | storeMode v => exact perform_loadMode
  | storeScratch p => exact perform_loadScratch
  | starve => exact absurd rfl hp

/-- Parts on driven lines, their polls answered 0, then the rest. -/
theorem perform_parts {ps : List Part} {rest : List Micro} {s : State} (hd : Driven s)
    (hq : Quiet ((partsItems s.cfg s.width ps).count .poll) s) (hps : .starve ∉ ps) :
    perform (partsItems s.cfg s.width ps ++ rest) s = perform rest (ps.foldl Part.effect s) := by
  induction ps generalizing s with
  | nil => rfl
  | cons p ps ih =>
    obtain ⟨hp, hps'⟩ := not_or.mp (mt List.mem_cons.mpr hps)
    rw [partsItems_cons, List.count_append, count_poll_part] at hq
    have hnext := ih (hd.part p) (by simpa using hq.part p) hps'
    rw [Part.effect_cfg, Part.effect_width] at hnext
    rw [partsItems_cons, List.append_assoc, perform_part hd (hq.mono (Nat.le_add_right _ _)) (Ne.symm hp), hnext,
      List.foldl_cons]

/-! ### The status while CREATE runs -/

/-- The state with another status. -/
def State.withStatus (x : Option Status) (s : State) : State := { s with status := x }

@[simp] theorem State.withStatus_cfg (x : Option Status) (s : State) : (s.withStatus x).cfg = s.cfg := rfl

theorem Part.effect_withStatus (x : Option Status) (s : State) (p : Part) :
    p.effect (s.withStatus x) = (p.effect s).withStatus x := by
  cases p with
  | send kind v =>
    cases hb : s.cfg.busyPoll <;>
      simp only [Part.effect, State.afterSend, State.afterBusySend, State.withStatus_cfg, hb, if_true,
        Bool.false_eq_true, if_false] <;> rfl
  | _ => rfl

/-! ### The work of CREATE as states -/

/-- Lines given the direction output move the pins and show their events. -/
theorem foldl_turned_eq_moved (ls : List Line) (s : State) :
    ls.foldl (fun s l => s.turned l .output) s
      = s.moved (ls.foldl (fun p l => p.setDir l .output) s.pins) (ls.map fun l => .dir l .output) := by
  induction ls generalizing s with
  | nil => rfl
  | cons l ls ih => rw [List.foldl_cons, ih, State.turned, State.moved_moved]; rfl

/-- The events of `ConfigurePins()` (40_registry_lifecycle.md R91). -/
def configureEvents (c : Config) (w : Width) : List Event :=
  (deviceLines c w).map (fun l => .dir l .output) ++ if c.busyPoll then [.set .rw rwWrite] else []

/-- `ConfigurePins()` moves pins and shows its events; it changes nothing else. -/
theorem configured_eq_moved (s : State) :
    s.configured = s.moved s.configured.pins (configureEvents s.cfg s.width) := by
  simp only [State.configured, foldl_turned_eq_moved, configureEvents]
  split
  · rw [State.moved_moved]; rfl
  · rw [List.append_nil]; rfl

theorem configured_withStatus (x : Option Status) (s : State) :
    (s.withStatus x).configured = s.configured.withStatus x := by
  simp only [State.configured, foldl_turned_eq_moved, State.withStatus_cfg]
  split <;> rfl

/-- `ConfigurePins()` on any lines: the state `configured` names, then the rest (40_registry_lifecycle.md R91). -/
theorem perform_configure (rest : List Micro) (s : State) :
    perform (configurePinsItems s.cfg s.width ++ rest) s = perform rest s.configured := by
  have hdir := dir_foldl_turned (deviceLines s.cfg s.width) s .rw
  rw [configurePinsItems, List.append_assoc, perform_turns, State.configured]
  cases hb : s.cfg.busyPoll with
  | false => rfl
  | true =>
    rw [if_pos (by simp [deviceLines, hb])] at hdir
    exact perform_pinSet hdir

/-- `ConfigurePins()` drives the lines (40_registry_lifecycle.md R91). -/
theorem driven_configured (s : State) : Driven s.configured := by
  obtain ⟨t, ht, hd, -⟩ := perform_configurePinsItems [] s
  rw [perform_configure] at ht
  cases ht
  exact hd

@[simp] theorem configured_cfg (s : State) : s.configured.cfg = s.cfg := by rw [configured_eq_moved]; rfl
@[simp] theorem configured_width (s : State) : s.configured.width = s.width := by rw [configured_eq_moved]; rfl

/-- Steps 1 and 2 of INIT on driven lines, then the rest (41_init_sequence.md R101, R102). -/
theorem perform_settle {rest : List Micro} {s : State} (h : Driven s) :
    perform (.wait s.cfg.tPowerup :: .pinSet .rs false :: .pinSet .en false :: rest) s = perform rest s.settled := by
  rw [perform_wait, perform_pinSet (by exact dir_rs s h), 
    perform_pinSet (by simpa [State.waited] using dir_en s h)]
  rfl

theorem Driven.settled {s : State} (h : Driven s) : Driven s.settled := by
  refine h.congr rfl rfl fun l => ?_
  cases l <;> rfl

/-- INIT is its two first steps and its parts (41_init_sequence.md R110). -/
theorem initialized_eq_parts (s : State) (config : Byte) :
    s.initialized config
      = (danceParts s.cfg s.width config ++ setupParts s.cfg config).foldl Part.effect s.settled := by
  have hdance : s.settled.danced config = (danceParts s.cfg s.width config).foldl Part.effect s.settled := by
    have hw : s.settled.width = s.width := rfl
    have hc : s.settled.cfg = s.cfg := rfl
    cases h : s.width with
    | four => simp only [State.danced, hw, h]; rfl
    | eight =>
      cases hv : s.cfg.init8Via <;>
        simp [State.danced, hw, h, State.afterDanceByte, hc, hv, danceParts, Part.effect, State.waited,
          State.afterWrite]
  have hbyte : 0x20 ||| config = functionSetByte config := BitVec.or_comm _ _
  rw [State.initialized, hdance, hbyte, List.foldl_append]
  rfl

/-- INIT on driven lines, its polls answered 0, then the rest (41_init_sequence.md R110). -/
theorem perform_initItems {config : Byte} {rest : List Micro} {s : State} (h : Driven s)
    (hq : Quiet ((initItems s.cfg s.width config).count .poll) s) :
    perform (initItems s.cfg s.width config ++ rest) s = perform rest (s.initialized config) := by
  have hstarve : .starve ∉ danceParts s.cfg s.width config ++ setupParts s.cfg config := by
    cases s.width <;> cases hv : s.cfg.init8Via <;> simp [danceParts, setupParts, hv]
  rw [initItems_eq_parts] at hq ⊢
  rw [initialized_eq_parts]
  have hquiet : Quiet ((partsItems s.cfg s.width (danceParts s.cfg s.width config ++ setupParts s.cfg config)).count
      .poll) s := by simpa using hq
  exact (perform_settle h).trans (perform_parts h.settled (hquiet.congr rfl rfl rfl) hstarve)

/-- The status INIT finds is not looked at. -/
theorem initialized_withStatus (x : Option Status) (s : State) (config : Byte) :
    (s.withStatus x).initialized config = (s.initialized config).withStatus x := by
  rw [initialized_eq_parts, initialized_eq_parts]
  exact List.foldl_hom (State.withStatus x) (init := s.settled) (Part.effect_withStatus x)

/-- The initialization polls no more than CREATE does (43_busy_poller.md R131). -/
theorem Quiet.initItems {config : Byte} {s : State} (h : Quiet (createPolls s.cfg config) s) :
    Quiet ((initItems s.cfg (configWidth config) config).count .poll) s := by
  intro hb k hk
  have hsub : (Machine.initItems s.cfg (configWidth config) config).Sublist
      (bringUpItems s.cfg (configWidth config) config) :=
    (List.sublist_append_right _ _).trans (List.sublist_append_left _ _)
  have hcount := hsub.count_le .poll
  rw [count_poll_bringUp, if_pos hb] at hcount
  exact h hb k (Nat.lt_of_lt_of_le hk hcount)

/-- The work of CREATE is `ConfigurePins()` and then the initialization (40_registry_lifecycle.md R90). -/
theorem perform_bringUp_configured (config : Byte) (s : State) : perform (bringUpItems s.cfg s.width config) s
    = perform (initItems s.cfg s.width config ++ [.finish .ok]) s.configured := by
  rw [bringUpItems, List.append_assoc, perform_configure]

/-- The whole work of CREATE on a claimed device whose polls are all answered 0 (40_registry_lifecycle.md R90, R91;
41_init_sequence.md R110). -/
theorem perform_bringUpItems {config : Byte} {s : State} (hw : s.width = configWidth config)
    (hq : Quiet (createPolls s.cfg config) s) :
    perform (bringUpItems s.cfg s.width config) s = .next ((s.configured.initialized config).completed .ok) := by
  have hquiet : Quiet ((initItems s.cfg s.width config).count .poll) s.configured := by
    rw [configured_eq_moved, hw]
    exact hq.initItems.congr rfl rfl rfl
  have hinit := perform_initItems (config := config) (rest := [.finish .ok]) (driven_configured s)
    (by simpa using hquiet)
  rw [configured_cfg, configured_width] at hinit
  rw [perform_bringUp_configured, hinit]
  exact perform_finish

theorem slotFree_of_lt {s : State} (hfree : s.live = false) (hslot : s.othersLive < s.cfg.maxDevices) :
    slotFree s = true := by
  simpa [slotFree, liveDevices, hfree] using hslot

/-- Settles O40: the claimed device's work, part by part; the status before its end is not looked at. -/
theorem createClaimsConfiguresInitializes : Obligations.CreateClaimsConfiguresInitializes := by
  intro config s hfree hidle hmem hslot hq
  obtain ⟨hlegal, hwidth⟩ := legalConfig_of_mem hmem
  calc exec (.create config true true) s
      = perform (bringUpItems s.cfg (configWidth config) config) ((claim config s).withStatus none) :=
        exec_create hidle hfree hlegal (slotFree_of_lt hfree hslot)
    _ = .next ((((claim config s).withStatus none).configured.initialized config).completed .ok) :=
        perform_bringUpItems (s := (claim config s).withStatus none) rfl (hq.congr rfl rfl rfl)
    _ = .next (((claim config s).configured.initialized config).completed .ok) := by
        rw [configured_withStatus, initialized_withStatus]
        rfl
    _ = _ := by rw [claim, hwidth]

end Sys2Proof.Machine

-- CREATE without a device, and a pool that is full (40_registry_lifecycle.md R92, R96).
namespace Sys2Proof.Machine

/-! ### CREATE without a device -/

/-- A CREATE without a pin list or a free slot reports at once (40_registry_lifecycle.md R92). -/
theorem exec_create_noDevice {config : Byte} {c d : Bool} {s : State} (hidle : s.seq = []) (hfree : s.live = false)
    (hlegal : legalConfig config = true) (hlacks : (!c || !d || !slotFree s) = true) :
    exec (.create config c d) s = .next (s.completed .noDevice) := by
  have hlacks' : (!c || !d || !slotFree { s with status := none }) = true := hlacks
  rw [exec, execCreate, accept_idle hidle, if_neg (by simp [hfree]), if_neg (by simp [hlegal]), if_pos hlacks']
  rfl

/-- What a CREATE lacks, on a free device (40_registry_lifecycle.md R92, R96). -/
theorem lacks_iff {c d : Bool} {s : State} (hfree : s.live = false) :
    (!c || !d || !slotFree s) = true ↔ c = false ∨ d = false ∨ s.cfg.maxDevices ≤ s.othersLive := by
  simp [slotFree, liveDevices, hfree, or_assoc]

/-- No part reports a status. -/
theorem finish_not_mem_part (c : Config) (w : Width) (p : Part) (st : Status) : Micro.finish st ∉ p.items c w := by
  have hwrite : ∀ w v, Micro.finish st ∉ writeItems c w v := fun w v => by simp [writeItems]
  cases p with
  | send kind v =>
    cases w <;> cases hb : c.busyPoll <;> simp [Part.items, sendItems, byteItems, busyWaitItems, hwrite, hb]
  | write v => exact hwrite w v
  | wait | storeControl | storeMode | storeScratch | starve => simp [Part.items]

/-- The only status the work of CREATE reports is `OK` (40_registry_lifecycle.md R90). -/
theorem eq_ok_of_finish_mem_bringUp {c : Config} {w : Width} {config : Byte} {st : Status}
    (h : Micro.finish st ∈ bringUpItems c w config) : st = .ok := by
  have hparts : ∀ ps, Micro.finish st ∉ partsItems c w ps := by
    intro ps hmem
    obtain ⟨p, -, hp⟩ := List.mem_flatMap.mp hmem
    exact finish_not_mem_part c w p st hp
  have hconfigure : Micro.finish st ∉ configurePinsItems c w := by
    cases hb : c.busyPoll <;> simp [configurePinsItems, hb]
  simpa [bringUpItems, hconfigure, initItems_eq_parts, hparts] using h

/-- A CREATE that claims its slot never reports `NO_DEVICE`, not even before it completes. -/
theorem status_of_perform_bringUp {c : Config} {w : Width} {config : Byte} {s t : State}
    (h : perform (bringUpItems c w config) s = .next t) (hs : s.status ≠ some .noDevice) :
    t.status ≠ some .noDevice := by
  have hstable : BusStable fun u => u.status ≠ some .noDevice :=
    ⟨fun _ _ _ hu => hu, fun _ _ _ hu => hu, fun _ _ hu => hu⟩
  refine perform_keeps hstable h hs (fun _ _ hu => hu) (fun _ _ _ hu => hu) (fun _ _ _ hu => hu)
    (fun _ _ _ hu => hu) fun st hst u _ => ?_
  rw [eq_ok_of_finish_mem_bringUp hst]
  simp

/-! ### A full pool -/

/-- One step more of a run. -/
theorem run_succ {s u : State} (h : step s = .next u) (n : Nat) :
    Sys2Proof.core.run (n + 1) s = Sys2Proof.core.run n u := by
  simp only [Host.Core.run, show Sys2Proof.core.step s = .next u from h]

/-- The host's request of a CREATE with both pin lists (30_encoding.md R61). -/
def createAct (config : Byte) : HostAct := .request ⟨reqWord 0x0 config 0x03 0, []⟩

/-- No instruction writes the host's acts. -/
theorem exec_port {i : Instr} {s t : State} (h : exec i s = .next t) : t.port = s.port := by
  obtain ⟨s', items, hs, hp⟩ | ⟨-, ⟨items, hp⟩ | ⟨b, rfl⟩⟩ := exec_next_cases h
  · exact (perform_kept hp).1.port.trans hs.begins_port
  · exact (perform_kept hp).1.port
  · rfl

/-- A step in `IDLE` that finds a CREATE with both pin lists on the port runs it. -/
theorem step_create {config : Byte} {more : List HostAct} {s : State} (hr : s.resets = []) (hs : s.seq = [])
    (hp : s.port = createAct config :: more) :
    step s = exec (.create config true true) (s.withPort more) := by
  have hdecode : decodeRequest (reqWord 0x0 config 0x03 0) [] = .create config true true := by simp [decodeRequest]
  rw [step_request hr hs hp, hdecode]
  rfl

/-- A full pool of other devices, one of which is destroyed: the CREATE after it completes
(40_registry_lifecycle.md R96; 60_exceptions.md R190). -/
theorem run_destroyOther_create {config : Byte} {more : List HostAct} {s : State} (hfree : s.live = false)
    (hidle : s.seq = []) (hmem : config ∈ [0x00, 0x04, 0x08, 0x0C, 0x10, 0x14, 0x18, (0x1C : Byte)])
    (hr : s.resets = []) (hpos : 0 < s.cfg.maxDevices) (hfull : s.othersLive = s.cfg.maxDevices)
    (hq : Quiet (createPolls s.cfg config) s) (hport : s.port = .destroyOther :: createAct config :: more) :
    ∃ t : State, Sys2Proof.core.run 2 s = .next t ∧ t.live = true ∧ t.status = some .ok ∧ t.seq = [] ∧
      t.port = more ∧ t.othersLive + 1 = s.cfg.maxDevices := by
  have hfreed := step_destroyOther hr hidle hport
  have hcreate := step_create (s := destroyOther { s with port := createAct config :: more }) (more := more) hr hidle
    rfl
  have hslot : s.othersLive - 1 < s.cfg.maxDevices := by omega
  obtain ⟨t, ht, hlive, -, -, -, hdone, hstatus, -⟩ := createLeavesTheStatedValues config
    ((destroyOther { s with port := createAct config :: more }).withPort more) hfree hidle hmem hslot
    (hq.congr rfl rfl rfl)
  have hothers : t.othersLive = s.othersLive - 1 := (exec_cfg_othersLive ht).2
  refine ⟨t, ?_, hlive, hstatus, hdone, exec_port ht, by omega⟩
  rw [run_succ hfreed, run_succ (hcreate.trans ht)]
  rfl

/-- Settles O45: what CREATE lacks decides which of its two ends it takes, and a slot freed by another device is what it
lacked. -/
theorem createFailsExactlyWithoutListOrSlot : Obligations.CreateFailsExactlyWithoutListOrSlot := by
  intro config c d s hfree hidle hmem
  obtain ⟨hlegal, -⟩ := legalConfig_of_mem hmem
  refine ⟨fun hlacks => exec_create_noDevice hidle hfree hlegal ((lacks_iff hfree).mpr hlacks), fun t ht hstatus => ?_,
    fun more hr hpos hfull hq hport => ?_⟩
  · obtain ⟨s', items, hst, hp⟩ := starts_of_exec_next rfl ht
    cases hst with
    | live hneeds => cases hneeds
    | create => exact absurd hstatus (status_of_perform_bringUp hp (by simp [claim]))
    | noDevice _ _ hlacks => exact (lacks_iff hfree).mp hlacks
  · have hlacks : (!true || !true || !slotFree s) = true := (lacks_iff hfree).mpr (.inr (.inr hfull.ge))
    have hfail : step s = .next (State.completed (s.withPort _) .noDevice) :=
      (step_create hr hidle hport).trans (exec_create_noDevice (s := s.withPort _) hidle hfree hlegal hlacks)
    obtain ⟨t, hrun, ht⟩ := run_destroyOther_create (config := config)
      (s := State.completed (s.withPort (.destroyOther :: createAct config :: more)) .noDevice)
      hfree hidle hmem hr hpos hfull (hq.congr rfl rfl rfl) rfl
    exact ⟨_, t, run_succ hfail 0, hfree, rfl, rfl, (run_succ hfail 2).trans hrun, ht⟩

end Sys2Proof.Machine

-- CREATE and an earlier life of the slot (40_registry_lifecycle.md R95).
namespace Sys2Proof.Machine

/-! ### One item, done or to be done again -/

/-- The item ends the step here: a poll about to be answered 1, a missing stream byte, a frame to be started. -/
def Micro.stays (s : State) : Micro → Bool
  | .poll => s.answerAt 0
  | .awaitStream | .issue _ => true
  | _ => false

/-- The state in which such an item is left. -/
def Micro.stayed (s : State) : Micro → State
  | .poll => (s.takeAnswers 1).sampled true
  | _ => s

/-- The answers decide how an item ends, when it is not refused. -/
theorem runMicro_cases (m : Micro) (s : State) :
    runMicro m s = (if m.stays s then .again (m.stayed s) else .done (m.effect s)) ∨
    ∃ r, runMicro m s = .refused r := by
  cases m with
  | poll => exact pollLoop_cases s
  | pinSet l v =>
    by_cases h : s.pins.dir l = .output
    · exact .inl (pinSet_output h)
    · exact .inr ⟨_, if_neg h⟩
  | _ => exact .inl rfl

/-- Items performed to a next state: the first is done and the rest goes on, or the step ends at it. -/
theorem perform_cons_next {m : Micro} {rest : List Micro} {s t : State} (h : perform (m :: rest) s = .next t) :
    (m.stays s = false ∧ perform rest (m.effect s) = .next t) ∨
    (m.stays s = true ∧ t = { m.stayed s with seq := m :: rest ++ (m.stayed s).seq }) := by
  rw [perform] at h
  obtain he | ⟨r, he⟩ := runMicro_cases m s
  · rw [he] at h
    cases hs : m.stays s with
    | false => exact .inl ⟨rfl, by simpa [hs] using h⟩
    | true => exact .inr ⟨rfl, by simpa [hs] using h.symm⟩
  · rw [he] at h
    cases h

/-! ### Two lives of a slot -/

/-- Two devices that the work of the sequencer cannot tell apart, each with its trace when it began: they differ in
latches, registers, sample and scratch alone, and have shown the same events since. -/
structure Alike (b b' : List Event) (s s' : State) : Prop where
  cfg     : s'.cfg = s.cfg
  width   : s'.width = s.width
  seq     : s'.seq = s.seq
  status  : s'.status = s.status
  answers : s'.answers = s.answers
  polls   : s'.polls = s.polls
  dir     : ∀ l ∈ deviceLines s.cfg s.width, s'.pins.dir l = s.pins.dir l
  trace   : ∃ es, s.trace = b ++ es ∧ s'.trace = b' ++ es

section Alike
variable {b b' : List Event} {s s' : State} (h : Alike b b' s s')
include h

theorem Alike.stays (m : Micro) : m.stays s' = m.stays s := by
  cases m with
  | poll => exact State.answerAt_congr h.answers h.polls 0
  | _ => rfl

/-- The same further events, with changes to the pins that agree on the directions. -/
theorem Alike.moved {p p' : Pins} {fs fs' : List Event} (hfs : fs' = fs)
    (hdir : ∀ l ∈ deviceLines s.cfg s.width, p'.dir l = p.dir l) : Alike b b' (s.moved p fs) (s'.moved p' fs') := by
  obtain ⟨es, he, he'⟩ := h.trace
  exact ⟨h.cfg, h.width, h.seq, h.status, h.answers, h.polls, hdir, es ++ fs, by simp [he], by simp [he', hfs]⟩

theorem Alike.sampled (a : Bool) : Alike b b' ((s.takeAnswers 1).sampled a) ((s'.takeAnswers 1).sampled a) := by
  have htaken : Alike b b' { s.takeAnswers 1 with busy := a } { s'.takeAnswers 1 with busy := a } :=
    ⟨h.cfg, h.width, h.seq, h.status, congrArg (List.drop 1) h.answers, congrArg (· + 1) h.polls, h.dir, h.trace⟩
  refine htaken.moved ?_ fun l hl => ?_
  · rw [State.takeAnswers_cfg, State.takeAnswers_width, h.cfg, h.width]
    rfl
  · exact (Pins.dir_enLow _ l).trans ((h.dir l hl).trans (Pins.dir_enLow _ l).symm)

theorem Alike.effect (m : Micro) : Alike b b' (m.effect s) (m.effect s') := by
  cases m with
  | pinSet l v => exact h.moved rfl fun k hk => by simpa using h.dir k hk
  | pinDir l d => exact h.moved rfl fun k hk => by simp [h.dir k hk]
  | wait t => exact h.moved rfl h.dir
  | poll => exact h.sampled false
  | finish st => exact ⟨h.cfg, h.width, h.seq, rfl, h.answers, h.polls, h.dir, h.trace⟩
  | loadControl | loadMode | loadScratch | awaitStream | issue =>
    exact ⟨h.cfg, h.width, h.seq, h.status, h.answers, h.polls, h.dir, h.trace⟩

theorem Alike.stayed (m : Micro) : Alike b b' (m.stayed s) (m.stayed s') := by
  cases m with
  | poll => exact h.sampled true
  | _ => exact h

end Alike

/-- The same work leaves them so. -/
theorem Alike.perform {b b' : List Event} {items : List Micro} {s s' t t' : State} (h : Alike b b' s s')
    (ht : perform items s = .next t) (ht' : perform items s' = .next t') : Alike b b' t t' := by
  induction items generalizing s s' with
  | nil =>
    cases ht
    cases ht'
    exact h
  | cons m rest ih =>
    obtain ⟨hs, hp⟩ | ⟨hs, rfl⟩ := perform_cons_next ht <;>
      obtain ⟨hs', hp'⟩ | ⟨hs', rfl⟩ := perform_cons_next ht'
    · exact ih (h.effect m) hp hp'
    · exact absurd (hs'.symm.trans ((h.stays m).trans hs)) (by decide)
    · exact absurd (hs'.symm.trans ((h.stays m).trans hs)) (by decide)
    · have hu := h.stayed m
      exact ⟨hu.cfg, hu.width, congrArg (m :: rest ++ ·) hu.seq, hu.status, hu.answers, hu.polls, hu.dir, hu.trace⟩

/-- `ConfigurePins()` makes two devices alike that differ in registers, latches and directions. -/
theorem alike_configured {s s' : State} (hc : s'.cfg = s.cfg) (hw : s'.width = s.width) (hs : s'.seq = s.seq)
    (hst : s'.status = s.status) (ha : s'.answers = s.answers) (hp : s'.polls = s.polls) :
    Alike s.trace s'.trace s.configured s'.configured := by
  have hd := driven_configured s
  have hd' := driven_configured s'
  have he : configureEvents s'.cfg s'.width = configureEvents s.cfg s.width := by rw [hc, hw]
  rw [configured_eq_moved s] at hd ⊢
  rw [configured_eq_moved s', he] at hd' ⊢
  refine ⟨hc, hw, hs, hst, ha, hp, fun l hl => ?_, _, State.moved_trace _ _ _, State.moved_trace _ _ _⟩
  rw [hd l hl, hd' l (by rw [State.moved_cfg, State.moved_width, hc, hw]; exact hl)]

/-! ### The work of CREATE sets every line -/

/-- Every line of the device is set by a `Send` (42_bus_transmitter.md R117; 43_busy_poller.md R130). -/
theorem pinSet_mem_send {c : Config} {w : Width} {l : Line} (hl : l ∈ deviceLines c w) (kind : Kind) (v : Byte) :
    ∃ x, Micro.pinSet l x ∈ sendItems c w kind v := by
  have hwrite : ∀ m ∈ writeItems c w v.toNat, m ∈ sendItems c w kind v := by
    intro m hm
    have hbyte : m ∈ byteItems c w v := by
      cases w with
      | four => exact List.mem_append_right _ hm
      | eight => exact hm
    simp [sendItems, hbyte]
  cases l with
  | rs => exact ⟨rsLevel kind, by simp [sendItems]⟩
  | en => exact ⟨true, hwrite _ (by simp [writeItems])⟩
  | d i => exact ⟨v.toNat.testBit i, hwrite _ (by simpa [writeItems, deviceLines] using hl)⟩
  | rw =>
    have hb : c.busyPoll = true := by simpa [deviceLines] using hl
    exact ⟨rwWrite, by simp [sendItems, busyWaitItems, hb]⟩

/-- The level of a line that is set does not depend on the level it had. -/
theorem finalLevel_of_pinSet_mem {l : Line} {x : Bool} {items : List Micro} (h : Micro.pinSet l x ∈ items)
    (a b : Bool) : finalLevel l a items = finalLevel l b items := by
  induction items generalizing a b with
  | nil => cases h
  | cons m rest ih =>
    obtain rfl | hrest := List.mem_cons.mp h
    · simp [finalLevel]
    · exact ih hrest _ _

/-- CREATE sets every line of the device, whatever its level was (40_registry_lifecycle.md R95). -/
theorem level_afterItems_bringUp {c : Config} {w : Width} {config : Byte} {l : Line} (hl : l ∈ deviceLines c w)
    (p q : Pins) : ((bringUpItems c w config).foldl Pins.afterItem p).level l
      = ((bringUpItems c w config).foldl Pins.afterItem q).level l := by
  obtain ⟨before, e⟩ := bringUpItems_eq_append c w config
  obtain ⟨x, hx⟩ := pinSet_mem_send hl .command modeAfterCreate
  rw [← finalLevel_eq_pins, ← finalLevel_eq_pins]
  exact finalLevel_of_pinSet_mem (x := x) (by simp [e, hx]) _ _

/-- Two devices with the parameters, width, answers and sequencer position of each other begin CREATE's work; what they
show and what they are left with is the same (40_registry_lifecycle.md R95). -/
theorem alike_of_perform_bringUp {config : Byte} {s s' t t' : State} (hc : s'.cfg = s.cfg) (hw : s'.width = s.width)
    (hs : s'.seq = s.seq) (hst : s'.status = s.status) (ha : s'.answers = s.answers) (hp : s'.polls = s.polls)
    (ht : perform (bringUpItems s.cfg s.width config) s = .next t)
    (ht' : perform (bringUpItems s.cfg s.width config) s' = .next t') : Alike s.trace s'.trace t t' := by
  have hconfigured := perform_bringUp_configured config s'
  rw [hc, hw] at hconfigured
  exact (alike_configured hc hw hs hst ha hp).perform ((perform_bringUp_configured config s).symm.trans ht)
    (hconfigured.symm.trans ht')

/-- A completed CREATE leaves the registers of INIT, and the pins that its work makes of those it found. -/
theorem left_of_perform_bringUp {c : Config} {w : Width} {config : Byte} {s t : State}
    (h : perform (bringUpItems c w config) s = .next t) (hs : s.seq = []) (hdone : t.seq = []) :
    t.control = controlAfterCreate ∧ t.mode = modeAfterCreate ∧
      t.pins = (bringUpItems c w config).foldl Pins.afterItem s.pins := by
  obtain ⟨hstored, -⟩ := follows_stored.perform_foldl h hs trivial
  obtain ⟨hpins, -⟩ := follows_pins.perform_foldl h hs trivial
  rw [hdone, List.foldl_nil] at hstored hpins
  rw [stored_bringUp] at hstored
  exact ⟨congrArg Stored.control hstored, congrArg Stored.mode hstored, hpins⟩

/-- Settles O44: a CREATE that claims its slot makes the two devices alike with `ConfigurePins()`, and sets every line
and register before it completes. -/
theorem createForgetsTheEarlierLife : Obligations.CreateForgetsTheEarlierLife := by
  intro config x y s s' t t' hfree hfree' hidle hidle' hc ho ha hp ht ht'
  have hslot : slotFree s' = slotFree s := by simp [slotFree, liveDevices, hfree, hfree', hc, ho]
  obtain ⟨a, items, hst, hwork⟩ := starts_of_exec_next rfl ht
  obtain ⟨a', items', hst', hwork'⟩ := starts_of_exec_next rfl ht'
  cases hst with
  | live hneeds => cases hneeds
  | noDevice _ _ hlacks =>
    cases hst' with
    | live hneeds => cases hneeds
    | create _ _ _ hs => simp [← hslot, hs] at hlacks
    | noDevice =>
      cases hwork
      cases hwork'
      have hnone : ∀ u v : State, v.trace = u.trace → newEvents u v = [] :=
        fun u v hv => newEvents_of_trace (hv.trans (List.append_nil _).symm)
      exact ⟨(hnone _ _ rfl).trans (hnone _ _ rfl).symm, hfree.trans hfree'.symm, rfl, hidle.trans hidle'.symm,
        fun hlive => absurd (hlive.symm.trans hfree) (by decide)⟩
  | create _ _ _ hs =>
    cases hst' with
    | live hneeds => cases hneeds
    | noDevice _ _ hlacks => simp [hslot, hs] at hlacks
    | create =>
      have hitems : bringUpItems s'.cfg (configWidth config) config
          = bringUpItems s.cfg (configWidth config) config := by rw [hc]
      rw [hitems] at hwork'
      have halike := alike_of_perform_bringUp (s := claim config { s with status := none })
        (s' := claim config { s' with status := none }) hc rfl (hidle'.trans hidle.symm) rfl ha hp hwork hwork'
      obtain ⟨es, he, he'⟩ := halike.trace
      obtain ⟨hk, -⟩ := perform_kept hwork
      obtain ⟨hk', -⟩ := perform_kept hwork'
      refine ⟨(newEvents_of_trace he).trans (newEvents_of_trace he').symm, hk.live.trans hk'.live.symm,
        halike.status.symm, halike.seq.symm, fun _ => ⟨halike.width.symm, fun l hl => (halike.dir l hl).symm,
        fun hdone => ?_⟩⟩
      obtain ⟨hcontrol, hmode, hpins⟩ := left_of_perform_bringUp hwork hidle hdone
      obtain ⟨hcontrol', hmode', hpins'⟩ := left_of_perform_bringUp hwork' hidle' (halike.seq.trans hdone)
      refine ⟨hcontrol.trans hcontrol'.symm, hmode.trans hmode'.symm, fun l hl => ?_⟩
      rw [hk.cfg, hk.width] at hl
      rw [hpins, hpins']
      exact level_afterItems_bringUp hl _ _

end Sys2Proof.Machine

-- The frames of the reset dance and the nibble frames in their place (41_init_sequence.md R103, R104; log 9).
namespace Sys2Proof.Machine

/-! ### Nibble frames in their place -/

/-- `WriteValue(v)` on driven lines with nothing after it (42_bus_transmitter.md R115). -/
theorem perform_writeItems_only {s : State} (h : Driven s) (v : Nat) :
    perform (writeItems s.cfg s.width v) s = .next (s.afterWrite v) := by
  have := perform_writeItems (v := v) (rest := []) h
  rwa [List.append_nil, perform_nil] at this

/-- A nibble frame with `W = 4` and RS at its level is one `WriteValue` (42_bus_transmitter.md R115, R117). -/
theorem emitNibble_four {s : State} (h : Driven s) (hw : s.width = .four) {rs : Bool} (hrs : s.pins.rs.level = rs)
    (v : BitVec 4) : emitNibble rs v s = .next (s.afterWrite v.toNat) := by
  have hwrite := perform_writeItems_only h v.toNat
  rw [hw] at hwrite
  simp only [emitNibble, hw, if_pos hrs, hwrite]

/-- The high-nibble frame sets RS and writes its nibble (42_bus_transmitter.md R117). -/
theorem execByteHighNibble_four {s : State} (h : Driven s) (hw : s.width = .four) (rs : Bool) (v : BitVec 4) :
    execByteHighNibble rs v s
      = .next (State.afterWrite (s.moved (s.pins.setLevel .rs rs) [.set .rs rs]) v.toNat) := by
  have hselected : Driven (s.moved (s.pins.setLevel .rs rs) [.set .rs rs]) := h.congr rfl rfl fun l => by simp
  have hwrite := perform_writeItems_only hselected v.toNat
  rw [State.moved_cfg, State.moved_width, hw] at hwrite
  simp only [execByteHighNibble, hw, perform_pinSet (dir_rs s h), hwrite]

/-- Settles O20: three of the four frames are `emitNibble`; the high nibble sets RS before its write. -/
theorem nibbleFramesAreSingleWrites : Obligations.NibbleFramesAreSingleWrites := by
  refine fun s hd hw => ⟨fun hrs => ?_, fun hrs => ?_, fun rs h => ?_, fun rs l hrs => ?_⟩
  · exact emitNibble_four hd hw hrs 0x3
  · exact emitNibble_four hd hw hrs 0x2
  · exact execByteHighNibble_four hd hw rs h
  · exact emitNibble_four hd hw hrs l

/-! ### The 8-bit reset byte -/

/-- One byte of the 8-bit reset dance on driven lines, its poll, if any, answered 0 (41_init_sequence.md R104). -/
theorem perform_danceByteItems {s : State} (h : Driven s) (hw : s.width = .eight) (hq : Quiet 1 s) (config : Byte) :
    perform (danceByteItems s.cfg config) s = .next (s.afterDanceByte config) := by
  cases hv : s.cfg.init8Via with
  | send =>
    have hsend := perform_sendItems (kind := .command) (v := danceByte s.cfg.init8OrOpcode config) (rest := []) h hq
    rw [List.append_nil, perform_nil, hw] at hsend
    simp only [danceByteItems, State.afterDanceByte, hv, hsend]
  | writeValue =>
    have hwrite := perform_writeItems_only h (danceByte s.cfg.init8OrOpcode config).toNat
    rw [hw] at hwrite
    simp only [danceByteItems, State.afterDanceByte, hv, hwrite]

/-- The config byte of the reset byte's fields is the frame's byte (30_encoding.md R65, R66). -/
theorem configOf_true : ∀ n f : Bool, configOf true n f = danceFrameByte n f := by decide

/-- Settles O19: with `W = 8` the frame is one byte of the dance, the dance's byte for the config of its fields. -/
theorem resetByteFollowsItsParameters : Obligations.ResetByteFollowsItsParameters := by
  refine fun n f s => ⟨fun hw hd hq hrs => ?_, fun hw => ?_⟩
  · have hlow : ¬(s.cfg.init8Via = .writeValue ∧ s.pins.rs.level = true) := fun ⟨hv, hhigh⟩ =>
      absurd (hhigh.symm.trans (hrs hv)) (by decide)
    have hdance := perform_danceByteItems hd hw hq (danceFrameByte n f)
    simp only [exec, execCmdResetByte8, hw, if_neg hlow, configOf_true, hdance]
    rfl
  · simp only [exec, execCmdResetByte8, hw]

end Sys2Proof.Machine

-- The byte trace of CREATE (41_init_sequence.md R103 to R108, R110).
namespace Sys2Proof.Machine

/-! ### What the bus shows of command parts -/

/-- The transfers of a part with RS at the command level before it and after it. -/
def Part.commandTransfers (w : Width) : Part → List Transfer
  | .send kind v => byteTransfers w kind v
  | .write v => [⟨rsLevel .command, BitVec.ofNat 8 v &&& lineMask w⟩]
  | _ => []

/-- RW is at write and RS at the command level (10_state.md R20). -/
def Shown.Commanding (x : Shown) : Prop := x.pins.rw.level = rwWrite ∧ x.pins.rs.level = rsLevel .command

/-- The pins of what the bus has shown are those the work items leave. -/
theorem shown_pins (w : Width) (items : List Micro) (x : Shown) :
    (items.foldl (Shown.after w) x).pins = items.foldl Pins.afterItem x.pins :=
  (List.foldl_hom Shown.pins (fun _ _ => rfl)).symm

/-- A part that sends no data shows its transfers as a command and leaves RS at the command level. -/
theorem shown_commandPart (c : Config) (w : Width) {p : Part} (hp : ∀ v, p ≠ .send .data v) {x : Shown}
    (hx : x.Commanding) : ((p.items c w).foldl (Shown.after w) x).sent = x.sent ++ p.commandTransfers w ∧
      ((p.items c w).foldl (Shown.after w) x).Commanding := by
  obtain ⟨hrw, hrs⟩ := hx
  cases p with
  | send kind v =>
    cases kind with
    | data => exact absurd rfl (hp v)
    | command =>
      obtain ⟨hsent, hrw'⟩ := shown_send c w .command v hrw
      exact ⟨hsent, hrw', (congrArg (·.rs.level) (shown_pins w _ x)).trans (pins_sendCommand c w v x.pins).1⟩
  | write v =>
    rw [Part.items, shown_write c w v hrw, pins_write, hrs]
    exact ⟨rfl, hrw, hrs⟩
  | wait | storeControl | storeMode | storeScratch | starve =>
    exact ⟨by simp [Part.items, Part.commandTransfers, Shown.after], hrw, hrs⟩

/-- Parts that send no data show their transfers in order. -/
theorem shown_commandParts (c : Config) (w : Width) {ps : List Part} (hps : ∀ v, .send .data v ∉ ps) {x : Shown}
    (hx : x.Commanding) : ((partsItems c w ps).foldl (Shown.after w) x).sent
      = x.sent ++ ps.flatMap (Part.commandTransfers w) := by
  induction ps generalizing x with
  | nil => exact (List.append_nil _).symm
  | cons p ps ih =>
    obtain ⟨hsent, hx'⟩ := shown_commandPart c w (fun v hv => hps v (hv ▸ List.mem_cons_self)) hx
    rw [partsItems_cons, List.foldl_append, ih (fun v hv => hps v (List.mem_cons_of_mem p hv)) hx', hsent,
      List.flatMap_cons, List.append_assoc]

/-! ### What the bus shows of CREATE -/

/-- `ConfigurePins()` shows no transfer and leaves RW at write (40_registry_lifecycle.md R91). -/
theorem shown_configure (c : Config) (w : Width) {x : Shown} (hrw : x.pins.rw.level = rwWrite) :
    ((configurePinsItems c w).foldl (Shown.after w) x).sent = x.sent ∧
    ((configurePinsItems c w).foldl (Shown.after w) x).pins.rw.level = rwWrite := by
  have hdirs : ∀ (ls : List Line) (y : Shown), y.sent = x.sent → y.pins.rw.level = rwWrite →
      ((ls.map fun l => Micro.pinDir l .output).foldl (Shown.after w) y).sent = x.sent ∧
      ((ls.map fun l => Micro.pinDir l .output).foldl (Shown.after w) y).pins.rw.level = rwWrite := by
    intro ls
    induction ls with
    | nil => exact fun _ hsent hy => ⟨hsent, hy⟩
    | cons l ls ih => exact fun y hsent hy => ih _ ((List.append_nil _).trans hsent) (by cases l <;> exact hy)
  obtain ⟨hsent, hy⟩ := hdirs (deviceLines c w) x rfl hrw
  rw [configurePinsItems, List.foldl_append]
  cases c.busyPoll with
  | false => exact ⟨hsent, hy⟩
  | true => exact ⟨(List.append_nil _).trans hsent, rfl⟩

/-- The work of CREATE shows the transfers of the reset dance and of the setup, nothing else
(41_init_sequence.md R110). -/
theorem sent_bringUp (c : Config) (w : Width) (config : Byte) {x : Shown} (hrw : x.pins.rw.level = rwWrite) :
    ((bringUpItems c w config).foldl (Shown.after w) x).sent
      = x.sent ++ (danceParts c w config ++ setupParts c config).flatMap (Part.commandTransfers w) := by
  have hcommands : ∀ v, .send .data v ∉ danceParts c w config ++ setupParts c config := by
    intro v
    cases w <;> cases hv : c.init8Via <;> simp [danceParts, setupParts, hv]
  obtain ⟨hconfigured, hrw'⟩ := shown_configure c w hrw
  have hinit := shown_commandParts c w hcommands
    (x := ((((configurePinsItems c w).foldl (Shown.after w) x).after w (.wait c.tPowerup)).after w
      (.pinSet .rs false)).after w (.pinSet .en false)) ⟨hrw', rfl⟩
  rw [bringUpItems, initItems_eq_parts]
  simp only [List.foldl_append, List.foldl_cons, List.foldl_nil]
  refine (List.append_nil _).trans (hinit.trans ?_)
  simp [Shown.after, transfers, hconfigured]

/-- The write transfers of the whole work of CREATE, completed (00_scope.md R6). -/
theorem newTransfers_of_perform_bringUp {config : Byte} {s t : State}
    (h : perform (bringUpItems s.cfg s.width config) s = .next t) (hidle : s.seq = []) (hdone : t.seq = [])
    (hrw : s.pins.rw.level = rwWrite) : newTransfers s t
      = (danceParts s.cfg s.width config ++ setupParts s.cfg config).flatMap (Part.commandTransfers s.width) := by
  have hstart : Showing s.width s.pins s.trace.length s (bringUpItems s.cfg s.width config) := by
    refine ⟨rfl, Nat.le_refl _, congrArg s.pins.afterAll List.drop_length, ?_⟩
    rw [hrw]
    exact reads_bringUp s.cfg s.width config
  have hnone : (s.shown s.pins s.trace.length).sent = [] := by
    rw [State.shown, List.drop_length]
    rfl
  obtain ⟨hshown, -⟩ := (follows_shown s.width s.pins s.trace.length).perform_foldl h hidle hstart
  rw [hdone, List.foldl_nil] at hshown
  have hsent := (congrArg Shown.sent hshown).trans (sent_bringUp s.cfg s.width config hrw)
  rwa [hnone, List.nil_append] at hsent

/-! ### The byte trace of CREATE -/

/-- A byte's transfers stand first in the byte trace, whatever follows. -/
theorem byteTrace_byteTransfers_append (w : Width) (kind : Kind) (v : Byte) (ts : List Transfer) :
    byteTrace w 0 (byteTransfers w kind v ++ ts) = .byte kind v :: byteTrace w 0 ts := by
  have hbyte := byteTrace_byteTransfers w kind v
  cases w with
  | four => exact congrArg (· ++ pairNibbles ts) hbyte
  | eight => exact congrArg (· ++ byteTrace .eight 0 ts) hbyte

/-- The setup of CREATE is four command bytes (41_init_sequence.md R105 to R108). -/
theorem byteTrace_setup (c : Config) (w : Width) (config : Byte) :
    byteTrace w 0 ((setupParts c config).flatMap (Part.commandTransfers w))
      = [.byte .command (functionSetByte config), .byte .command controlAfterCreate, .byte .command clearCommand,
          .byte .command modeAfterCreate] := by
  simp only [setupParts, List.flatMap_cons, List.flatMap_nil, Part.commandTransfers, List.nil_append,
    byteTrace_byteTransfers_append]
  cases w <;> rfl

/-- The lone nibbles of the 4-bit dance, before whatever follows (41_init_sequence.md R103). -/
theorem byteTrace_dance_four (c : Config) (config : Byte) (ts : List Transfer) :
    byteTrace .four 4 ((danceParts c .four config).flatMap (Part.commandTransfers .four) ++ ts)
      = [.nibble 3, .nibble 3, .nibble 3, .nibble 2] ++ byteTrace .four 0 ts := rfl

/-- The byte of the 8-bit dance three times, by either primitive, before whatever follows
(41_init_sequence.md R104). -/
theorem byteTrace_dance_eight (c : Config) (config : Byte) (ts : List Transfer) :
    byteTrace .eight 4 ((danceParts c .eight config).flatMap (Part.commandTransfers .eight) ++ ts)
      = List.replicate 3 (.byte .command (danceByte c.init8OrOpcode config)) ++ byteTrace .eight 0 ts := by
  have hwrite : ∀ v : Byte, (Part.write v.toNat).commandTransfers .eight = byteTransfers .eight .command v := by
    intro v
    have hall : v &&& 0xFF = v := BitVec.and_allOnes
    simpa [Part.commandTransfers, byteTransfers, lineMask] using hall
  have hdance : (danceParts c .eight config).flatMap (Part.commandTransfers .eight)
      = (List.replicate 3 (byteTransfers .eight .command (danceByte c.init8OrOpcode config))).flatten := by
    cases hv : c.init8Via with
    | send => simp [danceParts, hv, Part.commandTransfers, List.replicate_succ]
    | writeValue =>
      simp only [danceParts, hv, List.flatMap_cons, hwrite]
      simp [Part.commandTransfers, List.replicate_succ]
  rw [hdance]
  simp [List.replicate_succ, byteTransfers, byteTrace, kindOf, rsLevel]

/-- The byte trace of the transfers of CREATE's parts (41_init_sequence.md R103 to R108). -/
theorem byteTrace_createParts (c : Config) (w : Width) (config : Byte) :
    byteTrace w 4 ((danceParts c w config ++ setupParts c config).flatMap (Part.commandTransfers w))
      = (match w with
          | .four => [.nibble 3, .nibble 3, .nibble 3, .nibble 2]
          | .eight => List.replicate 3 (.byte .command (danceByte c.init8OrOpcode config)))
        ++ [.byte .command (functionSetByte config), .byte .command controlAfterCreate, .byte .command clearCommand,
          .byte .command modeAfterCreate] := by
  rw [List.flatMap_append, ← byteTrace_setup c w config]
  cases w with
  | four => exact byteTrace_dance_four c config _
  | eight => exact byteTrace_dance_eight c config _

/-- Settles O42: the transfers of the work of CREATE are those of its parts, and the bus reads them so. -/
theorem createByteTrace : Obligations.CreateByteTrace := by
  intro config s hfree hidle hmem hslot hq hopcode hrw
  obtain ⟨hlegal, hwidth⟩ := legalConfig_of_mem hmem
  obtain ⟨t, ht, -, hw, -, -, hdone, -⟩ := createLeavesTheStatedValues config s hfree hidle hmem hslot hq
  have hwork := (exec_create hidle hfree hlegal (slotFree_of_lt hfree hslot)).symm.trans ht
  have hsent : newTransfers s t = _ :=
    newTransfers_of_perform_bringUp (s := claim config { s with status := none }) hwork hidle hdone hrw
  refine ⟨t, ht, ?_⟩
  rw [hsent, hw, ← hwidth]
  refine (byteTrace_createParts s.cfg (configWidth config) config).trans ?_
  rw [hopcode, hwidth]
  cases config.getLsbD 4 <;> rfl

end Sys2Proof.Machine

-- The transmitter's procedures by themselves (42_bus_transmitter.md R115, R117, R118; log 9).
namespace Sys2Proof.Machine

/-! ### WriteValue and Send with nothing after them -/

/-- Settles O10: the procedure is its items with nothing after them. -/
theorem writeValueDrivesTheLinesAndPulses : Obligations.WriteValueDrivesTheLinesAndPulses :=
  fun v _ hd => perform_writeItems_only hd v

/-- Settles O11: each busy answer of the poll costs one step (`runs_sendItems`). -/
theorem sendPollsThenTransfersThenSettles : Obligations.SendPollsThenTransfersThenSettles := by
  intro v kind k s hd hidle hreset hpoll
  have hruns := runs_sendItems (rest := []) hd hidle hreset hpoll (Runs.zero (s.afterBusySend k kind v))
  rwa [List.append_nil] at hruns

/-- `Send(v, kind)` whose poll, if any, is answered 0 at once (42_bus_transmitter.md R117). -/
theorem exec_send {s : State} (hd : Driven s) (hq : Quiet 1 s) (kind : Kind) (v : Byte) :
    exec (.send v kind) s = .next (s.afterSend kind v) := by
  have hsend := perform_sendItems (kind := kind) (v := v) (rest := []) hd hq
  rwa [List.append_nil] at hsend

/-- Settles O12: a quiet `Send` ends in `afterSend`, whose new transfers are those of its byte. -/
theorem sendIsTwoNibblesOrOneByte : Obligations.SendIsTwoNibblesOrOneByte := by
  intro v kind s hd hq hrw
  refine ⟨_, exec_send hd hq kind v, ?_⟩
  rw [newTransfers_afterSend hd hq hrw]
  cases s.width <;> rfl

/-! ### A Send as its nibble frames -/

/-- Four lines show the low nibble of a value alone (20_memory.md R44). -/
theorem onLines_mod (x : BitVec 8) (v : Nat) : onLines .four x (v % 16) = onLines .four x v := by
  have hlow : BitVec.ofNat 8 (v % 16) &&& lineMask .four = BitVec.ofNat 8 v &&& lineMask .four := by
    have hmask : (lineMask .four).toNat = 2 ^ 4 - 1 := rfl
    apply BitVec.eq_of_toNat_eq
    simp only [BitVec.toNat_and, BitVec.toNat_ofNat, hmask, Nat.and_two_pow_sub_one_eq_mod]
    omega
  rw [onLines, hlow, onLines]

/-- With `W = 4` the transfers of a byte are RS, its high nibble and its low nibble (20_memory.md R45). -/
theorem State.afterByte_four {s : State} (hw : s.width = .four) (kind : Kind) (v : Byte) :
    s.afterByte kind v = ((s.moved (s.pins.setLevel .rs (rsLevel kind)) [.set .rs (rsLevel kind)]).afterWrite
      (v.extractLsb' 4 4).toNat).afterWrite (v.extractLsb' 0 4).toNat := by
  have hhigh : (v.extractLsb' 4 4).toNat = v.toNat / 16 % 16 := by
    simp [BitVec.extractLsb'_toNat, Nat.shiftRight_eq_div_pow]
  have hlow : (v.extractLsb' 0 4).toNat = v.toNat % 16 := by simp [BitVec.extractLsb'_toNat]
  simp only [State.afterByte, State.afterWrite, State.moved_moved, State.moved_cfg, State.moved_width, State.moved_pins,
    hw, hhigh, hlow, onLines_mod, onLines_onLines, byteEvents, writeEvents_mod]
  rfl

/-- The two nibble frames of a byte, one after the other, are RS and its transfers (42_bus_transmitter.md R117). -/
theorem exec_nibbleFrames {s : State} (hd : Driven s) (hw : s.width = .four) (kind : Kind) (v : Byte) :
    ∃ a, exec (.byteHighNibble (rsLevel kind) (v.extractLsb' 4 4)) s = .next a ∧
      exec (.byteLowNibble (rsLevel kind) (v.extractLsb' 0 4)) a = .next (s.afterByte kind v) := by
  have hselected : Driven (s.moved (s.pins.setLevel .rs (rsLevel kind)) [.set .rs (rsLevel kind)]) :=
    hd.congr rfl rfl fun l => by simp
  refine ⟨_, execByteHighNibble_four hd hw _ _, ?_⟩
  rw [State.afterByte_four hw]
  exact emitNibble_four (hselected.afterWrite _) hw rfl _

/-- `BusyWait()` answered 0 at once, with nothing after it (43_busy_poller.md R130). -/
theorem exec_busyWait {s : State} (hd : Driven s) (hp : s.cfg.busyPoll = true) (ha : s.answerAt 0 = false) :
    exec .busyWait s = .next (s.afterBusyWait 0) := by
  have hwait := perform_busyWaitItems (rest := []) hd hp ha
  rw [List.append_nil] at hwait
  exact (if_pos hp).trans hwait

/-- Settles O13: the frames are RS and the byte's transfers, and `afterSend` puts the settle wait after these or the
poll before them. -/
theorem sendIsItsTwoNibbleFrames : Obligations.SendIsItsTwoNibbleFrames := by
  refine fun v kind s hd hw => ⟨fun hp => ?_, fun hp ha => ?_⟩
  · obtain ⟨a, hhigh, hlow⟩ := exec_nibbleFrames hd hw kind v
    have hsend := exec_send hd (fun hpoll => by simp [hp] at hpoll) kind v
    rw [State.afterSend, State.afterBusySend, if_neg (by simp [hp])] at hsend
    exact ⟨a, _, hhigh, hlow, hsend⟩
  · obtain ⟨a, hhigh, hlow⟩ := exec_nibbleFrames (hd.afterBusyWait 0) hw kind v
    have hquiet : Quiet 1 s := fun _ k hk => by rwa [Nat.lt_one_iff.mp hk]
    have hsend := exec_send hd hquiet kind v
    rw [State.afterSend, State.afterBusySend, if_pos hp] at hsend
    exact ⟨_, a, _, exec_busyWait hd hp ha, hhigh, hlow, hsend⟩

end Sys2Proof.Machine

-- The poller: a wait with busy answers, and one iteration (43_busy_poller.md R126 to R130).
namespace Sys2Proof.Machine

/-! ### BusyWait and one iteration of its loop -/

/-- Settles O14: each busy answer of the poll costs one step (`runs_busyWaitItems`), and nothing follows the wait. -/
theorem busyWaitRepeatsUntilReady : Obligations.BusyWaitRepeatsUntilReady := by
  intro k s hd hp hidle hreset hbusy hready
  have hruns := runs_busyWaitItems (rest := []) hd hp hidle hreset hbusy hready (Runs.zero (s.afterBusyWait k))
  rw [List.append_nil] at hruns
  obtain ⟨s1, hs1, hrun⟩ := hruns
  exact ⟨s1, (if_pos hp).trans hs1, hrun⟩

/-- Settles O22: where RS and RW stand as a poll sets them, the frame is the poll's iteration with the operand as its
answer. -/
theorem busyReadIsOneIteration : Obligations.BusyReadIsOneIteration := by
  intro b x s hp hrs hrw hen hmsb
  calc exec (.busyRead b x) s
      = (pollIteration b s).outcome := (if_pos hp).trans (if_pos ⟨hrs, hrw⟩)
    _ = .next (s.sampled b) := congrArg MicroResult.outcome (pollIteration_done hen hmsb)

end Sys2Proof.Machine

-- Without the poller no line is sampled (43_busy_poller.md R125).
namespace Sys2Proof.Machine

/-! ### Work without a poll -/

/-- Without `BUSY_POLL` no part of an operation polls. -/
theorem poll_not_mem_part {c : Config} (hp : c.busyPoll = false) (w : Width) (p : Part) : .poll ∉ p.items c w := by
  rw [← List.count_eq_zero, count_poll_part]
  cases p <;> simp [Part.polls, hp]

/-- Without `BUSY_POLL` no request has a poll in its work. -/
theorem Starts.poll_not_mem {i : Instr} {s s' : State} {items : List Micro} (h : Starts i s s' items)
    (hp : s.cfg.busyPoll = false) : .poll ∉ items := by
  cases h with
  | live =>
    simp only [List.mem_append, List.mem_singleton, reduceCtorEq, or_false, partsItems, List.mem_flatMap]
    rintro ⟨p, -, hmem⟩
    exact poll_not_mem_part hp _ p hmem
  | create =>
    rw [← List.count_eq_zero, count_poll_bringUp, hp]
    rfl
  | noDevice | destroy => exact List.not_mem_nil

/-- Without `BUSY_POLL` a frame or an internal procedure that is not refused performs items with no poll (log 26). -/
theorem frame_performs_without_poll {i : Instr} {s t : State} (hreq : Instr.isRequest i = false)
    (hp : s.cfg.busyPoll = false) (h : exec i s = .next t) : ∃ items, .poll ∉ items ∧ perform items s = .next t := by
  have part : ∀ w p, perform (Part.items s.cfg w p) s = .next t →
      ∃ items, .poll ∉ items ∧ perform items s = .next t := fun w p hpart => ⟨_, poll_not_mem_part hp w p, hpart⟩
  have nibble : ∀ rs v, emitNibble rs v s = .next t → ∃ items, .poll ∉ items ∧ perform items s = .next t := by
    intro rs v hn
    unfold emitNibble at hn
    split at hn
    · split at hn
      · exact part .four (.write _) hn
      · cases hn
    · cases hn
  cases i with
  | cmdClear | cmdHome | cmdEntryMode | cmdDisplayControl | cmdDisplayShift | cmdFunctionSet | cmdSetCgram
  | cmdSetDdram | dataWrite | send => exact part s.width (.send _ _) h
  | writeValue => exact part s.width (.write _) h
  | resetNibble3 | resetNibble2 | byteLowNibble => exact nibble _ _ h
  | byteHighNibble rs v =>
    simp only [exec, execByteHighNibble] at h
    split at h
    · have hwrite : .poll ∉ writeItems s.cfg .four v.toNat := poll_not_mem_part hp .four (.write v.toNat)
      exact ⟨_, by simpa using hwrite, h⟩
    · cases h
  | cmdResetByte8 =>
    simp only [exec, execCmdResetByte8] at h
    split at h
    · cases h
    · split at h
      · cases h
      · unfold danceByteItems at h
        split at h
        · exact part .eight (.send _ _) h
        · exact part .eight (.write _) h
  | busyWait | busyRead => simp [exec, execBusyWait, execBusyRead, hp] at h
  | _ => cases hreq

/-! ### Such work samples nothing -/

/-- Between the two states the trace has grown by events of which none is a `PinGet`, and no reset has been taken. -/
structure Unsampled (s t : State) : Prop where
  past  : t.past = s.past
  grows : ∃ es, t.trace = s.trace ++ es ∧ ∀ l a, .get l a ∉ es

theorem Unsampled.of_eq {s t : State} (hpast : t.past = s.past) (htrace : t.trace = s.trace) : Unsampled s t :=
  ⟨hpast, [], by rw [htrace, List.append_nil], fun _ _ => List.not_mem_nil⟩

theorem Unsampled.trans {s t u : State} (h : Unsampled s t) (k : Unsampled t u) : Unsampled s u := by
  obtain ⟨hpast, es, htrace, hes⟩ := h
  obtain ⟨kpast, fs, ktrace, kfs⟩ := k
  refine ⟨kpast.trans hpast, es ++ fs, by rw [ktrace, htrace, List.append_assoc], fun l a hmem => ?_⟩
  exact (List.mem_append.mp hmem).elim (hes l a) (kfs l a)

theorem Unsampled.get_not_mem {s t : State} (h : Unsampled s t) (l : Line) (a : Bool) : .get l a ∉ newEvents s t := by
  obtain ⟨-, es, htrace, hes⟩ := h
  rw [newEvents_of_trace htrace]
  exact hes l a

/-- Every item but the poll samples nothing. -/
theorem unsampled_effect {m : Micro} (hm : m ≠ .poll) (s : State) : Unsampled s (m.effect s) := by
  cases m with
  | poll => exact absurd rfl hm
  | pinSet l v => exact ⟨rfl, _, State.moved_trace _ _ _, by simp⟩
  | pinDir l d => exact ⟨rfl, _, State.moved_trace _ _ _, by simp⟩
  | wait t => exact ⟨rfl, _, State.record_trace _ _, by simp⟩
  | loadControl | loadMode | loadScratch | finish | awaitStream | issue => exact .of_eq rfl rfl

theorem unsampled_perform {items : List Micro} {s t : State} (h : perform items s = .next t) (hp : .poll ∉ items) :
    Unsampled s t := by
  induction items generalizing s with
  | nil => cases h; exact .of_eq rfl rfl
  | cons m rest ih =>
    have hm : m ≠ .poll := fun hm => hp (by simp [hm])
    obtain ⟨-, hrest⟩ | ⟨-, rfl⟩ := perform_cons_next h
    · exact (unsampled_effect hm s).trans (ih hrest fun hmem => hp (List.mem_cons_of_mem m hmem))
    · have hstayed : m.stayed s = s := by
        cases m with
        | poll => exact absurd rfl hm
        | _ => rfl
      rw [hstayed]
      exact .of_eq rfl rfl

/-- Nor does such work leave a poll behind. -/
theorem poll_not_mem_perform {items : List Micro} {s t : State} (h : perform items s = .next t) (hp : .poll ∉ items)
    (hs : .poll ∉ s.seq) : .poll ∉ t.seq := by
  obtain ⟨-, rest, hr, hseq⟩ := perform_kept h
  rw [hseq, List.mem_append]
  exact fun hmem => hmem.elim (fun hrest => hp (hr.subset hrest)) hs

/-- Without `BUSY_POLL` an instruction samples nothing and leaves no poll (43_busy_poller.md R125). -/
theorem exec_unsampled {i : Instr} {s t : State} (hp : s.cfg.busyPoll = false) (h : exec i s = .next t) :
    Unsampled s t ∧ (.poll ∉ s.seq → .poll ∉ t.seq) := by
  cases hreq : Instr.isRequest i with
  | false =>
    obtain ⟨items, hitems, hperform⟩ := frame_performs_without_poll hreq hp h
    exact ⟨unsampled_perform hperform hitems, poll_not_mem_perform hperform hitems⟩
  | true =>
    obtain ⟨s', items, hstart, hperform⟩ := starts_of_exec_next hreq h
    have hitems := hstart.poll_not_mem hp
    have hpast : s'.past = s.past := by cases hstart <;> rfl
    refine ⟨(Unsampled.of_eq hpast hstart.begins_trace).trans (unsampled_perform hperform hitems), fun _ => ?_⟩
    exact poll_not_mem_perform hperform hitems (hstart.begins_seq ▸ List.not_mem_nil)

/-- Nor does a step without a reset. -/
theorem advance_unsampled {s t : State} (hp : s.cfg.busyPoll = false) (hs : .poll ∉ s.seq) (h : advance s = .next t) :
    Unsampled s t ∧ .poll ∉ t.seq := by
  obtain ⟨i, rest, hseq, he⟩ | ⟨m, rest, -, he⟩ |
    ⟨-, ⟨-, he⟩ | ⟨i, more, -, he⟩ | ⟨given, more, he⟩ | ⟨more, he⟩⟩ := advance_cases s
  all_goals rw [he] at h
  · obtain ⟨hu, hpoll⟩ := exec_unsampled (s := { s with seq := rest }) hp h
    exact ⟨⟨hu.past, hu.grows⟩, hpoll fun hmem => hs (hseq ▸ List.mem_cons_of_mem _ hmem)⟩
  · obtain ⟨hpast, hgrows⟩ := unsampled_perform h hs
    exact ⟨⟨hpast, hgrows⟩, poll_not_mem_perform h hs List.not_mem_nil⟩
  · cases h
    exact ⟨.of_eq rfl rfl, hs⟩
  · obtain ⟨hu, hpoll⟩ := exec_unsampled (s := { s with port := more }) hp h
    exact ⟨⟨hu.past, hu.grows⟩, hpoll hs⟩
  · cases h
    rw [createOther_eq]
    exact ⟨.of_eq rfl rfl, hs⟩
  · cases h
    exact ⟨.of_eq rfl rfl, hs⟩

/-! ### A step, with or without a reset -/

/-- All events performed so far, those before a reset among them, gain no `PinGet`. -/
theorem Unsampled.count_get {s t : State} (h : Unsampled s t) (l : Line) (a : Bool) :
    (t.trace :: t.past).flatten.count (.get l a) = (s.trace :: s.past).flatten.count (.get l a) := by
  obtain ⟨hpast, es, htrace, hes⟩ := h
  simp [hpast, htrace, List.count_eq_zero.mpr (hes l a)]

/-- A reset puts the trace aside and loses no event of it (log 16). -/
theorem count_hardwareReset (s : State) (later : List Nat) (e : Event) :
    ((s.hardwareReset later).trace :: (s.hardwareReset later).past).flatten.count e
      = (s.trace :: s.past).flatten.count e := by simp

/-- A step broken off samples no more than the whole step does. -/
theorem Unsampled.cutAfter {s t : State} (h : Unsampled s t) (n : Nat) : Unsampled s (s.cutAfter t n) :=
  ⟨h.past, _, State.cutAfter_trace s t n, fun l a hmem => h.get_not_mem l a (List.mem_of_mem_take hmem)⟩

/-- What a step without a poll does to the trace and the traces before it. -/
def NoGetAdded (s t : State) : Prop :=
  ∀ l a, .get l a ∉ newEvents s t ∧
    (t.trace :: t.past).flatten.count (.get l a) = (s.trace :: s.past).flatten.count (.get l a)

theorem Unsampled.noGetAdded {s t : State} (h : Unsampled s t) : NoGetAdded s t :=
  fun l a => ⟨h.get_not_mem l a, h.count_get l a⟩

theorem Unsampled.noGetAdded_reset {s t : State} (h : Unsampled s t) (later : List Nat) :
    NoGetAdded s (t.hardwareReset later) :=
  fun l a => ⟨by simp [newEvents], (count_hardwareReset t later _).trans (h.count_get l a)⟩

/-- Settles O15: the work of every instruction is without a poll, and a reset adds no event. -/
theorem noPollerNoPinGet : Obligations.NoPollerNoPinGet := by
  intro s hp
  refine ⟨if_neg (by simp [hp]), fun b x => if_neg (by simp [hp]), fun i t l a h => ?_, fun t hs h => ?_⟩
  · exact (exec_unsampled hp h).1.get_not_mem l a
  · obtain ⟨-, hstep⟩ := onlyLifecycleChangesWidthAndLive
    obtain ⟨hcfg, -⟩ := hstep s t h
    rw [hcfg]
    obtain ⟨-, ha⟩ | ⟨later, -, rfl⟩ | ⟨n, later, u, -, ha, ⟨-, rfl⟩ | ⟨-, rfl⟩⟩ := step_cases h
    · obtain ⟨hu, hpoll⟩ := advance_unsampled hp hs ha
      exact ⟨hp, hpoll, hu.noGetAdded⟩
    · exact ⟨hp, List.not_mem_nil, (Unsampled.of_eq rfl rfl).noGetAdded_reset later⟩
    · obtain ⟨hu, hpoll⟩ := advance_unsampled hp hs ha
      exact ⟨hp, hpoll, hu.noGetAdded⟩
    · obtain ⟨hu, -⟩ := advance_unsampled hp hs ha
      exact ⟨hp, List.not_mem_nil, (hu.cutAfter (n + 1)).noGetAdded_reset later⟩

end Sys2Proof.Machine

-- A controller that answers 1 for ever (43_busy_poller.md R129; 70_reset_and_hazards.md R206).
namespace Sys2Proof.Machine

/-! ### Requests on a ready device start -/

/-- A request on a ready device is not refused, a GOTO when its address fits (30_encoding.md R62, R63;
45_codec_address.md R151). -/
theorem exec_ready {i : Instr} {s : State} (h : Ready s) (hneeds : Instr.needsLive i = true)
    (hgoto : ∀ line col, i = .goto line col → Instr.wellFormed i = true) : exec i s
      = perform (partsItems s.cfg s.width (Instr.parts s i) ++ [.finish .ok]) { s with status := none } := by
  cases i with
  | goto line col =>
    have hrange : gotoInRange line col = true := hgoto line col rfl
    simp [exec, execGoto, acceptLive_ready h, hrange, Instr.parts, Part.items]
  | clear | home =>
    simp [exec, execClear, execHome, operate_ready h, Instr.parts, Part.items, clearItems, homeItems]
  | display | cursor | blink | direction | autoscroll =>
    simp [exec, execDisplay, execCursor, execBlink, execDirection, execAutoscroll, operate_ready h, Instr.parts,
      Part.items, mergeControl, storeControlItems, mergeMode, storeModeItems]
  | scroll | putc => simp [exec, execScroll, execPutc, operate_ready h, Instr.parts, Part.items]
  | defchar idx stream =>
    by_cases hshort : stream.length < 8 <;>
      simp [exec, execDefchar, operate_ready h, Instr.parts, Part.items, partsItems_sends, missingBitmapItems, hshort]
  | puts stream =>
    cases hterm : terminated stream <;>
      simp [exec, execPuts, operate_ready h, Instr.parts, Part.items, partsItems_sends, missingTerminatorItems, hterm]
  | puti n =>
    cases hneg : n.msb <;>
      simp [exec, execPuti, operate_ready h, Instr.parts, Part.items, partsItems_sends, putiItems, hneg]
  | _ => cases hneeds

/-! ### A poll before the status -/

/-- The work has a poll to do before it reports the status. -/
def pollsBeforeStatus : List Micro → Bool
  | [] => false
  | .poll :: _ => true
  | .finish _ :: _ => false
  | _ :: rest => pollsBeforeStatus rest

/-- Work with a poll and no status in it polls before whatever status follows. -/
theorem pollsBeforeStatus_append {work rest : List Micro} (hpoll : .poll ∈ work)
    (hfinish : ∀ st, .finish st ∉ work) : pollsBeforeStatus (work ++ rest) = true := by
  induction work with
  | nil => cases hpoll
  | cons m work ih =>
    have hwork : m ≠ .poll → pollsBeforeStatus (work ++ rest) = true := fun hm =>
      ih (List.mem_of_ne_of_mem (Ne.symm hm) hpoll) fun st hmem => hfinish st (List.mem_cons_of_mem m hmem)
    cases m with
    | poll => rfl
    | finish st => exact absurd List.mem_cons_self (hfinish st)
    | pinSet | pinDir | wait | loadControl | loadMode | loadScratch | awaitStream | issue => exact hwork (by simp)

/-- PUTI prints at least one digit (46_codec_print.md R168). -/
theorem digitLoop_k_pos (fuel : Nat) (p : Scratch) : 0 < (digitLoop (fuel + 1) p).k := by
  induction fuel generalizing p with
  | zero =>
    rw [digitLoop]
    split <;> exact Nat.succ_pos p.k
  | succ fuel ih =>
    rw [digitLoop]
    split
    · exact Nat.succ_pos p.k
    · exact ih (digitStep p)

/-- A request that polls has a `Send` among its parts (43_busy_poller.md R131). -/
theorem send_mem_parts {i : Instr} (s : State) (hneeds : Instr.needsLive i = true)
    (hpolls : 0 < requestPolls s.cfg i) : ∃ kind v, .send kind v ∈ Instr.parts s i := by
  cases i with
  | clear | home | goto | scroll | putc | defchar => exact ⟨_, _, List.mem_cons_self⟩
  | display | cursor | blink | direction | autoscroll => exact ⟨_, _, List.mem_cons_of_mem _ List.mem_cons_self⟩
  | puts stream =>
    obtain ⟨v, hv⟩ := List.exists_mem_of_length_pos hpolls
    exact ⟨.data, v, by simp [Instr.parts, hv]⟩
  | puti n =>
    have hdigits : 0 < (digitChars (convert (magnitude n) s.scratch)).length := by
      rw [digitChars, List.length_map, List.length_range]
      exact digitLoop_k_pos 9 _
    obtain ⟨v, hv⟩ := List.exists_mem_of_length_pos hdigits
    exact ⟨.data, v, by simp [Instr.parts, hv]⟩
  | _ => cases hneeds

/-- With `BUSY_POLL` every `Send` polls. -/
theorem poll_mem_send {c : Config} (hp : c.busyPoll = true) (w : Width) (kind : Kind) (v : Byte) :
    .poll ∈ sendItems c w kind v := by simp [sendItems, busyWaitItems, hp]

/-- No part of an operation reports a status. -/
theorem finish_not_mem_parts (c : Config) (w : Width) (ps : List Part) (st : Status) :
    .finish st ∉ partsItems c w ps := by
  rw [partsItems, List.mem_flatMap]
  rintro ⟨p, -, hmem⟩
  exact finish_not_mem_part c w p st hmem

/-- A request that polls has its first poll before its status (30_encoding.md R62). -/
theorem Starts.polls {i : Instr} {s s' : State} {items : List Micro} (h : Starts i s s' items)
    (hp : s.cfg.busyPoll = true) (hpolls : 0 < requestPolls s.cfg i) (hlive : s'.live = true) :
    pollsBeforeStatus items = true := by
  cases h with
  | live hneeds =>
    obtain ⟨kind, v, hsend⟩ := send_mem_parts s hneeds hpolls
    exact pollsBeforeStatus_append (List.mem_flatMap.mpr ⟨_, hsend, poll_mem_send hp _ kind v⟩)
      (finish_not_mem_parts _ _ _)
  | @create config =>
    refine pollsBeforeStatus_append ?_ fun st => ?_
    · simp [initItems_eq_parts, setupParts, Part.items, poll_mem_send hp]
    · simp [initItems_eq_parts, configurePinsItems, hp, finish_not_mem_parts]
  | noDevice _ hfree => exact absurd (hlive.symm.trans hfree) (by decide)
  | destroy => cases hlive

/-! ### Work in progress while the answers are 1 -/

/-- The next `n` answers are 1. -/
def AnswersBusy (n : Nat) (s : State) : Prop := ∀ k < n, s.answerAt k = true

@[simp] theorem Micro.stayed_seq (m : Micro) (s : State) : (m.stayed s).seq = s.seq := by cases m <;> rfl

@[simp] theorem Micro.stayed_status (m : Micro) (s : State) : (m.stayed s).status = s.status := by cases m <;> rfl

/-- An item that ends a step takes at most one answer. -/
theorem Micro.stayed_busy {n : Nat} (m : Micro) {s : State} (h : AnswersBusy (n + 1) s) :
    AnswersBusy n (m.stayed s) := by
  cases m with
  | poll =>
    intro k hk
    have hanswer : (s.takeAnswers 1).answerAt k = s.answerAt (1 + k) := State.takeAnswers_answerAt s 1 k
    exact hanswer.trans (h (1 + k) (by omega))
  | _ => exact fun k hk => h k (by omega)

/-- Work that polls before its status is not done after a step whose next answer is 1: the poll is still to do and the
status is as it was (43_busy_poller.md R129). -/
theorem perform_stuck {n : Nat} {items : List Micro} {s t : State} (h : perform items s = .next t) (hs : s.seq = [])
    (hpolls : pollsBeforeStatus items = true) (hbusy : AnswersBusy (n + 1) s) :
    pollsBeforeStatus t.seq = true ∧ t.status = s.status ∧ AnswersBusy n t := by
  induction items generalizing s with
  | nil => cases hpolls
  | cons m rest ih =>
    obtain ⟨hstays, hrest⟩ | ⟨-, rfl⟩ := perform_cons_next h
    · cases m with
      | poll => exact absurd (hstays.symm.trans (hbusy 0 (Nat.succ_pos n))) (by decide)
      | finish => cases hpolls
      | _ =>
        have hrest' := ih hrest hs hpolls hbusy
        exact hrest'
    · exact ⟨by simpa [hs] using hpolls, by simp, m.stayed_busy hbusy⟩

/-- An operation that waits for the controller, whose next `n` answers are 1. -/
structure Stuck (n : Nat) (s : State) : Prop where
  contract : Contract s s.seq
  polls    : pollsBeforeStatus s.seq = true
  status   : s.status = none
  resets   : s.resets = []
  busy     : AnswersBusy n s

theorem Stuck.step {n : Nat} {s : State} (h : Stuck (n + 1) s) : ∃ t, step s = .next t ∧ Stuck n t := by
  obtain ⟨hcontract, hpolls, hstatus, hresets, hbusy⟩ := h
  cases hseq : s.seq with
  | nil => simp [hseq, pollsBeforeStatus] at hpolls
  | cons m rest =>
    rw [hseq] at hcontract hpolls
    have hissue : ∀ i, m ≠ .issue i := by
      rintro i rfl
      simpa [contractItems] using hcontract.kept
    obtain ⟨t, ht, hct⟩ := (hcontract.congr (t := { s with seq := [] }) rfl rfl fun _ => rfl).perform rfl
    obtain ⟨hp, hst, hb⟩ := perform_stuck ht rfl hpolls hbusy
    exact ⟨t, (step_working hresets hseq hissue).trans ht, hct, hp, hst.trans hstatus,
      (perform_kept ht).1.resets.trans hresets, hb⟩

theorem Stuck.run {n : Nat} {s : State} (h : Stuck n s) : ∃ t, Sys2Proof.core.run n s = .next t ∧ Stuck 0 t := by
  induction n generalizing s with
  | zero => exact ⟨s, rfl, h⟩
  | succ n ih =>
    obtain ⟨u, hu, hstuck⟩ := h.step
    obtain ⟨t, ht, hstuck'⟩ := ih hstuck
    exact ⟨t, (run_succ hu n).trans ht, hstuck'⟩

theorem Starts.stuck {i : Instr} {s s' : State} {items : List Micro} {n : Nat} (h : Starts i s s' items)
    (hd : s.live = true → Driven s) (hlive : s'.live = true) (hp : s.cfg.busyPoll = true) (hresets : s.resets = [])
    (hpolls : 0 < requestPolls s.cfg i) (hbusy : AnswersBusy (n + 1) s) :
    ∃ t, perform items s' = .next t ∧ Stuck n t := by
  have hstatus : s'.status = none := by
    cases h with
    | live | create => rfl
    | noDevice _ hfree => exact absurd (hlive.symm.trans hfree) (by decide)
    | destroy => cases hlive
  have hbusy' : AnswersBusy (n + 1) s' := by cases h <;> exact hbusy
  obtain ⟨t, ht, hcontract⟩ := h.contract hd
  obtain ⟨hk, -⟩ := perform_kept ht
  obtain ⟨hpolls', hst, hb⟩ := perform_stuck ht h.begins_seq (h.polls hp hpolls hlive) hbusy'
  exact ⟨t, ht, hcontract (hk.live.trans hlive), hpolls', hst.trans hstatus,
    hk.resets.trans (h.begins_resets.trans hresets), hb⟩

/-- Settles O16: the work of the request polls before its status, and each busy answer leaves that so. -/
theorem stuckControllerHangs : Obligations.StuckControllerHangs := by
  intro i s n hp hresets hbusy hpolls hstart
  have hbusy' : AnswersBusy (n + 1) s := fun k hk => hbusy k (Nat.lt_succ_iff.mp hk)
  have hstuck : ∃ s1, exec i s = .next s1 ∧ Stuck n s1 := by
    obtain ⟨hready, hneeds, hgoto⟩ | ⟨hfree, hidle, hslot, hformed, config, rfl⟩ := hstart
    · rw [exec_ready hready hneeds hgoto]
      exact (Starts.live hneeds hready.idle hready.live).stuck (fun _ => hready.driven) hready.live hp hresets hpolls
        hbusy'
    · have hslot' := slotFree_of_lt hfree hslot
      rw [exec_create hidle hfree hformed hslot']
      exact (Starts.create hidle hfree hformed hslot').stuck (fun hl => absurd (hl.symm.trans hfree) (by decide)) rfl hp
        hresets hpolls hbusy'
  obtain ⟨s1, h1, hs1⟩ := hstuck
  obtain ⟨t, ht, hdone⟩ := hs1.run
  refine ⟨s1, t, h1, ht, fun hidle => ?_, hdone.status⟩
  simpa [hidle, pollsBeforeStatus] using hdone.polls

end Sys2Proof.Machine

-- The slow commands and the register merges (44_codec_commands.md R136 to R145).
namespace Sys2Proof.Machine

/-! ### A quiet request on a ready device -/

/-- A request on a ready device whose polls are answered 0 and that misses no stream byte: its parts, one after the
other, and the status `OK` (30_encoding.md R62). -/
theorem exec_ready_quiet {i : Instr} {n : Nat} {s : State} (h : Ready s) (hneeds : Instr.needsLive i = true)
    (hgoto : ∀ line col, i = .goto line col → Instr.wellFormed i = true) (hstarve : .starve ∉ Instr.parts s i)
    (hq : Quiet n s) (hn : (partsItems s.cfg s.width (Instr.parts s i)).count .poll ≤ n) :
    exec i s = .next (((Instr.parts s i).foldl Part.effect s).completed .ok) := by
  have hquiet : Quiet ((partsItems s.cfg s.width (Instr.parts s i)).count .poll) (s.withStatus none) :=
    (hq.mono hn).congr rfl rfl rfl
  have heffect : (Instr.parts s i).foldl Part.effect (s.withStatus none)
      = ((Instr.parts s i).foldl Part.effect s).withStatus none :=
    List.foldl_hom (State.withStatus none) (Part.effect_withStatus none)
  rw [exec_ready h hneeds hgoto]
  refine (perform_parts (s := s.withStatus none) h.driven hquiet hstarve).trans ?_
  rw [heffect, perform_finish]
  rfl

theorem Part.polls_le_one (c : Config) (p : Part) : p.polls c ≤ 1 := by
  cases p with
  | send => rw [Part.polls]; split <;> decide
  | _ => exact Nat.zero_le 1

/-- The slow commands and the merging commands (44_codec_commands.md). -/
def Instr.isCodecCommand : Instr → Bool
  | .clear | .home | .display _ | .cursor _ | .blink _ | .direction _ | .autoscroll _ => true
  | _ => false

/-- A slow or a merging command sends one byte, so one answer 0 lets it complete (43_busy_poller.md R131). -/
theorem exec_codecCommand {i : Instr} {s : State} (hi : Instr.isCodecCommand i = true) (h : Ready s)
    (hq : Quiet 1 s) : exec i s = .next (((Instr.parts s i).foldl Part.effect s).completed .ok) := by
  cases i with
  | clear | home | display | cursor | blink | direction | autoscroll =>
    refine exec_ready_quiet h ?_ (by simp) (by simp [Instr.parts]) hq ?_
    · rfl
    · simpa [Instr.parts, count_poll_part, Part.polls] using Part.polls_le_one s.cfg (.send .command 0)
  | _ => cases hi

/-- Settles O23: each is one command `Send` and the wait. -/
theorem clearAndHomeSendThenSettle : Obligations.ClearAndHomeSendThenSettle :=
  fun _ hready hquiet => ⟨exec_codecCommand rfl hready hquiet, exec_codecCommand rfl hready hquiet⟩

/-! ### The merges -/

/-- A merge of the flag at bit `k` replaces that bit (44_codec_commands.md R139). -/
theorem mergeFlag_eq_setBit (r : Byte) (k : Nat) (f : Bool) : mergeFlag r (1#8 <<< k) f = setBit r k f := by
  cases f with
  | false => simp [mergeFlag, setBit]
  | true =>
    apply BitVec.eq_of_getLsbD_eq
    intro j hj
    simp only [mergeFlag, setBit, if_true, BitVec.getLsbD_or, BitVec.getLsbD_and, BitVec.getLsbD_not, hj]
    cases (1#8 <<< k).getLsbD j <;> simp

section FlagParts
variable (s : State) (f : Bool)

/-! The bits are those of 10_state.md R14 and R15 (log 11). -/

theorem parts_display : Instr.parts s (.display f)
    = [.storeControl (setBit s.control 2 f), .send .command (setBit s.control 2 f)] := by
  rw [← mergeFlag_eq_setBit]; rfl

theorem parts_cursor : Instr.parts s (.cursor f)
    = [.storeControl (setBit s.control 1 f), .send .command (setBit s.control 1 f)] := by
  rw [← mergeFlag_eq_setBit]; rfl

theorem parts_blink : Instr.parts s (.blink f)
    = [.storeControl (setBit s.control 0 f), .send .command (setBit s.control 0 f)] := by
  rw [← mergeFlag_eq_setBit]; rfl

theorem parts_direction : Instr.parts s (.direction f)
    = [.storeMode (setBit s.mode 1 f), .send .command (setBit s.mode 1 f)] := by
  rw [← mergeFlag_eq_setBit]; rfl

theorem parts_autoscroll : Instr.parts s (.autoscroll f)
    = [.storeMode (setBit s.mode 0 f), .send .command (setBit s.mode 0 f)] := by
  rw [← mergeFlag_eq_setBit]; rfl

end FlagParts

/-- Settles O24: the parts are the store of the merged register and its `Send`, and the merge replaces one bit. -/
theorem controlFlagIsMergedStoredAndSent : Obligations.ControlFlagIsMergedStoredAndSent := by
  intro f s hready hquiet
  have hexec := fun i (hi : Instr.isCodecCommand i = true) => exec_codecCommand hi hready hquiet
  refine ⟨?_, ?_, ?_⟩
  · rw [hexec _ rfl, parts_display]; rfl
  · rw [hexec _ rfl, parts_cursor]; rfl
  · rw [hexec _ rfl, parts_blink]; rfl

/-- Settles O25: the same for `mode`. -/
theorem modeFlagIsMergedStoredAndSent : Obligations.ModeFlagIsMergedStoredAndSent := by
  intro f s hready hquiet
  have hexec := fun i (hi : Instr.isCodecCommand i = true) => exec_codecCommand hi hready hquiet
  constructor
  · rw [hexec _ rfl, parts_direction]; rfl
  · rw [hexec _ rfl, parts_autoscroll]; rfl

end Sys2Proof.Machine

-- What changes the registers (44_codec_commands.md R145).
namespace Sys2Proof.Machine

/-! ### Work without a store into a register -/

/-- Items that store nothing into `control` leave it, also when the step ends among them. -/
theorem control_of_perform {items : List Micro} {s t : State} (h : perform items s = .next t)
    (hstore : ∀ v, .loadControl v ∉ items) : t.control = s.control :=
  perform_keeps (P := fun u => u.control = s.control)
    ⟨fun _ _ _ hu => hu, fun _ _ _ hu => hu, fun _ _ hu => hu⟩ h rfl (fun _ _ hu => hu)
    (fun v hv => absurd hv (hstore v)) (fun _ _ _ hu => hu) (fun _ _ _ hu => hu) (fun _ _ _ hu => hu)

/-- Items that store nothing into `mode` leave it. -/
theorem mode_of_perform {items : List Micro} {s t : State} (h : perform items s = .next t)
    (hstore : ∀ v, .loadMode v ∉ items) : t.mode = s.mode :=
  perform_keeps (P := fun u => u.mode = s.mode)
    ⟨fun _ _ _ hu => hu, fun _ _ _ hu => hu, fun _ _ hu => hu⟩ h rfl (fun _ _ hu => hu) (fun _ _ _ hu => hu)
    (fun v hv => absurd hv (hstore v)) (fun _ _ _ hu => hu) (fun _ _ _ hu => hu)

/-- An item that drives or samples lines or waits, and stores nothing. -/
def Micro.onBus : Micro → Bool
  | .pinSet _ _ | .pinDir _ _ | .wait _ | .poll => true
  | _ => false

section OnBus
variable (c : Config) (w : Width)

theorem all_onBus_write (v : Nat) : (writeItems c w v).all Micro.onBus = true := by
  simp [writeItems, Micro.onBus]

theorem all_onBus_busyWait : (busyWaitItems w).all Micro.onBus = true := rfl

theorem all_onBus_send (kind : Kind) (v : Byte) : (sendItems c w kind v).all Micro.onBus = true := by
  have hbyte : (byteItems c w v).all Micro.onBus = true := by
    cases w <;> simp [byteItems, all_onBus_write, -List.all_eq_true]
  cases hb : c.busyPoll <;>
    simp [sendItems, hb, hbyte, all_onBus_busyWait, Micro.onBus, -List.all_eq_true]

end OnBus

/-- Bus work changes neither register. -/
theorem registers_of_perform_onBus {items : List Micro} {s t : State} (h : perform items s = .next t)
    (hbus : items.all Micro.onBus = true) : t.control = s.control ∧ t.mode = s.mode := by
  have hmem := List.all_eq_true.mp hbus
  exact ⟨control_of_perform h fun v hv => absurd (hmem _ hv) (by simp [Micro.onBus]),
    mode_of_perform h fun v hv => absurd (hmem _ hv) (by simp [Micro.onBus])⟩

/-! ### Frames and internal procedures -/

/-- A frame or an internal procedure that is not refused does bus work, or is the sample of `busy.read`. -/
theorem frame_onBus {i : Instr} {s t : State} (hreq : Instr.isRequest i = false) (h : exec i s = .next t) :
    (∃ items, items.all Micro.onBus = true ∧ perform items s = .next t) ∨ ∃ b, t = s.sampled b := by
  have nibble : ∀ rs v, emitNibble rs v s = .next t → ∃ items, items.all Micro.onBus = true ∧
      perform items s = .next t := by
    intro rs v hn
    unfold emitNibble at hn
    split at hn
    · split at hn
      · exact ⟨_, all_onBus_write _ _ _, hn⟩
      · cases hn
    · cases hn
  cases i with
  | cmdClear | cmdHome | cmdEntryMode | cmdDisplayControl | cmdDisplayShift | cmdFunctionSet | cmdSetCgram
  | cmdSetDdram | dataWrite | send => exact .inl ⟨_, all_onBus_send _ _ _ _, h⟩
  | writeValue => exact .inl ⟨_, all_onBus_write _ _ _, h⟩
  | resetNibble3 | resetNibble2 | byteLowNibble => exact .inl (nibble _ _ h)
  | byteHighNibble rs v =>
    simp only [exec, execByteHighNibble] at h
    split at h
    · exact .inl ⟨.pinSet .rs rs :: writeItems s.cfg .four v.toNat, all_onBus_write _ _ _, h⟩
    · cases h
  | cmdResetByte8 =>
    simp only [exec, execCmdResetByte8] at h
    split at h
    · cases h
    · split at h
      · cases h
      · unfold danceByteItems at h
        split at h
        · exact .inl ⟨_, all_onBus_send _ _ _ _, h⟩
        · exact .inl ⟨_, all_onBus_write _ _ _, h⟩
  | busyWait =>
    simp only [exec, execBusyWait] at h
    split at h
    · exact .inl ⟨_, all_onBus_busyWait _, h⟩
    · cases h
  | busyRead b =>
    simp only [exec, execBusyRead] at h
    split at h
    · split at h
      · obtain hp | ⟨r, hp⟩ := pollIteration_cases b s <;> rw [hp] at h <;> cases h
        exact .inr ⟨b, rfl⟩
      · cases h
    · cases h
  | _ => cases hreq

/-- Frames and internal procedures change no register (44_codec_commands.md R145). -/
theorem frame_registers {i : Instr} {s t : State} (hreq : Instr.isRequest i = false) (h : exec i s = .next t) :
    t.control = s.control ∧ t.mode = s.mode := by
  obtain ⟨items, hbus, hp⟩ | ⟨b, rfl⟩ := frame_onBus hreq h
  · exact registers_of_perform_onBus hp hbus
  · exact ⟨rfl, rfl⟩

/-! ### Requests -/

/-- The part of an operation that an item off the bus is. -/
def Micro.offBusPart : Micro → Option Part
  | .loadControl v => some (.storeControl v)
  | .loadMode v => some (.storeMode v)
  | .loadScratch p => some (.storeScratch p)
  | .awaitStream => some .starve
  | _ => none

/-- Such an item stands among the items of parts only for its own part. -/
theorem part_mem_of_item_mem {c : Config} {w : Width} {ps : List Part} {m : Micro} {p : Part}
    (hm : m.offBusPart = some p) (hmem : m ∈ partsItems c w ps) : p ∈ ps := by
  obtain ⟨q, hq, hmq⟩ := List.mem_flatMap.mp hmem
  have hoff : m.onBus = false := by
    cases m with
    | loadControl | loadMode | loadScratch | awaitStream => rfl
    | _ => cases hm
  have hbus : ∀ {items : List Micro}, items.all Micro.onBus = true → m ∉ items := fun hall hin =>
    absurd (hoff.symm.trans (List.all_eq_true.mp hall m hin)) (by decide)
  suffices q = p from this ▸ hq
  cases q with
  | send kind v => exact absurd hmq (hbus (all_onBus_send c w kind v))
  | write v => exact absurd hmq (hbus (all_onBus_write c w v))
  | wait t => exact absurd hmq (hbus rfl)
  | storeControl | storeMode | storeScratch | starve =>
    cases List.mem_singleton.mp hmq
    exact Option.some.inj hm

namespace Starts
variable {i : Instr} {s s' : State} {items : List Micro} (h : Starts i s s' items)
include h

theorem begins_control : s'.control = s.control := by cases h <;> rfl
theorem begins_mode : s'.mode = s.mode := by cases h <;> rfl

/-- What a request other than CREATE does off the bus is among its parts. -/
theorem part_mem_of_item_mem (hcreate : ∀ c x y, i ≠ .create c x y) {m : Micro} {p : Part}
    (hm : m.offBusPart = some p) (hmem : m ∈ items) : p ∈ Instr.parts s i := by
  cases h with
  | live =>
    obtain hmem | hmem := List.mem_append.mp hmem
    · exact Machine.part_mem_of_item_mem hm hmem
    · cases List.mem_singleton.mp hmem
      cases hm
  | create => exact absurd rfl (hcreate _ _ _)
  | noDevice | destroy => cases hmem

end Starts

/-- The parts of a request that store into `control` or `mode` are those of the merges. -/
theorem store_mem_parts {i : Instr} {s : State} {v : Byte} :
    (.storeControl v ∈ Instr.parts s i →
      (∃ f, i = .display f) ∨ (∃ f, i = .cursor f) ∨ ∃ f, i = .blink f) ∧
    (.storeMode v ∈ Instr.parts s i → (∃ f, i = .direction f) ∨ ∃ f, i = .autoscroll f) := by
  cases i with
  | display | cursor | blink => simp [Instr.parts]
  | direction | autoscroll => simp [Instr.parts]
  | _ => simp [Instr.parts]

/-- An instruction that is not CREATE and has no part that stores into a register leaves it. -/
theorem exec_registers {i : Instr} {s t : State} (h : exec i s = .next t) (hcreate : ∀ c x y, i ≠ .create c x y) :
    ((∀ v, .storeControl v ∉ Instr.parts s i) → t.control = s.control) ∧
    ((∀ v, .storeMode v ∉ Instr.parts s i) → t.mode = s.mode) := by
  cases hreq : Instr.isRequest i with
  | false =>
    obtain ⟨hcontrol, hmode⟩ := frame_registers hreq h
    exact ⟨fun _ => hcontrol, fun _ => hmode⟩
  | true =>
    obtain ⟨s', items, hstart, hp⟩ := starts_of_exec_next hreq h
    refine ⟨fun hstore => ?_, fun hstore => ?_⟩
    · exact (control_of_perform hp fun v hv => hstore v (hstart.part_mem_of_item_mem hcreate rfl hv)).trans
        hstart.begins_control
    · exact (mode_of_perform hp fun v hv => hstore v (hstart.part_mem_of_item_mem hcreate rfl hv)).trans
        hstart.begins_mode

/-- Settles O27: only the merges have a part that stores into a register. -/
theorem onlyMergesAndCreateChangeTheRegisters : Obligations.OnlyMergesAndCreateChangeTheRegisters := by
  intro i s t h
  refine ⟨fun hcreate hdisplay hcursor hblink => ?_, fun hcreate hdirection hautoscroll => ?_⟩
  · refine (exec_registers h hcreate).1 fun v hv => ?_
    obtain ⟨f, hi⟩ | ⟨f, hi⟩ | ⟨f, hi⟩ := store_mem_parts.1 hv
    exacts [hdisplay f hi, hcursor f hi, hblink f hi]
  · refine (exec_registers h hcreate).2 fun v hv => ?_
    obtain ⟨f, hi⟩ | ⟨f, hi⟩ := store_mem_parts.2 hv
    exacts [hdirection f hi, hautoscroll f hi]

/-! ### A merge, whatever is answered -/

theorem isRequest_of_needsLive {i : Instr} (h : Instr.needsLive i = true) : Instr.isRequest i = true := by
  unfold Instr.needsLive at h
  split at h
  · cases h
  · cases h
  · cases h
  · exact h

/-- A live-only request that is not refused performs the work of its parts (30_encoding.md R63). -/
theorem perform_parts_of_exec_next {i : Instr} {s t : State} (hneeds : Instr.needsLive i = true)
    (h : exec i s = .next t) :
    perform (partsItems s.cfg s.width (Instr.parts s i) ++ [.finish .ok]) (s.withStatus none) = .next t := by
  obtain ⟨s', items, hstart, hp⟩ := starts_of_exec_next (isRequest_of_needsLive hneeds) h
  cases hstart with
  | live => exact hp
  | create | noDevice | destroy => cases hneeds

/-- After its store a merge stores into no register. -/
theorem registers_of_perform_send {c : Config} {w : Width} {kind : Kind} {v : Byte} {s t : State}
    (h : perform (partsItems c w [.send kind v] ++ [.finish .ok]) s = .next t) :
    t.control = s.control ∧ t.mode = s.mode := by
  refine ⟨control_of_perform h fun u hu => ?_, mode_of_perform h fun u hu => ?_⟩
  all_goals
    obtain hu | hu := List.mem_append.mp hu
    · simpa using part_mem_of_item_mem rfl hu
    · simp at hu

section Merge
variable {i : Instr} {s t : State} {k : Nat} {f : Bool} (hneeds : Instr.needsLive i = true) (h : exec i s = .next t)
include hneeds h

/-- A merge into `control` stores before it polls, so wherever the step ends one bit of the register is new. -/
theorem control_of_merge (hparts : Instr.parts s i
    = [.storeControl (setBit s.control k f), .send .command (setBit s.control k f)]) (hk : k < 8) (j : Nat) :
    t.control.getLsbD j = (if j = k then f else s.control.getLsbD j) ∧ t.mode = s.mode := by
  have hp := perform_parts_of_exec_next hneeds h
  rw [hparts] at hp
  obtain ⟨hcontrol, hmode⟩ := registers_of_perform_send (perform_loadControl.symm.trans hp)
  exact ⟨hcontrol ▸ getLsbD_setBit s.control k j hk f, hmode⟩

/-- The same for `mode`. -/
theorem mode_of_merge (hparts : Instr.parts s i
    = [.storeMode (setBit s.mode k f), .send .command (setBit s.mode k f)]) (hk : k < 8) (j : Nat) :
    t.mode.getLsbD j = (if j = k then f else s.mode.getLsbD j) ∧ t.control = s.control := by
  have hp := perform_parts_of_exec_next hneeds h
  rw [hparts] at hp
  obtain ⟨hcontrol, hmode⟩ := registers_of_perform_send (perform_loadMode.symm.trans hp)
  exact ⟨hmode ▸ getLsbD_setBit s.mode k j hk f, hcontrol⟩

end Merge

/-- Settles O26: the store of the merged register comes before the poll, and nothing stores after it. -/
theorem togglingOneFlagKeepsTheOthers : Obligations.TogglingOneFlagKeepsTheOthers := by
  intro f s t j _
  refine ⟨fun h => ?_, fun h => ?_, fun h => ?_, fun h => ?_, fun h => ?_⟩
  · exact control_of_merge rfl h (parts_display s f) (by decide) j
  · exact control_of_merge rfl h (parts_cursor s f) (by decide) j
  · exact control_of_merge rfl h (parts_blink s f) (by decide) j
  · exact mode_of_merge rfl h (parts_direction s f) (by decide) j
  · exact mode_of_merge rfl h (parts_autoscroll s f) (by decide) j

end Sys2Proof.Machine

-- Addressing (45_codec_address.md R150 to R156).
namespace Sys2Proof.Machine

/-! ### A quiet request, counted by its parts -/

/-- A part polls at most once (43_busy_poller.md R131). -/
theorem count_poll_parts_le (c : Config) (w : Width) (ps : List Part) :
    (partsItems c w ps).count .poll ≤ ps.length := by
  induction ps with
  | nil => exact Nat.le_refl 0
  | cons p ps ih =>
    rw [partsItems_cons, List.count_append, count_poll_part, List.length_cons, Nat.add_comm]
    exact Nat.add_le_add ih (p.polls_le_one c)

/-- As many answers 0 as a request has parts let it complete (30_encoding.md R62). -/
theorem exec_quiet_parts {i : Instr} {n : Nat} {s : State} (h : Ready s) (hq : Quiet n s)
    (hneeds : Instr.needsLive i = true) (hgoto : ∀ line col, i = .goto line col → Instr.wellFormed i = true)
    (hstarve : .starve ∉ Instr.parts s i) (hn : (Instr.parts s i).length ≤ n) :
    exec i s = .next (((Instr.parts s i).foldl Part.effect s).completed .ok) :=
  exec_ready_quiet h hneeds hgoto hstarve hq ((count_poll_parts_le _ _ _).trans hn)

/-! ### The bytes -/

/-- An opcode bit above an operand is added to it. -/
theorem ofNat_two_pow_or {w k a : Nat} (ha : a < 2 ^ k) :
    BitVec.ofNat w (2 ^ k) ||| BitVec.ofNat w a = BitVec.ofNat w (2 ^ k + a) := by
  have hor : 2 ^ k + a = 2 ^ k ||| a := by simpa using Nat.two_pow_add_eq_or_of_lt ha 1
  rw [hor, BitVec.ofNat_or]

theorem setDdramByte_eq {a : Nat} (ha : a ≤ 0x7F) : setDdramByte a = BitVec.ofNat 8 (0x80 + a) :=
  ofNat_two_pow_or (k := 7) (Nat.lt_succ_of_le ha)

/-- `(idx & 7) << 3` is eight times `idx mod 8` (45_codec_address.md R155). -/
theorem cgramOffset_eq (idx : Byte) : (idx &&& 0x07) <<< 3 = BitVec.ofNat 8 (8 * (idx.toNat % 8)) := by
  apply BitVec.eq_of_toNat_eq
  have hmask : idx.toNat &&& 7 = idx.toNat % 8 := Nat.and_two_pow_sub_one_eq_mod idx.toNat 3
  simp [hmask, Nat.shiftLeft_eq, Nat.mul_comm]

theorem setCgramByte_eq (idx : Byte) : setCgramByte idx = BitVec.ofNat 8 (0x40 + 8 * (idx.toNat % 8)) := by
  rw [setCgramByte, cgramOffset_eq]
  exact ofNat_two_pow_or (k := 6) (by omega)

theorem displayShiftByte_eq (right : Bool) : displayShiftByte right = if right then 0x1C else 0x18 := by
  cases right <;> rfl

/-! ### GOTO -/

/-- The address, by the table of 20_memory.md R41. -/
theorem gotoAddress_eq (line : BitVec 2) (col : Byte) :
    gotoAddress line col = [0x00, 0x40, 0x10, 0x50].getD line.toNat 0 + col.toNat := by
  have htable : ∀ l : BitVec 2, lineOffset l = [0x00, 0x40, 0x10, 0x50].getD l.toNat 0 := by decide
  rw [gotoAddress, htable]

/-- Settles O29: its one part is the `Send` of the address byte. -/
theorem gotoSendsOffsetPlusColumn : Obligations.GotoSendsOffsetPlusColumn := by
  intro line col s hready hquiet hfits
  rw [← gotoAddress_eq] at hfits ⊢
  rw [← setDdramByte_eq hfits]
  refine exec_quiet_parts hready hquiet rfl ?_ (by simp [Instr.parts]) (Nat.le_refl 1)
  rintro _ _ ⟨⟩
  exact decide_eq_true hfits

/-- Settles O30: the request is accepted, and then its range is looked at. -/
theorem gotoBeyondTheFieldIsRefused : Obligations.GotoBeyondTheFieldIsRefused := by
  intro line col s hready hbeyond
  rw [← gotoAddress_eq] at hbeyond
  have hrange : gotoInRange line col = false := decide_eq_false (Nat.not_le_of_lt hbeyond)
  simp [exec, execGoto, acceptLive_ready hready, hrange]

/-- GOTO depends on the address alone. -/
theorem exec_goto_congr {line line' : BitVec 2} {col col' : Byte}
    (h : gotoAddress line col = gotoAddress line' col') (s : State) :
    exec (.goto line col) s = exec (.goto line' col') s := by
  have hrange : gotoInRange line col = gotoInRange line' col' := by rw [gotoInRange, gotoInRange, h]
  simp only [exec, execGoto, hrange, h]

/-- A line sixteen further on is sixteen columns further on, while the column does not wrap (20_memory.md R41). -/
theorem gotoAddress_add_sixteen {line line' : BitVec 2} {col : Byte} (hline : lineOffset line' = lineOffset line + 16)
    (hcol : col.toNat < 240) : gotoAddress line' col = gotoAddress line (col + 16) := by
  have hcolumn : (col + 16).toNat = col.toNat + 16 := BitVec.toNat_add_of_lt (Nat.add_lt_add_right hcol 16)
  rw [gotoAddress, gotoAddress, hcolumn, hline]
  omega

/-- Settles O31: the offset of each lower line is that of the upper plus 16. -/
theorem lowerLinesContinueTheUpper : Obligations.LowerLinesContinueTheUpper :=
  fun _ s hcol => ⟨exec_goto_congr (gotoAddress_add_sixteen rfl hcol) s,
    exec_goto_congr (gotoAddress_add_sixteen rfl hcol) s⟩

/-! ### SCROLL -/

/-- Settles O32: its one part is the `Send` of the shift byte. -/
theorem scrollSendsOneDisplayShift : Obligations.ScrollSendsOneDisplayShift := by
  intro right s hready hquiet
  rw [← displayShiftByte_eq]
  exact exec_quiet_parts hready hquiet rfl (by simp) (by simp [Instr.parts]) (Nat.le_refl 1)

/-! ### DEFCHAR -/

theorem parts_defchar {idx : Byte} {stream : List Byte} (hlen : 8 ≤ stream.length) (s : State) :
    Instr.parts s (.defchar idx stream)
      = .send .command (setCgramByte idx) :: (stream.take 8).map (.send .data) := by
  simp [Instr.parts, bitmapBytes, Nat.not_lt_of_le hlen]

theorem effect_sends (s : State) (kind : Kind) (vs : List Byte) :
    (vs.map (.send kind)).foldl Part.effect s = s.afterSends kind vs := List.foldl_map

/-- Settles O33: its parts are the `Send` of the address byte and those of the bitmap. -/
theorem defcharSendsAddressThenBitmap : Obligations.DefcharSendsAddressThenBitmap := by
  intro idx stream s hready hquiet hlen
  have hparts := parts_defchar (idx := idx) hlen s
  have hexec : exec (.defchar idx stream) s = _ :=
    exec_quiet_parts hready hquiet rfl (by simp) (by simp [hparts, -List.map_take]) (by simp [hparts])
  rw [hexec, hparts, List.foldl_cons, effect_sends, setCgramByte_eq]
  rfl

/-- Settles O34: the index is read in the address byte alone, modulo 8. -/
theorem defcharMasksTheIndex : Obligations.DefcharMasksTheIndex := by
  intro idx idx' stream s hidx
  have hbyte : setCgramByte idx = setCgramByte idx' := by rw [setCgramByte_eq, setCgramByte_eq, hidx]
  simp only [exec, execDefchar, hbyte]

end Sys2Proof.Machine

-- Printing (46_codec_print.md R160 to R168).
namespace Sys2Proof.Machine

/-! ### PUTC and PUTS -/

/-- Settles O36: its one part is the `Send` of the byte. -/
theorem putcSendsTheByte : Obligations.PutcSendsTheByte := fun _ _ hready hquiet =>
  exec_quiet_parts hready hquiet rfl (by simp) (by simp [Instr.parts]) (Nat.le_refl 1)

/-- A string ends at its first `0x00` (46_codec_print.md R163). -/
theorem stringBytes_append_zero {str : List Byte} (h : 0x00 ∉ str) (rest : List Byte) :
    stringBytes (str ++ 0x00 :: rest) = str := by
  have hchar : ∀ c ∈ str, (c != 0x00) = true := fun c hc => bne_iff_ne.mpr (ne_of_mem_of_not_mem hc h)
  rw [stringBytes, List.takeWhile_append_of_pos hchar, List.takeWhile_cons_of_neg (by simp), List.append_nil]

theorem parts_puts {str : List Byte} (h : 0x00 ∉ str) (rest : List Byte) (s : State) :
    Instr.parts s (.puts (str ++ 0x00 :: rest)) = str.map (.send .data) := by
  have hterm : terminated (str ++ 0x00 :: rest) = true := by simp [terminated]
  rw [Instr.parts, stringBytes_append_zero h, if_pos hterm, List.append_nil]

/-- Settles O37: its parts are the `Send`s of the bytes before the terminator. -/
theorem putsSendsUpToTheTerminator : Obligations.PutsSendsUpToTheTerminator := by
  intro str rest s hready hquiet hstr
  have hparts := parts_puts hstr rest s
  rw [exec_quiet_parts hready hquiet rfl (by simp) (by rw [hparts]; simp) (by rw [hparts, List.length_map]),
    hparts, effect_sends]

/-! ### One turn of the digit loop -/

theorem digitStep_k (p : Scratch) : (digitStep p).k = p.k + 1 := rfl

theorem digitStep_m (p : Scratch) : (digitStep p).m.toNat = p.m.toNat / 10 := BitVec.toNat_udiv

/-- A turn takes the last decimal digit off the magnitude. -/
theorem digitStep_m_lt {fuel : Nat} {p : Scratch} (h : p.m.toNat < 10 ^ (fuel + 1)) :
    (digitStep p).m.toNat < 10 ^ fuel := by
  rw [digitStep_m]
  exact Nat.div_lt_of_lt_mul (Nat.pow_succ' ▸ h)

/-- The loop ends with the turn that takes the first digit (46_codec_print.md R165). -/
theorem digitStep_m_eq_zero_iff (p : Scratch) : (digitStep p).m = 0 ↔ p.m.toNat / 10 = 0 := by
  rw [← digitStep_m]
  exact BitVec.toNat_inj.symm

/-- A turn fills the entry at the count and keeps the others. -/
theorem digitStep_entry (p : Scratch) {j : Nat} (hj : j < 10) :
    ((digitStep p).buf[j]).val = if p.k = j then p.m.toNat % 10 else (p.buf[j]).val := by
  rw [digitStep, Vector.getElem_setIfInBounds hj, apply_ite Fin.val]
  rfl

/-- The digit of a turn is printed before those of the turns so far (46_codec_print.md R165). -/
theorem digitChars_digitStep {p : Scratch} (hk : p.k < 10) :
    digitChars (digitStep p) = (0x30 + BitVec.ofNat 8 (p.m.toNat % 10)) :: digitChars p := by
  have hbuf : (digitStep p).buf.toList = p.buf.toList.set p.k (Fin.ofNat 10 p.m.toNat) := Vector.toList_setIfInBounds
  have hnew : (digitStep p).buf.toList.getD p.k 0 = Fin.ofNat 10 p.m.toNat := by simp [hbuf, hk]
  have hold : ∀ i < p.k, (digitStep p).buf.toList.getD i 0 = p.buf.toList.getD i 0 := by
    intro i hi
    rw [hbuf, List.getD_eq_getElem?_getD, List.getElem?_set_ne (Nat.ne_of_gt hi), List.getD_eq_getElem?_getD]
  rw [digitChars, digitChars, digitStep_k, List.range_succ_eq_map, List.map_cons, List.map_map]
  congr 1
  · rw [Nat.add_sub_cancel, Nat.sub_zero, hnew]
    rfl
  · refine List.map_congr_left fun j hj => ?_
    have hlt := List.mem_range.mp hj
    have hindex : p.k + 1 - 1 - j.succ = p.k - 1 - j := by omega
    rw [Function.comp_apply, hindex, hold _ (by omega)]

/-! ### The digit loop -/

/-- As many turns as the magnitude has digits bring it to 0 (46_codec_print.md R167). -/
theorem digitLoop_m {fuel : Nat} {p : Scratch} (h : p.m.toNat < 10 ^ fuel) : (digitLoop fuel p).m = 0 := by
  fun_induction digitLoop fuel p with
  | case1 p => exact BitVec.eq_of_toNat_eq (Nat.lt_one_iff.mp h)
  | case2 fuel p hm => exact hm
  | case3 fuel p hm ih => exact ih (digitStep_m_lt h)

/-- A turn adds one to the count. -/
theorem digitLoop_k (fuel : Nat) (p : Scratch) :
    p.k ≤ (digitLoop fuel p).k ∧ (digitLoop fuel p).k ≤ p.k + fuel := by
  fun_induction digitLoop fuel p with
  | case1 p => exact ⟨Nat.le_refl _, Nat.le_refl _⟩
  | case2 fuel p hm => exact ⟨Nat.le_succ _, Nat.add_le_add_left (Nat.le_add_left 1 fuel) p.k⟩
  | case3 fuel p hm ih =>
    rw [digitStep_k] at ih
    omega

/-- The entries filled hold the decimal digits of the magnitude, least significant first (46_codec_print.md R165);
the others keep what they held (log 19). -/
theorem digitLoop_entry (fuel : Nat) (p : Scratch) {j : Nat} (hj : j < 10) :
    ((digitLoop fuel p).buf[j]).val = if p.k ≤ j ∧ j < (digitLoop fuel p).k then p.m.toNat / 10 ^ (j - p.k) % 10
      else (p.buf[j]).val := by
  fun_induction digitLoop fuel p with
  | case1 p => rw [if_neg (by omega)]
  | case2 fuel p hm =>
    rw [digitStep_entry p hj, digitStep_k]
    by_cases hkj : p.k = j
    · rw [if_pos hkj, if_pos (by omega), hkj, Nat.sub_self, pow_zero, Nat.div_one]
    · rw [if_neg hkj, if_neg (by omega)]
  | case3 fuel p hm ih =>
    obtain ⟨hle, -⟩ := digitLoop_k fuel (digitStep p)
    rw [digitStep_k] at ih hle
    rw [ih, digitStep_entry p hj, digitStep_m, Nat.div_div_eq_div_mul, ← Nat.pow_succ']
    obtain hlt | heq | hgt := Nat.lt_trichotomy j p.k
    · rw [if_neg (by omega), if_neg (by omega), if_neg (by omega)]
    · rw [if_neg (by omega), if_pos heq.symm, if_pos (by omega), heq, Nat.sub_self, pow_zero, Nat.div_one]
    · have hexp : (j - (p.k + 1)).succ = j - p.k := by omega
      simp only [hexp, Nat.succ_le_of_lt hgt, Nat.le_of_lt hgt, Nat.ne_of_lt hgt, if_false]

/-- The decimal digits of a number, but for the last, are those of a tenth of it. -/
theorem decimalChars_eq (m : Nat) : decimalChars m
    = (if m / 10 = 0 then [] else decimalChars (m / 10)) ++ [0x30 + BitVec.ofNat 8 (m % 10)] := by
  by_cases hm : m = 0
  · subst hm
    rfl
  · rw [decimalChars, if_neg hm, Nat.digits_def' (by decide) (Nat.pos_of_ne_zero hm), List.reverse_cons,
      List.map_append]
    by_cases hq : m / 10 = 0
    · rw [if_pos hq, hq]
      rfl
    · rw [if_neg hq, decimalChars, if_neg hq]
      rfl

/-- While the buffer has room for every turn, the loop puts the decimal digits of the magnitude before those that
stood there (46_codec_print.md R165, R168). -/
theorem digitChars_digitLoop {fuel : Nat} {p : Scratch} (hm : p.m.toNat < 10 ^ fuel) (hfuel : 0 < fuel)
    (hk : p.k + fuel ≤ 10) : digitChars (digitLoop fuel p) = decimalChars p.m.toNat ++ digitChars p := by
  fun_induction digitLoop fuel p with
  | case1 p => cases hfuel
  | case2 fuel p hz =>
    rw [digitChars_digitStep (by omega), decimalChars_eq, if_pos ((digitStep_m_eq_zero_iff p).mp hz)]
    rfl
  | case3 fuel p hz ih =>
    have hm' := digitStep_m_lt hm
    have hfuel' : 0 < fuel := Nat.pos_of_ne_zero fun h0 =>
      hz (BitVec.eq_of_toNat_eq (Nat.lt_one_iff.mp (by rwa [h0] at hm')))
    rw [ih hm' hfuel' (by rw [digitStep_k]; omega), digitChars_digitStep (by omega), decimalChars_eq p.m.toNat,
      if_neg (mt (digitStep_m_eq_zero_iff p).mpr hz), digitStep_m, List.append_assoc]
    rfl

/-! ### The conversion of a magnitude -/

section Convert
variable (m : BitVec 32) (p : Scratch)

/-- 32 bits have at most ten decimal digits (46_codec_print.md R167). -/
theorem toNat_lt_ten_pow_putiBuf : m.toNat < 10 ^ Config.putiBuf := m.isLt.trans (by decide)

theorem convert_m : (convert m p).m = 0 := digitLoop_m (toNat_lt_ten_pow_putiBuf m)

theorem digitChars_convert : digitChars (convert m p) = decimalChars m.toNat :=
  (digitChars_digitLoop (toNat_lt_ten_pow_putiBuf m) (by decide) (Nat.le_refl 10)).trans (List.append_nil _)

theorem convert_k : (convert m p).k = (decimalChars m.toNat).length := by
  rw [← digitChars_convert m p, digitChars, List.length_map, List.length_range]

theorem convert_entry {j : Nat} (hj : j < 10) :
    ((convert m p).buf[j]).val = if j < (convert m p).k then m.toNat / 10 ^ j % 10 else (p.buf[j]).val := by
  have h := digitLoop_entry Config.putiBuf { p with m := m, k := 0 } hj
  simp only [Nat.zero_le, true_and, Nat.sub_zero] at h
  exact h

end Convert

/-- Settles O39: each turn takes a digit off the magnitude, 32 bits have at most ten, and no turn adds more than one to
the count. -/
theorem digitBufferNeverOverruns : Obligations.DigitBufferNeverOverruns := by
  intro m p
  obtain ⟨-, hk⟩ := digitLoop_k 10 { p with m := m, k := 0 }
  rw [Nat.zero_add] at hk
  exact ⟨digitLoop_k_pos 9 _, hk, convert_m m p⟩

/-! ### PUTI -/

/-- The magnitude is the absolute value, for the most negative number too (46_codec_print.md R166; log 12). -/
theorem magnitude_toNat (n : BitVec 32) : (magnitude n).toNat = n.toInt.natAbs := by
  have habs : magnitude n = n.abs := by simp [magnitude, BitVec.abs]
  rw [habs, BitVec.toNat_abs, BitVec.toInt_eq_msb_cond]
  split <;> omega

/-- The sign PUTI prints (46_codec_print.md R165). -/
def signChars (n : BitVec 32) : List Byte := if n.toInt < 0 then [0x2D] else []

theorem putiChars_eq (n : BitVec 32) : putiChars n = signChars n ++ decimalChars n.toInt.natAbs := rfl

theorem parts_puti (n : BitVec 32) (s : State) : Instr.parts s (.puti n) = (signChars n).map (.send .data)
    ++ .storeScratch (convert (magnitude n) s.scratch) :: (decimalChars n.toInt.natAbs).map (.send .data) := by
  rw [Instr.parts, digitChars_convert, magnitude_toNat, signChars, BitVec.msb_eq_toInt]
  by_cases hneg : n.toInt < 0 <;> simp [hneg, minusSign]

/-- PUTI polls once for each character at most; the store of its scratch does not poll (43_busy_poller.md R131). -/
theorem count_poll_puti (c : Config) (w : Width) (n : BitVec 32) (s : State) :
    (partsItems c w (Instr.parts s (.puti n))).count .poll ≤ (putiChars n).length := by
  have hsends : ∀ vs : List Byte, (partsItems c w (vs.map (.send .data))).count .poll ≤ vs.length := fun vs =>
    (count_poll_parts_le c w _).trans_eq (List.length_map _)
  have hstore : ∀ p, ((Part.storeScratch p).items c w).count .poll = 0 := fun _ => rfl
  rw [parts_puti, partsItems_append, partsItems_cons, List.count_append, List.count_append, hstore, Nat.zero_add,
    putiChars_eq, List.length_append]
  exact Nat.add_le_add (hsends _) (hsends _)

/-- The state with another scratch. -/
def State.withScratch (p : Scratch) (s : State) : State := { s with scratch := p }

@[simp] theorem State.withScratch_cfg (p : Scratch) (s : State) : (s.withScratch p).cfg = s.cfg := rfl

theorem State.afterSend_withScratch (p : Scratch) (s : State) (kind : Kind) (v : Byte) :
    (s.withScratch p).afterSend kind v = (s.afterSend kind v).withScratch p := by
  unfold State.afterSend State.afterBusySend
  rw [State.withScratch_cfg]
  split <;> rfl

/-- `Send`s do not look at the scratch. -/
theorem State.afterSends_withScratch (p : Scratch) (s : State) (kind : Kind) (vs : List Byte) :
    (s.withScratch p).afterSends kind vs = (s.afterSends kind vs).withScratch p :=
  List.foldl_hom (State.withScratch p) fun s v => State.afterSend_withScratch p s kind v

theorem State.afterSends_append (s : State) (kind : Kind) (vs ws : List Byte) :
    s.afterSends kind (vs ++ ws) = (s.afterSends kind vs).afterSends kind ws := List.foldl_append

/-- Settles O38: its parts are the `Send`s of the sign, the store of the converted magnitude and the `Send`s of its
digits. -/
theorem putiSendsSignAndDecimalDigits : Obligations.PutiSendsSignAndDecimalDigits := by
  intro n s hready hquiet
  refine ⟨convert (magnitude n) s.scratch, ?_, convert_m _ _, ?_, fun j hj => ?_⟩
  · rw [exec_ready_quiet hready rfl (by simp) (by simp [parts_puti]) hquiet (count_poll_puti _ _ n s), parts_puti,
      List.foldl_append, List.foldl_cons, effect_sends, effect_sends, putiChars_eq, State.afterSends_append]
    exact congrArg (fun t => Host.Outcome.next (t.completed .ok)) (State.afterSends_withScratch _ _ _ _)
  · rw [convert_k, magnitude_toNat]
  · rw [convert_entry _ _ hj, magnitude_toNat]

end Sys2Proof.Machine

-- A controller that clears (43_busy_poller.md R129; 60_exceptions.md R178).
namespace Sys2Proof.Machine

/-! ### The answers of one poll -/

/-- The answers of the first poll, then those of the others. -/
theorem pollAnswers_cons (k : Nat) (ks : List Nat) :
    pollAnswers (k :: ks) = List.replicate k true ++ false :: pollAnswers ks := by
  simp [pollAnswers]

/-- Clearing depends on the parameters and the answers alone. -/
theorem Clears.congr {ks : List Nat} {s t : State} (h : Clears ks s) (hc : t.cfg = s.cfg)
    (ha : t.answers = s.answers) (hp : t.polls = s.polls) : Clears ks t := by
  intro hb j a hj
  rw [State.answerAt_congr ha hp]
  exact h (hc ▸ hb) j a hj

/-- The first poll ends after its count of busy answers (43_busy_poller.md R129). -/
theorem Clears.pollEnds {k : Nat} {ks : List Nat} {s : State} (h : Clears (k :: ks) s) (hb : s.cfg.busyPoll = true) :
    PollEnds k s := by
  rw [PollEnds, if_pos hb]
  refine ⟨fun j hj => h hb j true ?_, h hb k false ?_⟩
  · rw [pollAnswers_cons, List.getElem?_append_left (by simpa using hj), List.getElem?_replicate, if_pos hj]
  · simp [pollAnswers_cons]

/-- The controller still clears in the polls after the first. -/
theorem Clears.takeAnswers {k : Nat} {ks : List Nat} {s : State} (h : Clears (k :: ks) s) :
    Clears ks (s.takeAnswers (k + 1)) := by
  intro hb j a hj
  rw [State.takeAnswers_answerAt]
  refine h hb (k + 1 + j) a ?_
  have hindex : k + 1 + j = (List.replicate k true).length + (j + 1) := by rw [List.length_replicate]; omega
  rw [pollAnswers_cons, hindex, List.getElem?_append_right (Nat.le_add_right _ _), Nat.add_sub_cancel_left,
    List.getElem?_cons_succ, hj]

/-! ### Parts under a controller that clears -/

/-- A live device whose work has begun, with its lines driven, no reset ahead and a controller that clears in its next
polls. -/
structure Served (ks : List Nat) (s : State) : Prop where
  live   : s.live = true
  idle   : s.seq = []
  driven : Driven s
  resets : s.resets = []
  clears : Clears ks s

/-- An outcome that comes to its end with the status `OK` in at most `n` further steps. -/
def EndsOk (n : Nat) (o : Host.Outcome State Fault Refusal) : Prop :=
  ∃ k t, k ≤ n ∧ Runs o k t ∧ t.seq = [] ∧ t.status = some .ok ∧ t.live = true

/-- A part that polls is a `Send` (43_busy_poller.md R131). -/
theorem Part.polls_cases (c : Config) (p : Part) :
    p.polls c = 0 ∨ c.busyPoll = true ∧ p.polls c = 1 ∧ ∃ kind v, p = .send kind v := by
  cases p with
  | send kind v => cases hb : c.busyPoll <;> simp [Part.polls, hb]
  | _ => exact .inl rfl

/-- A part without a poll takes no answer. -/
theorem Served.part {ks : List Nat} {s : State} {p : Part} (h : Served ks s) (hp : p.polls s.cfg = 0) :
    Served ks (p.effect s) := by
  obtain ⟨hlive, hidle, hdriven, hresets, hclears⟩ := h
  cases p with
  | send kind v =>
    refine ⟨(State.afterSend_live s kind v).trans hlive, (State.afterSend_seq s kind v).trans hidle, hdriven.part _,
      (State.afterSend_resets s kind v).trans hresets, fun hb => ?_⟩
    rw [Part.effect_cfg] at hb
    simp [Part.polls, hb] at hp
  | _ => exact ⟨hlive, hidle, hdriven.part _, hresets, hclears.congr rfl rfl rfl⟩

@[simp] theorem State.afterBusySend_cfg (s : State) (k : Nat) (kind : Kind) (v : Byte) :
    (s.afterBusySend k kind v).cfg = s.cfg := by unfold State.afterBusySend; split <;> rfl

@[simp] theorem State.afterBusySend_width (s : State) (k : Nat) (kind : Kind) (v : Byte) :
    (s.afterBusySend k kind v).width = s.width := by unfold State.afterBusySend; split <;> rfl

/-- A `Send` takes the answers of its poll. -/
theorem Served.afterBusySend {k : Nat} {ks : List Nat} {s : State} (h : Served (k :: ks) s)
    (hb : s.cfg.busyPoll = true) (kind : Kind) (v : Byte) : Served ks (s.afterBusySend k kind v) := by
  obtain ⟨hlive, hidle, hdriven, hresets, hclears⟩ := h
  rw [State.afterBusySend, if_pos hb]
  exact ⟨hlive, hidle, (hdriven.afterBusyWait k).afterByte kind v, hresets, hclears.takeAnswers.congr rfl rfl rfl⟩

/-- Each poll of the parts costs as many steps as it has busy answers, and the last item reports `OK`
(60_exceptions.md R178). -/
theorem Served.endsOk {ps : List Part} {ks : List Nat} {s : State} (h : Served ks s)
    (hcount : (partsItems s.cfg s.width ps).count .poll ≤ ks.length) (hstarve : .starve ∉ ps) :
    EndsOk ks.sum (perform (partsItems s.cfg s.width ps ++ [.finish .ok]) s) := by
  induction ps generalizing ks s with
  | nil => exact ⟨0, s.completed .ok, Nat.zero_le _, Runs.zero _, h.idle, rfl, h.live⟩
  | cons p ps ih =>
    obtain ⟨hp, hps⟩ := not_or.mp (mt List.mem_cons.mpr hstarve)
    rw [partsItems_cons, List.count_append, count_poll_part] at hcount
    rw [partsItems_cons, List.append_assoc]
    obtain hzero | ⟨hb, hone, kind, v, rfl⟩ := p.polls_cases s.cfg
    · have hquiet : Quiet (p.polls s.cfg) s := fun _ k hk => absurd (hzero ▸ hk) (Nat.not_lt_zero k)
      have hrest := ih (h.part hzero) (by simpa [hzero] using hcount) hps
      rw [Part.effect_cfg, Part.effect_width] at hrest
      rwa [perform_part h.driven hquiet (Ne.symm hp)]
    · cases ks with
      | nil => simp [hone] at hcount
      | cons k ks =>
        rw [hone, Nat.add_comm, List.length_cons] at hcount
        obtain ⟨n, t, hn, hruns, hdone⟩ :=
          ih (h.afterBusySend hb kind v) (by simpa using Nat.le_of_succ_le_succ hcount) hps
        rw [State.afterBusySend_cfg, State.afterBusySend_width] at hruns
        refine ⟨k + n, t, ?_, runs_sendItems h.driven h.idle h.resets (h.clears.pollEnds hb) hruns, hdone⟩
        rw [List.sum_cons]
        exact Nat.add_le_add_left hn k

/-! ### The parts of a well-formed request -/

/-- A well-formed request misses no stream byte (45_codec_address.md R155; 46_codec_print.md R163). -/
theorem starve_not_mem_parts {i : Instr} (hformed : Instr.wellFormed i = true) (s : State) :
    .starve ∉ Instr.parts s i := by
  cases i with
  | defchar idx stream =>
    have hlen : stream.length = 8 := beq_iff_eq.mp hformed
    simp [Instr.parts, hlen]
  | puts stream =>
    have hterm : terminated stream = true := hformed
    simp [Instr.parts, hterm]
  | puti n => simp [parts_puti]
  | _ => simp [Instr.parts]

/-- A well-formed request polls no more often than `requestPolls` says (43_busy_poller.md R131). -/
theorem count_poll_le_requestPolls {i : Instr} (hneeds : Instr.needsLive i = true)
    (hformed : Instr.wellFormed i = true) (w : Width) (s : State) :
    (partsItems s.cfg w (Instr.parts s i)).count .poll ≤ requestPolls s.cfg i := by
  cases i with
  | clear | home | display | cursor | blink | direction | autoscroll =>
    change _ ≤ 1
    simpa [Instr.parts, count_poll_part, Part.polls] using Part.polls_le_one s.cfg (.send .command 0)
  | goto | scroll | putc => exact count_poll_parts_le _ _ _
  | defchar idx stream =>
    have hlen : stream.length = 8 := beq_iff_eq.mp hformed
    refine (count_poll_parts_le _ _ _).trans_eq ?_
    rw [parts_defchar hlen.ge, List.length_cons, List.length_map]
    exact Nat.add_comm _ _
  | puts stream =>
    have hterm : terminated stream = true := hformed
    refine (count_poll_parts_le _ _ _).trans_eq ?_
    rw [Instr.parts, if_pos hterm, List.append_nil, List.length_map]
    rfl
  | puti n => exact count_poll_puti _ _ n s
  | _ => cases hneeds

/-! ### The initialization -/

/-- The parts of INIT after its two first steps (41_init_sequence.md R110). -/
def initParts (c : Config) (w : Width) (config : Byte) : List Part := danceParts c w config ++ setupParts c config

/-- INIT misses no stream byte. -/
theorem starve_not_mem_initParts (c : Config) (w : Width) (config : Byte) : .starve ∉ initParts c w config := by
  cases w <;> cases hv : c.init8Via <;> simp [initParts, danceParts, setupParts, hv]

/-- INIT polls no more often than CREATE does (43_busy_poller.md R131). -/
theorem count_poll_initParts_le (c : Config) (config : Byte) :
    (partsItems c (configWidth config) (initParts c (configWidth config) config)).count .poll
      ≤ createPolls c config := by
  have hinit : (partsItems c (configWidth config) (initParts c (configWidth config) config)).Sublist
      (initItems c (configWidth config) config) := by
    rw [initItems_eq_parts]
    exact .cons _ (.cons _ (.cons _ (.refl _)))
  have hbringUp : (initItems c (configWidth config) config).Sublist (bringUpItems c (configWidth config) config) :=
    (List.sublist_append_right _ _).trans (List.sublist_append_left _ _)
  refine ((hinit.trans hbringUp).count_le .poll).trans ?_
  rw [count_poll_bringUp]
  split
  · exact Nat.le_refl _
  · exact Nat.zero_le _

/-- The work of CREATE is `ConfigurePins()`, the two first steps of INIT and its parts (40_registry_lifecycle.md R90;
41_init_sequence.md R110). -/
theorem perform_bringUp_settled (config : Byte) (s : State) : perform (bringUpItems s.cfg s.width config) s
    = perform (partsItems s.cfg s.width (initParts s.cfg s.width config) ++ [.finish .ok]) s.configured.settled := by
  rw [perform_bringUp_configured, initItems_eq_parts]
  have hsettle := perform_settle (driven_configured s)
    (rest := partsItems s.cfg s.width (initParts s.cfg s.width config) ++ [.finish .ok])
  rwa [configured_cfg] at hsettle

/-- A claimed device is served once its lines are driven. -/
theorem served_settled {ks : List Nat} {s : State} (hlive : s.live = true) (hidle : s.seq = [])
    (hresets : s.resets = []) (hclears : Clears ks s) : Served ks s.configured.settled := by
  have hdriven := (driven_configured s).settled
  rw [configured_eq_moved] at hdriven ⊢
  exact ⟨hlive, hidle, hdriven, hresets, hclears.congr rfl rfl rfl⟩

/-- The whole work of CREATE on a claimed device ends with `OK` (40_registry_lifecycle.md R90). -/
theorem bringUp_endsOk {config : Byte} {ks : List Nat} {s : State} (hlive : s.live = true) (hidle : s.seq = [])
    (hresets : s.resets = []) (hw : s.width = configWidth config) (hpolls : createPolls s.cfg config ≤ ks.length)
    (hclears : Clears ks s) : EndsOk ks.sum (perform (bringUpItems s.cfg s.width config) s) := by
  have hcfg : s.configured.settled.cfg = s.cfg := configured_cfg s
  have hwidth : s.configured.settled.width = s.width := configured_width s
  have hcount : (partsItems s.cfg s.width (initParts s.cfg s.width config)).count .poll ≤ ks.length := by
    rw [hw]
    exact (count_poll_initParts_le s.cfg config).trans hpolls
  have hparts := (served_settled hlive hidle hresets hclears).endsOk (by rwa [hcfg, hwidth])
    (starve_not_mem_initParts s.cfg s.width config)
  rwa [hcfg, hwidth, ← perform_bringUp_settled] at hparts

/-! ### Requests -/

/-- Settles O57: the work of the request comes down to parts on driven lines (`exec_ready`; for a CREATE
`perform_bringUp_settled`), and these end under such a controller (`Served.endsOk`). -/
theorem requestsEndWithOkWhenTheControllerClears : Obligations.RequestsEndWithOkWhenTheControllerClears := by
  intro i s ks hresets hformed hpolls hclears hstart
  have hclears' : Clears ks (s.withStatus none) := hclears.congr rfl rfl rfl
  have hends : EndsOk ks.sum (exec i s) := by
    obtain ⟨hready, hneeds⟩ | ⟨hfree, hidle, hslot, config, rfl⟩ := hstart
    · obtain ⟨hlive, hidle, hdriven⟩ := hready
      have hserved : Served ks (s.withStatus none) := ⟨hlive, hidle, hdriven, hresets, hclears'⟩
      rw [exec_ready ⟨hlive, hidle, hdriven⟩ hneeds fun _ _ _ => hformed]
      exact hserved.endsOk ((count_poll_le_requestPolls hneeds hformed s.width s).trans hpolls)
        (starve_not_mem_parts hformed s)
    · rw [exec_create hidle hfree hformed (slotFree_of_lt hfree hslot)]
      exact bringUp_endsOk (s := claim config (s.withStatus none)) rfl hidle hresets rfl hpolls
        (hclears'.congr rfl rfl rfl)
  obtain ⟨n, t, hn, ⟨s1, hexec, hrun⟩, hdone⟩ := hends
  exact ⟨s1, n, t, hexec, hn, hrun, hdone⟩

end Sys2Proof.Machine

-- A reset some events ahead (70_reset_and_hazards.md R195, R205).
namespace Sys2Proof.Machine

/-! ### The work does not look at the resets ahead -/

/-- The state with other resets ahead. -/
def State.withResets (r : List Nat) (s : State) : State := { s with resets := r }

/-- The result of a work item with other resets ahead. -/
def MicroResult.withResets (r : List Nat) : MicroResult → MicroResult
  | .done s => .done (s.withResets r)
  | .again s => .again (s.withResets r)
  | .refused e => .refused e

/-- The outcome of a step with other resets ahead. -/
def outcomeWithResets (r : List Nat) : Host.Outcome State Fault Refusal → Host.Outcome State Fault Refusal
  | .next s => .next (s.withResets r)
  | .fault e => .fault e
  | .refused e => .refused e

/-- A poll iteration is refused for the direction of EN or of `MSB`, and else samples its answer
(43_busy_poller.md R127). -/
theorem pollIteration_eq (a : Bool) (s : State) : pollIteration a s =
    if s.pins.dir .en = .output then
      if s.pins.dir (msbLine s.width) = .input then .done (s.sampled a)
      else .refused (.pinGetOnOutput (msbLine s.width))
    else .refused (.pinSetOnInput .en) := by
  by_cases hen : s.pins.dir .en = .output
  · rw [if_pos hen]
    by_cases hm : s.pins.dir (msbLine s.width) = .input
    · rw [if_pos hm]
      exact pollIteration_done hen hm
    · rw [if_neg hm, pollIteration, pinSet_output hen, MicroResult.andThen, waitFor, MicroResult.andThen, pinGet,
        if_neg (by simpa using hm)]
      rfl
  · rw [if_neg hen, pollIteration, pinSet, if_neg hen]
    rfl

/-- The work items neither read nor write the resets ahead. -/
theorem pollIteration_withResets (r : List Nat) (a : Bool) (s : State) :
    pollIteration a (s.withResets r) = (pollIteration a s).withResets r := by
  simp only [pollIteration_eq, apply_ite (MicroResult.withResets r)]
  rfl

theorem pollLoop_withResets (r : List Nat) (s : State) : pollLoop (s.withResets r) = (pollLoop s).withResets r := by
  have hiteration : pollIteration ((s.withResets r).answerAt 0) ((s.withResets r).takeAnswers 1)
      = (pollIteration (s.answerAt 0) (s.takeAnswers 1)).withResets r :=
    pollIteration_withResets r (s.answerAt 0) (s.takeAnswers 1)
  rw [pollLoop, pollLoop, hiteration]
  obtain h | ⟨e, h⟩ := pollIteration_cases (s.answerAt 0) (s.takeAnswers 1)
  · rw [h]
    cases s.answerAt 0 <;> rfl
  · rw [h]
    rfl

theorem runMicro_withResets (r : List Nat) (m : Micro) (s : State) :
    runMicro m (s.withResets r) = (runMicro m s).withResets r := by
  cases m with
  | pinSet l v =>
    simp only [runMicro, pinSet, apply_ite (MicroResult.withResets r)]
    rfl
  | poll => exact pollLoop_withResets r s
  | pinDir | wait | loadControl | loadMode | loadScratch | awaitStream | finish | issue => rfl

theorem perform_withResets (r : List Nat) (items : List Micro) (s : State) :
    perform items (s.withResets r) = outcomeWithResets r (perform items s) := by
  induction items generalizing s with
  | nil => rfl
  | cons m rest ih =>
    rw [perform, perform, runMicro_withResets]
    cases runMicro m s with
    | done t => exact ih t
    | again t => rfl
    | refused e => rfl

/-- The meaning of an instruction that commutes with a change of the resets ahead: it neither reads nor writes them. -/
def ResetsFree (run : State → Host.Outcome State Fault Refusal) : Prop :=
  ∀ r s, run (s.withResets r) = outcomeWithResets r (run s)

/-- A request is accepted or not whatever resets are ahead (30_encoding.md R62, R63). -/
theorem ResetsFree.accept {run : State → Host.Outcome State Fault Refusal} (h : ResetsFree run) :
    ResetsFree (accept run) := by
  intro r s
  by_cases hidle : s.seq = []
  · rw [accept_idle hidle, accept_idle (s := s.withResets r) hidle]
    exact h r { s with status := none }
  · rw [accept_busy hidle, accept_busy (s := s.withResets r) hidle]
    rfl

theorem ResetsFree.acceptLive {run : State → Host.Outcome State Fault Refusal} (h : ResetsFree run) :
    ResetsFree (acceptLive run) := by
  refine ResetsFree.accept fun r s => ?_
  rw [apply_ite (outcomeWithResets r), ← h r s]
  rfl

/-- Work items chosen without a look at the resets ahead. -/
theorem resetsFree_perform {items : State → List Micro} (h : ∀ r s, items (s.withResets r) = items s) :
    ResetsFree fun s => perform (items s) s := by
  intro r s
  simp only [h]
  exact perform_withResets r (items s) s

theorem resetsFree_operate {items : State → List Micro} (h : ∀ r s, items (s.withResets r) = items s) :
    ResetsFree (operate items) :=
  ResetsFree.acceptLive (resetsFree_perform fun r s => by rw [h])

/-- The same for a nibble frame, which looks at the width and at RS (42_bus_transmitter.md R115). -/
theorem resetsFree_emitNibble (rs : Bool) (v : BitVec 4) : ResetsFree (emitNibble rs v) := by
  intro r s
  have hw : (s.withResets r).width = s.width := rfl
  rw [emitNibble, emitNibble, hw]
  cases s.width with
  | four =>
    simp only [apply_ite (outcomeWithResets r), ← perform_withResets]
    rfl
  | eight => rfl

/-- No instruction looks at the resets ahead (70_reset_and_hazards.md R195). -/
theorem resetsFree_exec (i : Instr) : ResetsFree (exec i) := by
  intro r s
  have hw : (s.withResets r).width = s.width := rfl
  cases i with
  | clear | home | display | cursor | blink | direction | autoscroll | scroll | defchar | putc | puts | puti =>
    simp only [exec]
    exact resetsFree_operate (fun _ _ => rfl) r s
  | goto line col =>
    refine ResetsFree.acceptLive (run := fun s => ite _ _ _) (fun r s => ?_) r s
    rw [apply_ite (outcomeWithResets r), ← perform_withResets]
    rfl
  | create config c d =>
    simp only [exec, execCreate]
    refine ResetsFree.accept (fun r s => ?_) r s
    simp only [apply_ite (outcomeWithResets r), bringUp, ← perform_withResets]
    rfl
  | destroy =>
    simp only [exec, execDestroy]
    exact ResetsFree.accept (fun _ _ => rfl) r s
  | reserved => rfl
  | cmdClear | cmdHome | cmdEntryMode | cmdDisplayControl | cmdDisplayShift | cmdFunctionSet | cmdSetCgram
  | cmdSetDdram | dataWrite | writeValue | send => exact perform_withResets r _ s
  | resetNibble3 | resetNibble2 | byteLowNibble => exact resetsFree_emitNibble _ _ r s
  | byteHighNibble rs h =>
    simp only [exec, execByteHighNibble, hw]
    cases s.width with
    | four => exact perform_withResets r _ s
    | eight => rfl
  | cmdResetByte8 n f =>
    simp only [exec, execCmdResetByte8, hw]
    cases s.width with
    | four => rfl
    | eight =>
      simp only [apply_ite (outcomeWithResets r), ← perform_withResets]
      rfl
  | busyRead b x =>
    have hsample : (pollIteration b (s.withResets r)).outcome = outcomeWithResets r (pollIteration b s).outcome := by
      rw [pollIteration_withResets]
      cases pollIteration b s <;> rfl
    simp only [exec, execBusyRead, apply_ite (outcomeWithResets r), ← hsample]
    rfl
  | busyWait =>
    simp only [exec, execBusyWait, apply_ite (outcomeWithResets r), ← perform_withResets]
    rfl

/-- Nor does a step that no reset breaks off. -/
theorem advance_withResets (r : List Nat) (s : State) :
    advance (s.withResets r) = outcomeWithResets r (advance s) := by
  unfold advance
  have hseq : (s.withResets r).seq = s.seq := rfl
  have hport : (s.withResets r).port = s.port := rfl
  rw [hseq, hport]
  split
  next i rest _ => exact resetsFree_exec i r { s with seq := rest }
  next m rest _ _ => exact perform_withResets r (m :: rest) { s with seq := [] }
  next =>
    split
    next => rfl
    next req more _ => exact resetsFree_exec (Request.instr req) r { s with port := more }
    next given more _ =>
      rw [createOther_eq, createOther_eq]
      rfl
    next => rfl

/-! ### What an operation keeps while it performs events -/

/-- No instruction touches the traces that resets ended. -/
theorem exec_past {i : Instr} {s t : State} (h : exec i s = .next t) : t.past = s.past := by
  obtain ⟨s', items, hs, hp⟩ | ⟨-, ⟨items, hp⟩ | ⟨b, rfl⟩⟩ := exec_next_cases h
  · have hbegins : s'.past = s.past := by cases hs <;> rfl
    exact (perform_kept hp).1.past.trans hbegins
  · exact (perform_kept hp).1.past
  · rfl

/-- A step without a reset keeps the parameters and the traces that resets ended, and, when it performs an event, the
count of other devices (60_exceptions.md R190). -/
theorem advance_kept {s t : State} (h : advance s = .next t) :
    t.cfg = s.cfg ∧ t.past = s.past ∧ (newEvents s t ≠ [] → t.othersLive = s.othersLive) := by
  have hquiet : ∀ u : State, u.trace = s.trace → newEvents s u = [] := fun u hu => by simp [newEvents, hu]
  obtain ⟨i, rest, -, he⟩ | ⟨m, rest, -, he⟩ |
    ⟨-, ⟨-, he⟩ | ⟨i, more, -, he⟩ | ⟨given, more, he⟩ | ⟨more, he⟩⟩ := advance_cases s
  all_goals rw [he] at h
  · obtain ⟨hcfg, hothers⟩ := exec_cfg_othersLive h
    have hpast := exec_past h
    exact ⟨hcfg, hpast, fun _ => hothers⟩
  · obtain ⟨hk, -⟩ := perform_kept h
    exact ⟨hk.cfg, hk.past, fun _ => hk.othersLive⟩
  · cases h
    exact ⟨rfl, rfl, fun _ => rfl⟩
  · obtain ⟨hcfg, hothers⟩ := exec_cfg_othersLive h
    have hpast := exec_past h
    exact ⟨hcfg, hpast, fun _ => hothers⟩
  · cases h
    rw [createOther_eq]
    exact ⟨rfl, rfl, fun hne => absurd (hquiet _ rfl) hne⟩
  · cases h
    exact ⟨rfl, rfl, fun hne => absurd (hquiet _ rfl) hne⟩

/-! ### The step under a reset ahead -/

/-- With a reset ahead a step is the one without it, under that reset (70_reset_and_hazards.md R205). -/
theorem step_underReset {s t : State} {n : Nat} {later : List Nat} (hr : s.resets = (n + 1) :: later)
    (h : step (s.withResets []) = .next t) :
    advance s = .next (t.withResets s.resets) ∧
    step s = .next (s.underReset (t.withResets s.resets) (n + 1) later) := by
  have ha : advance s = .next (t.withResets s.resets) :=
    calc advance s = outcomeWithResets s.resets (advance (s.withResets [])) :=
          advance_withResets s.resets (s.withResets [])
      _ = .next (t.withResets s.resets) := by rw [← step_noReset (s := s.withResets []) rfl, h]; rfl
  refine ⟨ha, ?_⟩
  rw [step, hr, ha]
  simp only [hr]

/-- Settles O59: the step does not look at the reset ahead until its events are performed, and then it is whole or
broken off. -/
theorem resetBreaksTheStepOff : Obligations.ResetBreaksTheStepOff := by
  intro s t n later hr h
  obtain ⟨ha, hstep⟩ := step_underReset hr h
  have hevents : newEvents s (t.withResets s.resets) = newEvents s t := rfl
  rw [State.underReset, hevents] at hstep
  refine ⟨fun hfew => ?_, fun hmany => ?_⟩
  · rw [hstep, if_pos (Nat.lt_succ_of_le hfew)]
    rfl
  · rw [if_neg (Nat.not_lt_of_le hmany)] at hstep
    obtain ⟨hcfg, hpast, hothers⟩ := advance_kept ha
    have hsome : newEvents s t ≠ [] := List.ne_nil_of_length_pos (Nat.zero_lt_of_lt hmany)
    refine ⟨_, hstep, rfl, rfl, rfl, rfl, rfl, ?_, hcfg, hothers hsome, rfl⟩
    rw [State.hardwareReset_past, State.cutAfter_trace, State.cutAfter_past, hpast, hevents]

end Sys2Proof.Machine

-- A reset between the nibbles of a byte (70_reset_and_hazards.md R205).
namespace Sys2Proof.Machine

/-! ### What the bus shows of one WriteValue -/

/-- Driving data lines shows no transfer and sets their latches. -/
theorem transfers_dataLines (w : Width) (p : Pins) (is : List (Fin 8)) (v : Nat) (es : List Event) :
    transfers w p (is.map (fun i => .set (.d i) (v.testBit i)) ++ es)
      = transfers w (is.foldl (fun p i => p.setLevel (.d i) (v.testBit i)) p) es := by
  induction is generalizing p with
  | nil => rfl
  | cons i is ih =>
    rw [List.map_cons, List.cons_append, transfers, if_neg (by simp), List.nil_append, ih]
    rfl

/-- A `WriteValue` with RW at write shows the low bits of its value at the level of RS (42_bus_transmitter.md R115). -/
theorem transfers_writeEvents (c : Config) (w : Width) (v : Nat) {p : Pins} (hrw : p.rw.level = rwWrite) :
    transfers w p (writeEvents c w v) = [⟨p.rs.level, BitVec.ofNat 8 v &&& lineMask w⟩] := by
  rw [writeEvents, transfers_dataLines, setLevel_dataLines]
  simp [transfers, hrw, onLines_and_lineMask]

/-- RS and a high nibble show the high nibble at that level of RS (20_memory.md R45). -/
theorem transfers_highNibble (c : Config) (kind : Kind) (v : Byte) {p : Pins} (hrw : p.rw.level = rwWrite) :
    transfers .four p (.set .rs (rsLevel kind) :: writeEvents c .four (v.toNat / 16)) = [⟨rsLevel kind, v >>> 4⟩] := by
  have hrw' : (p.after (.set .rs (rsLevel kind))).rw.level = rwWrite := hrw
  have hnibble : BitVec.ofNat 8 (v.toNat / 16) &&& lineMask .four = v >>> 4 := by
    rw [← nibbles_and_lineMask, Nat.shiftRight_eq_div_pow]
  rw [transfers, if_neg (by simp), List.nil_append, transfers_writeEvents c .four _ hrw', hnibble]
  rfl

/-! ### PUTC broken off after its first nibble -/

/-- The events of a `Send` with `W = 4` and no poll (42_bus_transmitter.md R117). -/
theorem newEvents_afterSend_four {s : State} (hw : s.width = .four) (hp : s.cfg.busyPoll = false) (kind : Kind)
    (v : Byte) : newEvents s (s.afterSend kind v) = .set .rs (rsLevel kind) ::
      (writeEvents s.cfg .four (v.toNat / 16) ++ (writeEvents s.cfg .four (v.toNat % 16) ++ [.wait s.cfg.tSend])) := by
  apply newEvents_of_trace
  simp [State.afterSend, State.afterBusySend, hp, State.afterByte, byteEvents, hw]

/-- Settles O60: the reset falls after RS and the high nibble of the one `Send`. -/
theorem resetCanSplitAByte : Obligations.ResetCanSplitAByte := by
  intro c s more later hready hw hp hrw hport hresets
  let u : State := (s.withResets []).withPort more
  have hready' : Ready u := ⟨hready.live, hready.idle, hready.driven⟩
  have hdecode : decodeRequest (reqWord 0xC c 0 0) [] = .putc c := by simp [decodeRequest]
  have hwhole : step (s.withResets []) = .next ((u.afterSend .data c).completed .ok) := by
    rw [step_request (s := s.withResets []) rfl hready.idle hport, hdecode]
    exact putcSendsTheByte c u hready' fun hb => absurd (hp.symm.trans hb) (by decide)
  have hevents : newEvents s ((u.afterSend .data c).completed .ok) = _ :=
    newEvents_afterSend_four (s := u) hw hp .data c
  obtain ⟨-, hbroken⟩ := resetBreaksTheStepOff s _ 7 later hresets hwhole
  rw [hevents] at hbroken
  obtain ⟨r, hr, hlive, hseq, -, -, -, hpast, -, -, hmore⟩ := hbroken (by simp [writeEvents, dataLines])
  exact ⟨r, _, hr, hlive, hseq, hmore.trans (State.afterSend_port u .data c), hpast, transfers_highNibble _ .data c hrw⟩

end Sys2Proof.Machine

-- The least time of CREATE (70_reset_and_hazards.md R214).
namespace Sys2Proof.Machine

/-! ### The least time of a trace -/

theorem leastTime_append (es fs : List Event) : leastTime (es ++ fs) = leastTime es + leastTime fs := by
  simp [leastTime]

/-- Events without a wait take no time. -/
theorem leastTime_eq_zero {es : List Event} (h : ∀ t, .wait t ∉ es) : leastTime es = 0 := by
  rw [leastTime, List.sum_eq_zero_iff]
  intro n hn
  obtain ⟨e, he, rfl⟩ := List.mem_map.mp hn
  cases e with
  | wait t => exact absurd he (h t)
  | set | get | dir => rfl

/-- A `WriteValue` takes the pulse of EN (42_bus_transmitter.md R115). -/
theorem leastTime_writeEvents (c : Config) (w : Width) (v : Nat) : leastTime (writeEvents c w v) = c.tEn := by
  have hlines : leastTime ((dataLines w).map fun i => .set (.d i) (v.testBit i)) = 0 := leastTime_eq_zero (by simp)
  rw [writeEvents, leastTime_append, hlines]
  simp [leastTime]

/-- The enable pulses of one byte (20_memory.md R45). -/
def bytePulses : Width → Nat
  | .four => 2
  | .eight => 1

theorem leastTime_byteEvents (c : Config) (w : Width) (v : Byte) :
    leastTime (byteEvents c w v) = bytePulses w * c.tEn := by
  cases w with
  | four => rw [byteEvents, leastTime_append, leastTime_writeEvents, leastTime_writeEvents, bytePulses, Nat.two_mul]
  | eight => rw [byteEvents, leastTime_writeEvents, bytePulses, Nat.one_mul]

/-! ### The least time of the parts of an operation -/

/-- The least time of a part without a poll (42_bus_transmitter.md R115, R117). -/
def Part.time (c : Config) (w : Width) : Part → Nat
  | .send _ _ => bytePulses w * c.tEn + c.tSend
  | .write _ => c.tEn
  | .wait t => t
  | _ => 0

/-- A part adds its time to that of the trace. -/
theorem leastTime_part (p : Part) {s : State} (hb : s.cfg.busyPoll = false) :
    leastTime (p.effect s).trace = leastTime s.trace + p.time s.cfg s.width := by
  cases p with
  | send kind v =>
    have htrace : (s.afterSend kind v).trace
        = s.trace ++ ([.set .rs (rsLevel kind)] ++ (byteEvents s.cfg s.width v ++ [.wait s.cfg.tSend])) := by
      simp [State.afterSend, State.afterBusySend, hb, State.afterByte]
    have hset : leastTime [.set .rs (rsLevel kind)] = 0 := rfl
    have hwait : leastTime [.wait s.cfg.tSend] = s.cfg.tSend := rfl
    rw [Part.effect, htrace, Part.time]
    simp only [leastTime_append, leastTime_byteEvents, hset, hwait, Nat.zero_add]
  | write v => rw [Part.effect, State.afterWrite, State.moved_trace, leastTime_append, leastTime_writeEvents]; rfl
  | wait t => rw [Part.effect, State.waited, State.record_trace, leastTime_append]; rfl
  | storeControl | storeMode | storeScratch | starve => rfl

/-- Parts add up their times. -/
theorem leastTime_parts (ps : List Part) {s : State} (hb : s.cfg.busyPoll = false) :
    leastTime (ps.foldl Part.effect s).trace = leastTime s.trace + (ps.map (Part.time s.cfg s.width)).sum := by
  induction ps generalizing s with
  | nil => rfl
  | cons p ps ih =>
    rw [List.foldl_cons, ih (by rwa [Part.effect_cfg]), leastTime_part p hb, Part.effect_cfg, Part.effect_width,
      List.map_cons, List.sum_cons, Nat.add_assoc]

/-- The time of the reset dance and the setup, by width and primitive (41_init_sequence.md R103 to R108). -/
theorem sum_time_initParts (c : Config) (w : Width) (config : Byte) :
    ((danceParts c w config ++ setupParts c config).map (Part.time c w)).sum
      = c.tInit1 + c.tInit2 + c.tInit3 + c.tSlow + match w with
        | .four => 12 * c.tEn + 4 * c.tSend
        | .eight => 7 * c.tEn + (if c.init8Via = .send then 7 else 4) * c.tSend := by
  cases w with
  | four => simp [danceParts, setupParts, Part.time, bytePulses]; omega
  | eight => cases hv : c.init8Via <;> simp [danceParts, setupParts, Part.time, bytePulses, hv] <;> omega

theorem leastTime_initialized (config : Byte) {s : State} (hb : s.cfg.busyPoll = false) :
    leastTime (s.initialized config).trace = leastTime s.trace + s.cfg.tPowerup
      + ((danceParts s.cfg s.width config ++ setupParts s.cfg config).map (Part.time s.cfg s.width)).sum := by
  have hsettled : s.settled.trace = s.trace ++ [.wait s.cfg.tPowerup, .set .rs false, .set .en false] :=
    State.moved_trace _ _ _
  have htime : leastTime s.settled.trace = leastTime s.trace + s.cfg.tPowerup := by
    rw [hsettled, leastTime_append]
    rfl
  rw [initialized_eq_parts, leastTime_parts _ (by exact hb), htime]
  rfl

/-- `ConfigurePins()` waits for nothing (40_registry_lifecycle.md R91). -/
theorem leastTime_configured (s : State) : leastTime s.configured.trace = leastTime s.trace := by
  have hnone : leastTime (configureEvents s.cfg s.width) = 0 :=
    leastTime_eq_zero fun t => by cases hb : s.cfg.busyPoll <;> simp [configureEvents, hb]
  rw [configured_eq_moved, State.moved_trace, leastTime_append, hnone, Nat.add_zero]

/-- Settles O43: without polls the waits of CREATE are those of its parts. -/
theorem createLeastTime : Obligations.CreateLeastTime := by
  intro config s hfree hidle hmem hslot hb
  have hexec := createClaimsConfiguresInitializes config s hfree hidle hmem hslot
    fun hpolls => absurd (hb.symm.trans hpolls) (by decide)
  refine ⟨_, hexec, ?_⟩
  obtain ⟨es, htrace, -⟩ := moves_exec hexec
  have htotal := congrArg leastTime htrace
  rw [leastTime_append, State.completed_trace, leastTime_initialized config (by simpa using hb), leastTime_configured,
    configured_cfg, configured_width, sum_time_initParts] at htotal
  rw [newEvents_of_trace htrace]
  have hwaits : leastTime es = s.cfg.tPowerup + (s.cfg.tInit1 + s.cfg.tInit2 + s.cfg.tInit3 + s.cfg.tSlow + _) :=
    Nat.add_left_cancel (htotal.symm.trans (Nat.add_assoc _ _ _))
  rw [hwaits]
  cases config.getLsbD 4 <;> simp [Nat.add_assoc]

end Sys2Proof.Machine

-- Streams that end too early (93_implementation_defined.md U6, U7).
namespace Sys2Proof.Machine

/-! ### Work that waits for a stream byte -/

/-- No reset is ahead and the next item of the work waits for a stream byte that never comes. -/
structure Starved (s : State) : Prop where
  resets : s.resets = []
  waits  : ∃ rest, s.seq = .awaitStream :: rest

/-- A step of such work changes nothing (log 8). -/
theorem Starved.step {s : State} (h : Starved s) : step s = .next s := by
  obtain ⟨hresets, rest, hseq⟩ := h
  rw [step_working hresets hseq (by simp), perform_again (t := { s with seq := [] }) rfl, List.append_nil, ← hseq]

theorem Starved.run {s : State} (h : Starved s) (n : Nat) : Sys2Proof.core.run n s = .next s := by
  induction n with
  | zero => rfl
  | succ n ih => rw [run_succ h.step, ih]

/-! ### What parts leave alone -/

theorem seq_resets_parts (ps : List Part) (s : State) :
    (ps.foldl Part.effect s).seq = s.seq ∧ (ps.foldl Part.effect s).resets = s.resets := by
  induction ps generalizing s with
  | nil => exact ⟨rfl, rfl⟩
  | cons p ps ih =>
    obtain ⟨hseq, hresets⟩ := ih (p.effect s)
    rw [List.foldl_cons, hseq, hresets]
    cases p with
    | send kind v => exact ⟨State.afterSend_seq s kind v, State.afterSend_resets s kind v⟩
    | write | wait | storeControl | storeMode | storeScratch | starve => exact ⟨rfl, rfl⟩

/-- The status the parts find is the one they leave. -/
theorem parts_withStatus (ps : List Part) (x : Option Status) (s : State) :
    ps.foldl Part.effect (s.withStatus x) = (ps.foldl Part.effect s).withStatus x :=
  List.foldl_hom (State.withStatus x) (Part.effect_withStatus x)

/-! ### A request whose last part misses a stream byte -/

/-- The parts before the missing byte are performed, and the operation is left waiting without a status. -/
theorem exec_starved {i : Instr} {ps : List Part} {n : Nat} {s : State} (h : Ready s) (hresets : s.resets = [])
    (hneeds : Instr.needsLive i = true) (hgoto : ∀ line col, i = .goto line col → Instr.wellFormed i = true)
    (hparts : Instr.parts s i = ps ++ [.starve]) (hps : .starve ∉ ps) (hq : Quiet n s) (hn : ps.length ≤ n) :
    ∃ t, exec i s = .next t ∧ t.status = none ∧ Starved t := by
  obtain ⟨hseq, hres⟩ := seq_resets_parts ps (s.withStatus none)
  have hquiet : Quiet ((partsItems s.cfg s.width ps).count .poll) (s.withStatus none) :=
    (hq.mono ((count_poll_parts_le _ _ ps).trans hn)).congr rfl rfl rfl
  have hwork := perform_parts (s := s.withStatus none) (rest := [.awaitStream, .finish .ok]) h.driven hquiet hps
  have hexec : exec i s = perform (partsItems s.cfg s.width ps ++ [.awaitStream, .finish .ok]) (s.withStatus none) := by
    rw [exec_ready h hneeds hgoto, hparts, partsItems_append, List.append_assoc]
    rfl
  refine ⟨_, hexec.trans (hwork.trans (perform_again rfl)), ?_, hres.trans hresets, _, rfl⟩
  exact congrArg State.status (parts_withStatus ps none s)

/-- Settles O35: such a request ends its parts with the wait for the missing byte, which no step gets past. -/
theorem starvedStreamNeverCompletes : Obligations.StarvedStreamNeverCompletes := by
  intro i stream s hready hresets hquiet hshort
  have hstarved : ∃ t, exec i s = .next t ∧ t.status = none ∧ Starved t := by
    obtain ⟨idx, rfl, hlen⟩ | ⟨rfl, hzero⟩ := hshort
    · refine exec_starved (ps := .send .command (setCgramByte idx) :: (bitmapBytes stream).map (.send .data)) hready
        hresets rfl (by simp) (by rw [Instr.parts, if_pos hlen]) (by simp) hquiet ?_
      simp [bitmapBytes]
    · have hterm : terminated stream = false := by simpa [terminated] using hzero
      refine exec_starved (ps := (stringBytes stream).map (.send .data)) hready hresets rfl (by simp)
        (by simp [Instr.parts, hterm]) (by simp) hquiet ?_
      rw [List.length_map, stringBytes]
      exact (List.takeWhile_sublist _).length_le.trans (Nat.le_add_left _ 1)
  obtain ⟨t, ht, hstatus, hstarve⟩ := hstarved
  obtain ⟨rest, hseq⟩ := hstarve.waits
  exact ⟨t, ht, by simp [hseq], hstatus, hstarve.run⟩

end Sys2Proof.Machine
